-- ==== Sys2Proof/Word.lean ====
section
/-! DEFINITION. The word types of the block: register words, bytes, packed RGB triples. -/

namespace Sys2Proof

/-- A byte of memory or of an RLE token. -/
abbrev Byte := BitVec 8

/-- A register or a command word (10_state.md R16). -/
abbrev Word := BitVec 32

/-- An RGB triple in the source's packed order, red in bits 23:16 (00_scope.md R9). -/
abbrev Rgb := BitVec 24

end Sys2Proof
end

