-- ==== Sys2Proof/Syntax.lean ====
section
/-! DEFINITION. The instructions: the nine commands and the illegal command word (30_encoding.md R53 to R55), and the
three body tokens (30_encoding.md R58 to R60), one constructor per row of spec/opcode_table.json. -/

namespace Sys2Proof

/-- One constructor per row of the opcode table. A command has no operand field (30_encoding.md R53); `illegal` carries
the whole command word, which its error reports. -/
inductive Instr where
  | nop
  | geom
  | palres
  | rled
  | rlee
  | rleeb
  | pxdec
  | pxenc
  | palser
  | illegal (w : Word)
  | rleRun (count : BitVec 6) (value : Byte)
  | rleEscapedLiteral (value : Byte)
  | rleLiteral (value : Byte)
deriving DecidableEq, Repr

/-- The instruction is a command of the CMD register, not a body token. -/
def Instr.isCommand : Instr → Bool
  | .nop | .geom | .palres | .rled | .rlee | .rleeb | .pxdec | .pxenc | .palser | .illegal _ => true
  | .rleRun _ _ | .rleEscapedLiteral _ | .rleLiteral _ => false

end Sys2Proof
end

