-- ==== Sys2Proof/WellFormed.lean ====
section
/-! DEFINITION. Which terms of Instr are the reading of some encoding. -/

namespace Sys2Proof

/-- `w` is the word of one of the nine commands: bits 31:8 zero and OP in 0x00..0x08 (30_encoding.md R54, R55). -/
def legalCommand (w : Word) : Bool := decide (w.toNat ≤ 8)

/-- A well-formed instruction: the illegal row holds only words that no other row matches (30_encoding.md R55); a run of
count 1 is the escaped-literal row (opcode_table.json, log 9); a literal is a byte whose top two bits are not both set
(30_encoding.md R58). -/
def WellFormed : Instr → Bool
  | .nop | .geom | .palres | .rled | .rlee | .rleeb | .pxdec | .pxenc | .palser => true
  | .illegal w => !legalCommand w
  | .rleRun count _ => count != 1#6
  | .rleEscapedLiteral _ => true
  | .rleLiteral value => value &&& 0xC0#8 != 0xC0#8

end Sys2Proof
end

