-- ==== Sys2Proof/Decode.lean ====
section
/-! DEFINITION. The decoder, total on any word and any bytes, and the encoder, written from the same tables
(30_encoding.md R53, R54, R58, R59, R60). -/

namespace Sys2Proof

/-- Why a byte string holds no token. -/
inductive DecodeError where
  | noControlByte   -- no byte left to read as a control byte
  | noValueByte     -- a run's control byte with no value byte after it
deriving DecidableEq, Repr

/-- An encoded instruction: a command word written to CMD, or the bytes of a body token, lowest address first. -/
inductive Encoding where
  | command (w : Word)
  | token (bytes : List Byte)
deriving DecidableEq, Repr

/-- The command a word selects (30_encoding.md R54, R55): every word is one of the nine commands or illegal. -/
def decodeCommand (w : Word) : Instr :=
  match w.toNat with
  | 0 => .nop
  | 1 => .geom
  | 2 => .palres
  | 3 => .rled
  | 4 => .rlee
  | 5 => .rleeb
  | 6 => .pxdec
  | 7 => .pxenc
  | 8 => .palser
  | _ => .illegal w

/-- The control byte's top two bits are both set: a run marker (30_encoding.md R58). -/
def isRunMarker (b : Byte) : Bool := b &&& 0xC0#8 == 0xC0#8

/-- The count field of a run marker, b[5:0] (30_encoding.md R59). -/
def runCount (b : Byte) : BitVec 6 := b.setWidth 6

/-- The token at the head of a byte string, and the rest of the string (30_encoding.md R58). A count of 1 is the
escaped-literal row of the opcode table (log 9). -/
def decodeToken : List Byte → Except DecodeError (Instr × List Byte)
  | [] => .error .noControlByte
  | b :: rest =>
    if isRunMarker b then
      match rest with
      | [] => .error .noValueByte
      | v :: rest' =>
        if runCount b = 1#6 then .ok (.rleEscapedLiteral v, rest') else .ok (.rleRun (runCount b) v, rest')
    else .ok (.rleLiteral b, rest)

/-- Decoding, total. -/
def decode : Encoding → Except DecodeError (Instr × List Byte)
  | .command w => .ok (decodeCommand w, [])
  | .token bytes => decodeToken bytes

/-- The run marker of a count, `0xC0 | n` (30_encoding.md R58, R60). -/
def runMarker (count : BitVec 6) : Byte := 0xC0#8 ||| count.setWidth 8

/-- The encoding of an instruction (30_encoding.md R54, R58, R60). -/
def encode : Instr → Encoding
  | .nop => .command 0x00000000#32
  | .geom => .command 0x00000001#32
  | .palres => .command 0x00000002#32
  | .rled => .command 0x00000003#32
  | .rlee => .command 0x00000004#32
  | .rleeb => .command 0x00000005#32
  | .pxdec => .command 0x00000006#32
  | .pxenc => .command 0x00000007#32
  | .palser => .command 0x00000008#32
  | .illegal w => .command w
  | .rleRun count value => .token [runMarker count, value]
  | .rleEscapedLiteral value => .token [0xC1#8, value]
  | .rleLiteral value => .token [value]

/-- The command word of an instruction; a token has none (0, never used: a token is no command). -/
def commandWord (i : Instr) : Word :=
  match encode i with
  | .command w => w
  | .token _ => 0#32

/-- Bits 7:0 of the command word, which STATUS.LASTOP records (60_exceptions.md R117). -/
def opcode (i : Instr) : Byte := (commandWord i).setWidth 8

/-- The row of the opcode table that a word selects. `nbits` tells the two encodings apart: the table gives a token row
8 bits (its second byte is then 0), a command row 32. The first byte of a token is bits 7:0 (log 27). -/
def decodeTableWord (nbits w : Nat) : Option Instr :=
  if nbits ≤ 16 then
    match decodeToken [BitVec.ofNat 8 w, BitVec.ofNat 8 (w / 256)] with
    | .ok (i, _) => some i
    | .error _ => none
  else some (decodeCommand (BitVec.ofNat 32 w))

end Sys2Proof
end

