-- ==== Sys2Proof/Config.lean ====
section
/-! DEFINITION. What the implementation fixes (00_scope.md R5): the parameters of the block as plain data, their
default values, the fixed sizes of the file format, and the free values that the spec leaves unspecified. -/

namespace Sys2Proof

/-- STRADDLE_POLICY: what RLED does with the rest of a run that crosses a stored-line end (92_eei_decisions.md D19). -/
inductive StraddlePolicy where
  | dropRest
  | dropOne
deriving DecidableEq, Repr

/-- DICT_DUP_WINNER: the index the colour dictionary returns for a colour held twice (92_eei_decisions.md D26). -/
inductive DupWinner where
  | lowest
  | highest
deriving DecidableEq, Repr

/-- A range of memory addresses `[base, base + len)`. -/
structure Region where
  base : Nat
  len : Nat
deriving DecidableEq, Repr

/-- Addresses of a region. -/
def Region.holds (r : Region) (a : Nat) : Bool :=
  decide (r.base ≤ a) && decide (a < r.base + r.len)

/-- Two regions share at least one address (20_memory.md R42: both non-empty, and the ranges meet). -/
def Region.meets (r q : Region) : Bool :=
  decide (0 < r.len) && decide (0 < q.len) && decide (r.base < q.base + q.len) && decide (q.base < r.base + r.len)

/-- The parameters of 00_scope.md R5, and the memory windows that belong to devices (20_memory.md R43).
`ega` is EGA_PALETTE; `cga` is CGA_TABLES, four rows of three entries; `noPaletteVersions` is NO_PALETTE_VERSIONS. -/
structure Config where
  addrW : Nat
  regBase : Nat
  straddle : StraddlePolicy
  dupWinner : DupWinner
  ega : Vector Rgb 16
  cga : Vector (Vector Rgb 3) 4
  noPaletteVersions : List (BitVec 8)
  devices : List Region
deriving DecidableEq, Repr

/-- The default EGA_PALETTE (93_implementation_defined.md X1). -/
def Config.defaultEga : Vector Rgb 16 :=
  #v[0x000000#24, 0x0000AA#24, 0x00AA00#24, 0x00AAAA#24, 0xAA0000#24, 0xAA00AA#24, 0xAA5500#24, 0xAAAAAA#24,
     0x555555#24, 0x5555FF#24, 0x55FF55#24, 0x55FFFF#24, 0xFF5555#24, 0xFF55FF#24, 0xFFFF55#24, 0xFFFFFF#24]

/-- The default CGA_TABLES (93_implementation_defined.md X2), rows 0 to 3. -/
def Config.defaultCga : Vector (Vector Rgb 3) 4 :=
  #v[#v[0x00AA00#24, 0xAA0000#24, 0xAA5500#24],
     #v[0x55FF55#24, 0xFF5555#24, 0xFFFF55#24],
     #v[0x00AAAA#24, 0xAA00AA#24, 0xAAAAAA#24],
     #v[0x55FFFF#24, 0xFF55FF#24, 0xFFFFFF#24]]

/-- The defaults of 00_scope.md R5. REG_BASE has no default: 0 is the model's (DESIGN CHOICE, log 1; unsafe: a proof
could lean on it, none does). No device window (DESIGN CHOICE, log 17). -/
def Config.default : Config where
  addrW := 32
  regBase := 0
  straddle := .dropRest
  dupWinner := .lowest
  ega := Config.defaultEga
  cga := Config.defaultCga
  noPaletteVersions := [3#8]
  devices := []

/-- HDR_LEN: offset of the compressed body from the start of the file (00_scope.md R5). -/
def Config.hdrLen : Nat := 128

/-- TRAILER_LEN: length of the 256-colour trailer (00_scope.md R5). -/
def Config.trailerLen : Nat := 769

/-- PAL_MARKER: the trailer's identifier byte (00_scope.md R5). -/
def Config.palMarker : Byte := 0x0C#8

/-- MAX_RUN: the longest run one token encodes (00_scope.md R5). -/
def Config.maxRun : Nat := 63

/-- HPAL_LEN: bytes of the header palette region (00_scope.md R5). -/
def Config.hpalLen : Nat := 48

/-- What a byte of memory reads as when nothing has written it and nothing has left it unspecified. The spec gives memory
no contents at power-on. DESIGN CHOICE (log 3), unsafe: a proof could lean on the zero. -/
def Config.unlistedByte : Byte := 0#8

/-- The place where a free value is drawn: draws at different places are unrelated. -/
inductive DrawUse where
  | memByte     -- a byte of memory left unspecified (U2, U3)
  | engineRead  -- the engine's read of a raced byte, a device byte, or a byte outside its input region (U3, U4)
  | hostRead    -- a host read of an output byte of a busy command (U3)
  | palRead     -- a read of a PALRAM entry nothing has written (U1)
  | palEntry    -- a PALRAM entry written by a spoiled PALRES (U3)
  | sample      -- a sample, where BPP is not the variant's width (log 31)
  | packedByte  -- a byte that PXENC packs there, or a byte of V8x3 that is no channel of a pixel (logs 31, 33)
  | fits        -- whether an index fits, where the register's and the variant's width disagree on it (log 31)
  | palLen
  | palPath
  | probeDup
  | cgaDesc
  | bpl
  | code
  | notEven
  | valid
  | result
  | errInfo
deriving DecidableEq, Repr

/-- A FREE VALUE: an unconstrained draw (93_implementation_defined.md, treatment "any value"). No body: nothing
constrains it. `tick` is the occurrence (State.draws), `index` tells the draws of one occurrence apart. Log 5. -/
opaque Config.free (w : Nat) (use : DrawUse) (tick index : Nat) : BitVec w

end Sys2Proof
end

