-- ==== Sys2Proof/Machine/State.lean ====
section
/-! DEFINITION. The state of the block as plain data, and the state right after a hardware reset. INVENTORY.md lists
every field with its rule and its reset value. -/

namespace Sys2Proof.Machine

/-- The eight variants (30_encoding.md R56). -/
inductive Variant where
  | v1x1 | v2x1 | v1x2 | v1x3 | v1x4 | v4x1 | v8x1 | v8x3
deriving DecidableEq, Repr

/-- The palette paths (30_encoding.md R57). -/
inductive PalPath where
  | none | fixedMono | explicitHeader | egaDefault | cgaExplicit | cgaDerived | explicitTrailer
deriving DecidableEq, Repr

/-- The error kinds of 60_exceptions.md R115, the three that are allocated but never raised among them. -/
inductive ErrKind where
  | invalidSignature | unsupportedEncoding | unsupportedFormat | paletteDuplicate | paletteMarkerMissing
  | paletteSizeMismatch | colorNotInPalette
  | illegalCommand | notConfigured | geometryUnsupported | inputExhausted | destOverflow | bufferOverlap | addressRange
deriving DecidableEq, Repr

/-- `raise E(info)` (60_exceptions.md R116): an error and its information value, exact. -/
structure Raised where
  kind : ErrKind
  info : Nat
deriving DecidableEq, Repr

/-- STATUS (10_state.md R19), less BUSY, which is "PENDING is not empty" (10_state.md R33, log 7). -/
structure Status where
  done : Bool
  err : Bool
  hzd : Bool
  errCode : Byte
  lastOp : Byte
deriving DecidableEq, Repr

/-- VARIANT (10_state.md R25). -/
structure VariantReg where
  code : Variant
  notEven : Bool
  valid : Bool
deriving DecidableEq, Repr

/-- PALCTL (10_state.md R28). -/
structure PalCtl where
  palLen : BitVec 9
  path : PalPath
  probeDup : Bool
deriving DecidableEq, Repr

/-- CGADESC (10_state.md R29). -/
structure CgaDesc where
  bg : BitVec 4
  palNum : Bool
  intens : Bool
  burst : Bool
deriving DecidableEq, Repr

/-- A PALRAM entry (10_state.md R31): what was last written, or nothing since the last hardware reset, and then every read
of it is an unconstrained value (10_state.md R36, 93_implementation_defined.md U1). -/
inductive PalEntry where
  | unwritten
  | written (c : Rgb)
deriving DecidableEq, Repr

/-- The registers of 10_state.md R16 other than PALRAM, each under the spec's name and at its field's width. CMD holds no
state (R18); SRST reads 0 and holds none (R20). -/
structure Regs where
  status : Status
  irqEn : Bool
  srcAddr : Word
  srcLen : Word
  dstAddr : Word
  dstCap : Word
  width : BitVec 16
  height : BitVec 16
  bpp : BitVec 8
  nplanes : BitVec 8
  bplo : BitVec 16
  version : BitVec 8
  bpl : BitVec 16
  variant : VariantReg
  result : Word
  errInfo : Word
  palctl : PalCtl
  cgadesc : CgaDesc
  hpal : Vector Word 12
deriving DecidableEq, Repr

/-- A range of memory bytes that an event left unspecified, and the occurrence that their free values belong to. -/
structure Span where
  lo : Nat
  len : Nat
  tick : Nat
deriving DecidableEq, Repr

/-- Memory (10_state.md R13): the listed bytes, addresses strictly rising, and the ranges left unspecified, newest first.
A listed byte is read first, then the newest range that holds the address, then `Config.unlistedByte` (log 3, log 4). -/
structure Memory where
  cells : List Host.Cell
  spans : List Span
deriving DecidableEq, Repr

/-- What has happened to the pending command while BUSY = 1 (70_reset_and_hazards.md R131, 20_memory.md R48). -/
structure Race where
  tainted : Bool
  inBytes : List Nat
  outBytes : List Nat
deriving DecidableEq, Repr

/-- Nothing has. -/
def Race.clean : Race := ⟨false, [], []⟩

/-- RLED's local cursors (10_state.md R35): input offset, output offset, stored-line byte counter, completed lines. -/
structure Cursor where
  ip : Nat
  o : Nat
  lc : Nat
  ln : Nat
deriving DecidableEq, Repr

/-- One event at the block's bus side. `regWrite` and `regRead` are host accesses at a bus address, of a width in bits
(20_memory.md R39); `waitDone` is the pseudo-instruction of 30_encoding.md R68; `engine` gives the engine one turn
before the next event; `memWrite` and `memRead` are accesses to memory by the host or any other agent (20_memory.md R48,
log 20); `hardReset` is 70_reset_and_hazards.md R129. -/
inductive HostEvent where
  | regWrite (addr bits : Nat) (w : Word)
  | regRead (addr bits : Nat)
  | waitDone
  | engine
  | memWrite (addr : Nat) (v : Byte)
  | memRead (addr : Nat)
  | hardReset
deriving DecidableEq, Repr

/-- The whole machine. `regs`, `palram`, `pending` and `mem` are the spec's state; `dec` holds RLED's cursors while a
decode is under way token by token (log 8); `race` is the busy-time record; `host` is the list of bus events to come
(log 2); `busData` and `memData` are what the last reads returned (log 22); `cfg` is fixed (log 1); `draws` is the
occurrence number of the next free value (log 5). -/
structure State where
  regs : Regs
  palram : Vector PalEntry 256
  pending : Option Word
  mem : Memory
  dec : Option Cursor
  race : Race
  host : List HostEvent
  busData : Word
  memData : Byte
  cfg : Config
  draws : Nat
deriving DecidableEq, Repr

/-- Why the machine stops with a fault. No command and no register access raises one. -/
inductive Fault where
  /-- Raised by a memory event (an access by the host or another agent) at or above 2^ADDR_W: no such byte exists
  (10_state.md R13). Safe: the model stops. -/
  | noSuchAddress
  /-- Raised by a body token that is executed while no RLED is under way: a token is data of a body, "not a command"
  (opcode_table.json), and only RLED reads one (10_state.md R35). Safe: the model stops; no run from reset gets there. -/
  | tokenOutsideBody
deriving DecidableEq, Repr

/-- Why a step has no meaning. -/
inductive Refusal where
  /-- Raised by exec's arm of an instruction that has no meaning yet (none is left). Safe. -/
  | notModelled (mnemonic : String)
  /-- Raised by a host register access whose width is not 32 bits, whose offset is not a multiple of 4 or lies outside the
  window: "The model refuses that host step" (20_memory.md R39; 93_implementation_defined.md U5). Safe. -/
  | badRegisterAccess
  /-- Raised by a memory event at an address inside a device window: the spec does not say what the device does
  (20_memory.md R43, 93_implementation_defined.md U4). Safe. -/
  | deviceAccess
deriving DecidableEq, Repr

/-- Every register at the value 10_state.md R36 gives: 0 in every field. -/
def Regs.reset : Regs where
  status := ⟨false, false, false, 0x00#8, 0x00#8⟩
  irqEn := false
  srcAddr := 0#32
  srcLen := 0#32
  dstAddr := 0#32
  dstCap := 0#32
  width := 0#16
  height := 0#16
  bpp := 0#8
  nplanes := 0#8
  bplo := 0#16
  version := 0#8
  bpl := 0#16
  variant := ⟨.v1x1, false, false⟩
  result := 0#32
  errInfo := 0#32
  palctl := ⟨0#9, .none, false⟩
  cgadesc := ⟨0#4, false, false, false⟩
  hpal := Vector.replicate 12 0#32

/-- The machine right after a hardware reset (10_state.md R36, 70_reset_and_hazards.md R129): PENDING empty, PALRAM
unwritten, memory with nothing listed, no event to come. The model's own fields `busData`, `memData` and `draws` start
at 0 (DESIGN CHOICE, logs 22 and 5). -/
def State.reset : State where
  regs := Regs.reset
  palram := Vector.replicate 256 .unwritten
  pending := none
  mem := ⟨[], []⟩
  dec := none
  race := Race.clean
  host := []
  busData := 0#32
  memData := 0#8
  cfg := Config.default
  draws := 0

end Sys2Proof.Machine
end

