-- ==== Sys2Proof/Machine/Flags.lean ====
section
/-! DEFINITION. Flags and codes: the code numbers of 30_encoding.md R56, R57 and 60_exceptions.md R115, the words the host
reads for the registers that hold flags (10_state.md R19, R20, R25, R28, R29), the interrupt output, and the flag
computations of the geometry unit and of completion. -/

namespace Sys2Proof.Machine

/-- A flag as one bit of a register word, at bit `k`. -/
def flagBit (b : Bool) (k : Nat) : Word := if b then 1#32 <<< k else 0#32

/-- VARIANT.CODE (30_encoding.md R56). -/
def variantCode : Variant → BitVec 4
  | .v1x1 => 0#4
  | .v2x1 => 1#4
  | .v1x2 => 2#4
  | .v1x3 => 3#4
  | .v1x4 => 4#4
  | .v4x1 => 5#4
  | .v8x1 => 6#4
  | .v8x3 => 7#4

/-- The variant of a code 0 to 7; the codes 8 to 15 do not exist (30_encoding.md R56, 93_implementation_defined.md S4). -/
def variantOfCode (c : BitVec 3) : Variant :=
  match c.toNat with
  | 0 => .v1x1
  | 1 => .v2x1
  | 2 => .v1x2
  | 3 => .v1x3
  | 4 => .v1x4
  | 5 => .v4x1
  | 6 => .v8x1
  | _ => .v8x3

/-- The bits per pixel of a variant (30_encoding.md R56, 43_geometry.md R89). -/
def variantBits : Variant → Nat
  | .v1x1 => 1
  | .v2x1 => 2
  | .v1x2 => 1
  | .v1x3 => 1
  | .v1x4 => 1
  | .v4x1 => 4
  | .v8x1 => 8
  | .v8x3 => 8

/-- PALCTL.PATH (30_encoding.md R57). -/
def pathCode : PalPath → BitVec 3
  | .none => 0#3
  | .fixedMono => 1#3
  | .explicitHeader => 2#3
  | .egaDefault => 3#3
  | .cgaExplicit => 4#3
  | .cgaDerived => 5#3
  | .explicitTrailer => 6#3

/-- The path a write of three bits stores: "a write of 7 stores 0" (10_state.md R28). -/
def pathOfCode (c : BitVec 3) : PalPath :=
  match c.toNat with
  | 1 => .fixedMono
  | 2 => .explicitHeader
  | 3 => .egaDefault
  | 4 => .cgaExplicit
  | 5 => .cgaDerived
  | 6 => .explicitTrailer
  | _ => .none

/-- The PAL_LEN a write of nine bits stores: "a write of a value above 256 stores 256" (10_state.md R28). -/
def clampPalLen (n : BitVec 9) : BitVec 9 := if n ≤ 256#9 then n else 256#9

/-- The error code of a kind (60_exceptions.md R115). -/
def errCode : ErrKind → Byte
  | .invalidSignature => 0x01#8
  | .unsupportedEncoding => 0x02#8
  | .unsupportedFormat => 0x03#8
  | .paletteDuplicate => 0x04#8
  | .paletteMarkerMissing => 0x05#8
  | .paletteSizeMismatch => 0x06#8
  | .colorNotInPalette => 0x07#8
  | .illegalCommand => 0x10#8
  | .notConfigured => 0x11#8
  | .geometryUnsupported => 0x12#8
  | .inputExhausted => 0x13#8
  | .destOverflow => 0x14#8
  | .bufferOverlap => 0x15#8
  | .addressRange => 0x16#8

/-- BUSY: "STATUS.BUSY = 1 exactly when PENDING is not empty" (10_state.md R33). -/
def State.busy (s : State) : Bool := s.pending.isSome

/-- irq = CTRL.IRQ_EN AND STATUS.DONE, at every moment (60_exceptions.md R121). -/
def State.irq (s : State) : Bool := s.regs.irqEn && s.regs.status.done

/-- The word a read of STATUS returns (10_state.md R19). -/
def statusWord (busy : Bool) (t : Status) : Word :=
  flagBit busy 0 ||| flagBit t.done 1 ||| flagBit t.err 2 ||| flagBit t.hzd 3
    ||| (t.errCode.setWidth 32 <<< 8) ||| (t.lastOp.setWidth 32 <<< 16)

/-- The word a read of VARIANT returns (10_state.md R25). -/
def variantWord (v : VariantReg) : Word :=
  (variantCode v.code).setWidth 32 ||| flagBit v.notEven 8 ||| flagBit v.valid 31

/-- The word a read of PALCTL returns (10_state.md R28). -/
def palctlWord (p : PalCtl) : Word :=
  p.palLen.setWidth 32 ||| ((pathCode p.path).setWidth 32 <<< 16) ||| flagBit p.probeDup 24

/-- The word a read of CGADESC returns (10_state.md R29). -/
def cgadescWord (c : CgaDesc) : Word :=
  c.bg.setWidth 32 ||| flagBit c.palNum 4 ||| flagBit c.intens 5 ||| flagBit c.burst 6

/-- What a write of `w` to PALCTL stores: PAL_LEN and PATH clamped, PROBE_DUP kept (10_state.md R28). -/
def palctlWrite (old : PalCtl) (w : Word) : PalCtl where
  palLen := clampPalLen (w.extractLsb' 0 9)
  path := pathOfCode (w.extractLsb' 16 3)
  probeDup := old.probeDup

/-- What a write of `w` to CGADESC stores (10_state.md R29). -/
def cgadescWrite (w : Word) : CgaDesc where
  bg := w.extractLsb' 0 4
  palNum := w.getLsbD 4
  intens := w.getLsbD 5
  burst := w.getLsbD 6

/-- STATUS after an acknowledge: DONE, ERR and HZD cleared where `w` has a 1, nothing else changed (45_control.md R112). -/
def statusAck (t : Status) (w : Word) : Status :=
  { t with done := t.done && !w.getLsbD 1, err := t.err && !w.getLsbD 2, hzd := t.hzd && !w.getLsbD 3 }

/-- STATUS after a command completes (60_exceptions.md R117): DONE set, LASTOP the command's, ERR and ERRCODE from the
outcome; HZD is sticky (10_state.md R19). -/
def statusComplete (t : Status) (lastOp : Byte) (outcome : Option ErrKind) : Status where
  done := true
  err := outcome.isSome
  hzd := t.hzd
  errCode := match outcome with
    | none => 0x00#8
    | some e => errCode e
  lastOp := lastOp

/-- The variant of a (BPP, NPLANES) pair (43_geometry.md R89). -/
def varsel (b p : BitVec 8) : Option Variant :=
  match b.toNat, p.toNat with
  | 1, 1 => some .v1x1
  | 2, 1 => some .v2x1
  | 1, 2 => some .v1x2
  | 1, 3 => some .v1x3
  | 1, 4 => some .v1x4
  | 4, 1 => some .v4x1
  | 8, 1 => some .v8x1
  | 8, 3 => some .v8x3
  | _, _ => none

/-- The derived bytes per line, ceil(WIDTH * BPP / 8) (43_geometry.md R90). -/
def bytesPerLine (width : BitVec 16) (bpp : BitVec 8) : Nat := (width.toNat * bpp.toNat + 7) / 8

/-- The signed difference BPLO - BPL (43_geometry.md R91). -/
def lineSlack (bplo : BitVec 16) (bpl : Nat) : Int := (bplo.toNat : Int) - (bpl : Int)

end Sys2Proof.Machine
end

