-- ==== Sys2Proof/Machine/Ops.lean ====
section
/-! DEFINITION. The shared operations: memory, the two regions and their checks, the completion of a command (the block's
only trap, 60_exceptions.md R117) and the acknowledge that answers it (45_control.md R112), hazards and resets. -/

namespace Sys2Proof.Machine

/-! ## Memory -/

/-- The address lies in the span. -/
def spanHolds (p : Span) (a : Nat) : Bool := decide (p.lo ≤ a) && decide (a < p.lo + p.len)

/-- The newest span that holds an address. -/
def Memory.spanAt (m : Memory) (a : Nat) : Option Span := m.spans.find? (fun p => spanHolds p a)

/-- What an address that no cell lists reads as: the free value of the event that left it unspecified (U2, U3; log 4), or
`Config.unlistedByte` (log 3). -/
def Memory.unlisted (m : Memory) (a : Nat) : Byte :=
  match m.spanAt a with
  | some p => Config.free 8 .memByte p.tick a
  | none => Config.unlistedByte

/-- The listed byte of an address. -/
def cellFind : List Host.Cell → Nat → Option Byte
  | [], _ => none
  | c :: rest, a => if c.1 = a then some c.2 else cellFind rest a

/-- The list with the byte of one address set, in its place. -/
def cellSet : List Host.Cell → Nat → Byte → List Host.Cell
  | [], a, v => [(a, v)]
  | c :: rest, a, v =>
    if a < c.1 then (a, v) :: c :: rest
    else if a = c.1 then (a, v) :: rest
    else c :: cellSet rest a v

/-- The list without an address. -/
def cellErase (l : List Host.Cell) (a : Nat) : List Host.Cell := l.filter (fun c => c.1 != a)

/-- MemRead(a, 1) (00_scope.md R8). -/
def Memory.read (m : Memory) (a : Nat) : Byte :=
  match cellFind m.cells a with
  | some v => v
  | none => m.unlisted a

/-- MemWrite(a, 1, v) (00_scope.md R8), keeping the canonical form: outside the spans, the byte an unlisted address reads
as is not listed. -/
def Memory.write (m : Memory) (a : Nat) (v : Byte) : Memory :=
  match m.spanAt a with
  | some _ => { m with cells := cellSet m.cells a v }
  | none =>
    if v = Config.unlistedByte then { m with cells := cellErase m.cells a }
    else { m with cells := cellSet m.cells a v }

/-- Write `f 0, f 1, …` to the `n` bytes from `base` on. -/
def Memory.fillFrom (f : Nat → Byte) (base : Nat) : Nat → Nat → Memory → Memory
  | 0, _, m => m
  | n + 1, i, m => (Memory.fillFrom f base n (i + 1) m).write (base + i) (f i)

/-- Write the `n` bytes `f 0, …, f (n-1)` from `base` on. -/
def Memory.fill (m : Memory) (base n : Nat) (f : Nat → Byte) : Memory := Memory.fillFrom f base n 0 m

/-- Leave `len` bytes from `lo` on unspecified: each reads as a free value of the occurrence `tick` from now on, until it is
written (U2, U3; log 4). -/
def Memory.havoc (m : Memory) (lo len tick : Nat) : Memory :=
  if len = 0 then m
  else { cells := m.cells.filter (fun c => !spanHolds ⟨lo, len, tick⟩ c.1), spans := ⟨lo, len, tick⟩ :: m.spans }

/-- Leave each byte of a list of addresses unspecified. -/
def Memory.havocEach (m : Memory) (tick : Nat) : List Nat → Memory
  | [] => m
  | a :: rest => (Memory.havocEach m tick rest).havoc a 1 tick

/-- The canonical form: addresses strictly rising, no listed byte outside the spans equal to what an unlisted address reads
as, no empty span. -/
abbrev Memory.wf (m : Memory) : Prop :=
  m.cells.Pairwise (fun c d => c.1 < d.1)
    ∧ (∀ c ∈ m.cells, m.spanAt c.1 = none → c.2 ≠ Config.unlistedByte)
    ∧ (∀ p ∈ m.spans, 0 < p.len)

/-- Every listed byte and every unspecified range lies below an address. -/
abbrev Memory.below (m : Memory) (top : Nat) : Prop :=
  (∀ c ∈ m.cells, c.1 < top) ∧ ∀ p ∈ m.spans, p.lo + p.len ≤ top

/-! ## Regions (10_state.md R21, 20_memory.md R41, R42) -/

/-- 2^ADDR_W, the number of bytes of the memory space (10_state.md R13). -/
def State.addrTop (s : State) : Nat := 2 ^ s.cfg.addrW

/-- The input region. -/
def State.input (s : State) : Region := ⟨s.regs.srcAddr.toNat, s.regs.srcLen.toNat⟩

/-- The output region. -/
def State.output (s : State) : Region := ⟨s.regs.dstAddr.toNat, s.regs.dstCap.toNat⟩

/-- How many bytes of the output region exist: those below 2^ADDR_W (log 26). -/
def State.outRoom (s : State) : Nat := min s.regs.dstCap.toNat (s.addrTop - s.regs.dstAddr.toNat)

/-- The bytes of a device window (20_memory.md R43; log 17). -/
def State.isDevice (s : State) (a : Nat) : Bool := s.cfg.devices.any (fun d => d.holds a)

/-- A region touches a device window. -/
def State.touchesDevice (s : State) (r : Region) : Bool := s.cfg.devices.any (fun d => d.meets r)

/-- The command uses its input region (20_memory.md R41, 60_exceptions.md R118 item 3). -/
def usesInput (i : Instr) (s : State) : Bool :=
  match i with
  | .rled | .rlee | .rleeb | .pxdec | .pxenc => true
  | .palres => s.regs.variant.code == .v8x1
  | .nop | .geom | .palser | .illegal _ => false
  | .rleRun _ _ | .rleEscapedLiteral _ | .rleLiteral _ => false

/-- The command uses its output region (60_exceptions.md R118, R119). -/
def usesOutput (i : Instr) : Bool :=
  match i with
  | .rled | .rlee | .rleeb | .pxdec | .pxenc | .palser => true
  | .nop | .geom | .palres | .illegal _ => false
  | .rleRun _ _ | .rleEscapedLiteral _ | .rleLiteral _ => false

/-! ## The common checks (60_exceptions.md R118), each the error it raises or none -/

/-- Item 2: NotConfigured when VARIANT.VALID = 0. -/
def checkValid (s : State) : Option Raised :=
  if s.regs.variant.valid then none else some ⟨.notConfigured, 0⟩

/-- Item 3, input: the region ends past 2^ADDR_W (20_memory.md R41). -/
def checkInput (s : State) : Option Raised :=
  if s.regs.srcAddr.toNat + s.regs.srcLen.toNat ≤ s.addrTop then none else some ⟨.addressRange, 0⟩

/-- Item 3, output. -/
def checkOutput (s : State) : Option Raised :=
  if s.regs.dstAddr.toNat + s.regs.dstCap.toNat ≤ s.addrTop then none else some ⟨.addressRange, 0⟩

/-- Item 4: the two regions share an address (20_memory.md R42). -/
def checkOverlap (s : State) : Option Raised :=
  if s.input.meets s.output then some ⟨.bufferOverlap, 0⟩ else none

/-- The common checks of a command that uses both regions, in the order of R118. -/
def checkBoth (s : State) : Option Raised :=
  (checkValid s).or ((checkInput s).or ((checkOutput s).or (checkOverlap s)))

/-! ## Values too wide for a register (log 10) -/

/-- A natural number in a 32-bit register: itself where it fits; the spec states no value where it does not, and a free
value stands there. -/
def wordOf (use : DrawUse) (tick n : Nat) : Word :=
  if n < 2 ^ 32 then BitVec.ofNat 32 n else Config.free 32 use tick 0

/-! ## Completion: the block's only trap (60_exceptions.md R116, R117, R119) -/

/-- The number of PALRAM entries PALRES writes for a variant (42_palette_mux.md R80 to R86). For the planar variants it is
2^NPLANES; the cap at 16 entries holds only where a spoiled GEOM left VARIANT and NPLANES inconsistent (log 16). -/
def paletteCount (s : State) : Nat :=
  match s.regs.variant.code with
  | .v1x1 => 2
  | .v2x1 => 4
  | .v1x2 | .v1x3 | .v1x4 => 2 ^ min s.regs.nplanes.toNat 4
  | .v4x1 => 16
  | .v8x1 => 256
  | .v8x3 => 0

/-- VARIANT with CODE and NOTEVEN unspecified (60_exceptions.md R119); CODE stays one of the eight codes (R56; log 15). -/
def freeVariant (tick : Nat) (valid : Bool) : VariantReg where
  code := variantOfCode (Config.free 3 .code tick 0)
  notEven := Config.free 1 .notEven tick 0 == 1#1
  valid := valid

/-- The registers after a command ended with an error (60_exceptions.md R119), RESULT apart: GEOM leaves VALID = 0 and BPL,
CODE and NOTEVEN unspecified; no other command changes a register. -/
def failedRegs (i : Instr) (s : State) : Regs :=
  match i with
  | .geom => { s.regs with bpl := Config.free 16 .bpl s.draws 0, variant := freeVariant s.draws false }
  | .nop | .palres | .rled | .rlee | .rleeb | .pxdec | .pxenc | .palser | .illegal _ => s.regs
  | .rleRun _ _ | .rleEscapedLiteral _ | .rleLiteral _ => s.regs

/-- PALRAM with its first `n` entries written by `f`. -/
def palramWrite (old : Vector PalEntry 256) (n : Nat) (f : Nat → Rgb) : Vector PalEntry 256 :=
  old.mapIdx (fun i e => if i < n then .written (f i) else e)

/-- The pending command was spoiled: its outputs are unspecified when it completes. A busy-time register write
(70_reset_and_hazards.md R131), a write by another agent to its input region (20_memory.md R48), or a region that is a
device's (20_memory.md R43). -/
def spoiled (i : Instr) (s : State) : Bool :=
  s.race.tainted || !s.race.inBytes.isEmpty
    || (usesInput i s && s.touchesDevice s.input) || (usesOutput i && s.touchesDevice s.output)

/-- A spoiled command: "every register its rule writes" is unspecified (70_reset_and_hazards.md R131), within the limits the
fields have (log 15). RESULT and the output region apart, these are GEOM's and PALRES's registers. `s` is the state the
command began in. -/
def spoilRegs (i : Instr) (s t : State) : State :=
  match i with
  | .geom =>
    { t with regs := { t.regs with
        bpl := Config.free 16 .bpl s.draws 0
        variant := freeVariant s.draws (Config.free 1 .valid s.draws 0 == 1#1) } }
  | .palres =>
    { t with
      palram := palramWrite t.palram (paletteCount s) (fun k => Config.free 24 .palEntry s.draws k)
      regs := { t.regs with
        palctl := ⟨clampPalLen (Config.free 9 .palLen s.draws 0), pathOfCode (Config.free 3 .palPath s.draws 0),
          Config.free 1 .probeDup s.draws 0 == 1#1⟩
        cgadesc := if s.regs.variant.code = .v2x1 then cgadescWrite (Config.free 32 .cgaDesc s.draws 0)
          else t.regs.cgadesc } }
  | .nop | .rled | .rlee | .rleeb | .pxdec | .pxenc | .palser | .illegal _ => t
  | .rleRun _ _ | .rleEscapedLiteral _ | .rleLiteral _ => t

/-- The output region (of a command that uses one) and RESULT left unspecified (60_exceptions.md R119,
70_reset_and_hazards.md R131). -/
def loseOutputs (i : Instr) (s t : State) : State :=
  { t with
    mem := if usesOutput i then t.mem.havoc s.regs.dstAddr.toNat s.outRoom s.draws else t.mem
    regs := { t.regs with result := Config.free 32 .result s.draws 0 } }

/-- The bookkeeping of completion (60_exceptions.md R117): PENDING empty (so BUSY = 0), DONE, LASTOP, ERR, ERRCODE, ERRINFO. -/
def finish (i : Instr) (s : State) (outcome : Option Raised) (t : State) : State :=
  { t with
    pending := none
    dec := none
    race := Race.clean
    draws := s.draws + 1
    regs := { t.regs with
      status := statusComplete t.regs.status (opcode i) (outcome.map (·.kind))
      errInfo := match outcome with
        | none => 0#32
        | some e => wordOf .errInfo s.draws e.info } }

/-- A command completes without error: `t` is its effect on `s`. A spoiled command loses its outputs; a raced output byte is
unspecified (20_memory.md R48). -/
def completeOk (i : Instr) (s t : State) : State :=
  finish i s none
    (if spoiled i s then loseOutputs i s (spoilRegs i s t)
     else { t with mem := t.mem.havocEach s.draws s.race.outBytes })

/-- A command completes with the error `e` (60_exceptions.md R116, R117, R119). -/
def completeErr (i : Instr) (s : State) (e : Raised) : State :=
  finish i s (some e)
    (loseOutputs i s
      (if spoiled i s then spoilRegs i s { s with regs := failedRegs i s } else { s with regs := failedRegs i s }))

/-- Completion: the engine's step after `perform` (60_exceptions.md R117). -/
def complete (i : Instr) (s : State) (outcome : Except Raised State) : State :=
  match outcome with
  | .ok t => completeOk i s t
  | .error e => completeErr i s e

/-! ## The acknowledge: what stands in the place of a return (45_control.md R112, R114) -/

/-- A host write of `w` to STATUS. -/
def acknowledge (w : Word) (s : State) : State :=
  { s with regs := { s.regs with status := statusAck s.regs.status w } }

/-! ## Hazards and resets -/

/-- A register write while BUSY = 1: no effect on the register, HZD set, the pending command's outputs unspecified
(70_reset_and_hazards.md R131). A write to a geometry input leaves VALID as it is too: 10_state.md R23 names no condition on
BUSY, and R131 speaks of the register written only (DEDUCED, log 32; unsafe). -/
def hazard (s : State) : State :=
  { s with
    regs := { s.regs with status := { s.regs.status with hzd := true } }
    race := { s.race with tainted := true } }

/-- The memory after the pending command, if there is one, is abandoned: "every byte of its output region holds an
unspecified value" (45_control.md R113). -/
def abandonedMem (s : State) : Memory :=
  match s.pending with
  | some w =>
    if usesOutput (decodeCommand w) then s.mem.havoc s.regs.dstAddr.toNat s.outRoom s.draws else s.mem
  | none => s.mem

/-- A soft reset (45_control.md R113): every register at its reset value, PENDING empty, PALRAM kept. -/
def softReset (s : State) : State :=
  { s with
    regs := Regs.reset
    pending := none
    dec := none
    race := Race.clean
    mem := abandonedMem s
    draws := s.draws + 1 }

/-- A hardware reset (70_reset_and_hazards.md R129): as a soft reset, and every PALRAM entry unspecified. Memory is the
host's and is kept (log 23). -/
def hardReset (s : State) : State :=
  { softReset s with palram := Vector.replicate 256 .unwritten }

end Sys2Proof.Machine
end

