-- ==== Sys2Proof/Machine/Operands.lean ====
section
/-! DEFINITION. The operand forms: bytes of the input region, the header palette region, palette entries, the colour
dictionary, the constant tables, and the addresses and fields of the two pixel layouts (30_encoding.md R61 to R64,
44_plane_transposer.md R95). -/

namespace Sys2Proof.Machine

/-! ## The input region -/

/-- The engine's read of byte `off` of its input region: MemRead(SRC_ADDR + off, 1). A byte that another agent wrote while
BUSY = 1 "may return any value" (20_memory.md R48; one draw a command, log 14), so may a byte of a device (R43, log 17). No
command reads past its input region; where a spoiled GEOM left inconsistent registers, such a read is a free value and no
access (20_memory.md R43, log 16). -/
def srcByte (s : State) (off : Nat) : Byte :=
  let a := s.regs.srcAddr.toNat + off
  if s.regs.srcLen.toNat ≤ off ∨ s.race.inBytes.contains a = true ∨ s.isDevice a = true then
    Config.free 8 .engineRead s.draws off
  else s.mem.read a

/-- The `n` bytes of the input region from offset `base` on. -/
def srcBytes (s : State) (base n : Nat) : List Byte := (List.range n).map (fun j => srcByte s (base + j))

/-! ## Colours -/

/-- Component `j` of a triple: R, G, B for 0, 1, 2 (00_scope.md R9). -/
def channel (c : Rgb) (j : Nat) : Byte :=
  match j with
  | 0 => c.extractLsb' 16 8
  | 1 => c.extractLsb' 8 8
  | _ => c.extractLsb' 0 8

/-- The packed triple `r<<16 | g<<8 | b` (00_scope.md R9). -/
def rgbOf (r g b : Byte) : Rgb := r ++ g ++ b

/-! ## The header palette region (10_state.md R30, 42_palette_mux.md R76) -/

/-- HPALB(k), byte k of the 48: little-endian within its word (10_state.md R30). -/
def hpalByte (r : Regs) (k : Nat) : Byte := ((r.hpal[k / 4]?).getD 0#32).extractLsb' (8 * (k % 4)) 8

/-- E(i), header triple i (42_palette_mux.md R76). -/
def hpalTriple (r : Regs) (i : Nat) : Rgb := rgbOf (hpalByte r (3 * i)) (hpalByte r (3 * i + 1)) (hpalByte r (3 * i + 2))

/-- probe_dup(): two of the four header triples 0 to 3 are equal (42_palette_mux.md R78). -/
def probeDup (r : Regs) : Bool :=
  (List.range 4).any (fun i => (List.range 4).any (fun j => decide (i < j) && hpalTriple r i == hpalTriple r j))

/-! ## The constant tables (10_state.md R15) -/

/-- EGA_PALETTE[i], i in 0..15. -/
def egaEntry (c : Config) (i : Nat) : Rgb := (c.ega[i]?).getD 0#24

/-- CGA_TABLES[sel][j] with sel = 2*PALNUM + INTENS (42_palette_mux.md R81), j in 0..2. -/
def cgaEntry (c : Config) (palNum intens : Bool) (j : Nat) : Rgb :=
  ((c.cga[2 * palNum.toNat + intens.toNat]?).bind (fun row => row[j]?)).getD 0#24

/-! ## PALRAM (10_state.md R31) -/

/-- A read of PALRAM[i]. An entry nothing has written since the hardware reset is a fresh free value at every read (U1, log 6):
`site` tells the reads of one occurrence apart. An index above 255 names no entry and reads as an unwritten one; only a
spoiled GEOM lets one be formed (log 16). -/
def palRead (s : State) (site i : Nat) : Rgb :=
  match (s.palram[i]?).getD .unwritten with
  | .written c => c
  | .unwritten => Config.free 24 .palRead s.draws site

/-- The indices of the active entries equal to `c` (42_palette_mux.md R77, the set S); `site` numbers the lookup. -/
def dictMatches (s : State) (site : Nat) (c : Rgb) : List Nat :=
  (List.range s.regs.palctl.palLen.toNat).filter (fun i => palRead s (512 * site + i) i == c)

/-- dict_lookup(c) (42_palette_mux.md R77): the lowest or the highest index of S, as DICT_DUP_WINNER says, or NONE. -/
def dictLookup (s : State) (site : Nat) (c : Rgb) : Option Nat :=
  match s.cfg.dupWinner with
  | .lowest => (dictMatches s site c).min?
  | .highest => (dictMatches s site c).max?

/-! ## The pixel layouts (44_plane_transposer.md R95) -/

/-- ppb = 8 div BPP, pixels per byte. -/
def pixelsPerByte (r : Regs) : Nat := 8 / r.bpp.toNat

/-- BPP is the width of the variant's samples. R95 takes the width from BPP, R98, R100 and 30_encoding.md R63 from the variant; GEOM
makes them equal, and only a spoiled GEOM leaves them different beside VALID = 1. What depends on the width is then a free value
(`field`, `encByte`, `fitIndex`; DESIGN CHOICE, log 31). So ppb is never 0 where it is used. -/
def layoutAgrees (r : Regs) : Bool := r.bpp.toNat == variantBits r.variant.code

/-- dbaddr(p, y, j): byte j of plane p of row y in a DecodedBitmap (30_encoding.md R61). -/
def dbaddr (r : Regs) (p y j : Nat) : Nat := (y * r.nplanes.toNat + p) * r.bpl.toNat + j

/-- pbaddr(x, y): pixel (x, y) in a PixelBuffer (30_encoding.md R62). -/
def pbaddr (r : Regs) (x y : Nat) : Nat := 4 * (y * r.width.toNat + x)

/-- sh(x): the bit position of pixel x in its byte (30_encoding.md R63). -/
def pixelShift (r : Regs) (x : Nat) : Nat := r.bpp.toNat * (pixelsPerByte r - 1 - x % pixelsPerByte r)

/-- field(p, y, x): the sample of pixel x in plane-line (y, p) (44_plane_transposer.md R95). Where BPP is not the variant's width
it is a free value, 255 bits wide so that neither width bounds it (DESIGN CHOICE, log 31). -/
def field (s : State) (p y x : Nat) : Nat :=
  if layoutAgrees s.regs then
    ((srcByte s (dbaddr s.regs p y (x / pixelsPerByte s.regs))).toNat >>> pixelShift s.regs x)
      &&& (2 ^ s.regs.bpp.toNat - 1)
  else (Config.free 255 .sample s.draws ((p * 2 ^ 16 + y) * 2 ^ 16 + x)).toNat

/-- H * NP * BPL, the size of a DecodedBitmap (30_encoding.md R61). -/
def bitmapSize (r : Regs) : Nat := r.height.toNat * r.nplanes.toNat * r.bpl.toNat

/-- W * H * 4, the size of a PixelBuffer (30_encoding.md R62). -/
def pixelBufferSize (r : Regs) : Nat := r.width.toNat * r.height.toNat * 4

end Sys2Proof.Machine
end

