-- ==== Sys2Proof/Machine/Control.lean ====
section
/-! DEFINITION. NOP (45_control.md R108) and the illegal command (30_encoding.md R55). -/

namespace Sys2Proof.Machine

/-- NOP: RESULT <- 0 and completion (45_control.md R108). -/
def execNop (s : State) : Host.Outcome State Fault Refusal :=
  .next (complete .nop s (.ok { s with regs := { s.regs with result := 0#32 } }))

/-- An illegal command word: IllegalCommand(w), with `w` the whole word (30_encoding.md R55). RESULT is unspecified, as after
every error (60_exceptions.md R119, log 11). -/
def execIllegal (w : Word) (s : State) : Host.Outcome State Fault Refusal :=
  .next (complete (.illegal w) s (.error ⟨.illegalCommand, w.toNat⟩))

end Sys2Proof.Machine
end

