-- ==== Sys2Proof/Machine/Geometry.lean ====
section
/-! DEFINITION. GEOM (43_geometry.md R89 to R94). -/

namespace Sys2Proof.Machine

/-- GEOM's rule (43_geometry.md R94): the error it raises, or the state with BPL, VARIANT and RESULT written. -/
def performGeom (s : State) : Except Raised State :=
  let bpl := bytesPerLine s.regs.width s.regs.bpp
  let d := lineSlack s.regs.bplo bpl
  match varsel s.regs.bpp s.regs.nplanes with
  | none => .error ⟨.unsupportedFormat, s.regs.bpp.toNat ||| s.regs.nplanes.toNat <<< 8⟩
  | some code =>
    if s.regs.width = 0#16 ∨ s.regs.height = 0#16 then .error ⟨.geometryUnsupported, 0⟩
    else if d ≠ 0 ∧ d ≠ 1 then .error ⟨.geometryUnsupported, (d % 2 ^ 32).toNat⟩
    else
      .ok { s with regs := { s.regs with
        bpl := BitVec.ofNat 16 bpl
        variant := ⟨code, d == 1, true⟩
        result := 0#32 } }

/-- GEOM (43_geometry.md R94). -/
def execGeom (s : State) : Host.Outcome State Fault Refusal :=
  .next (complete .geom s (performGeom s))

end Sys2Proof.Machine
end

