-- ==== Sys2Proof/Machine/Palette.lean ====
section
/-! DEFINITION. The palette multiplexer: PALRES (42_palette_mux.md R79 to R86) and PALSER (R87). -/

namespace Sys2Proof.Machine

/-! ## PALRES -/

/-- The effect every successful PALRES ends in: PALRAM[0..n-1], the three fields of PALCTL, RESULT <- 0
(42_palette_mux.md R79). -/
def setPalette (s : State) (n : Nat) (entry : Nat → Rgb) (path : PalPath) (dup : Bool) : State :=
  { s with
    palram := palramWrite s.palram n entry
    regs := { s.regs with palctl := ⟨BitVec.ofNat 9 n, path, dup⟩, result := 0#32 } }

/-- V1x1 (42_palette_mux.md R80): black and white. -/
def palresMono (s : State) : State :=
  setPalette s 2 (fun i => if i = 0 then 0x000000#24 else 0xFFFFFF#24) .fixedMono false

/-- The CGA descriptor of the header palette region (42_palette_mux.md R81): flags of HPALB(3), background field
HPALB(0)[7:4]. -/
def cgaOfHeader (r : Regs) : CgaDesc where
  bg := (hpalByte r 0).extractLsb' 4 4
  palNum := (hpalByte r 3).getLsbD 6
  intens := (hpalByte r 3).getLsbD 5
  burst := !(hpalByte r 3).getLsbD 7

/-- The derived CGA palette (42_palette_mux.md R81): EGA_PALETTE[bg], then row sel of CGA_TABLES. -/
def cgaDerivedEntry (c : Config) (d : CgaDesc) (i : Nat) : Rgb :=
  if i = 0 then egaEntry c d.bg.toNat else cgaEntry c d.palNum d.intens (i - 1)

/-- V2x1 (42_palette_mux.md R81): the CGA composite path. CGADESC is loaded on both branches. -/
def palresCga (s : State) : State :=
  let d := cgaOfHeader s.regs
  let s' := { s with regs := { s.regs with cgadesc := d } }
  if probeDup s.regs then setPalette s' 4 (cgaDerivedEntry s.cfg d) .cgaDerived true
  else setPalette s' 4 (hpalTriple s.regs) .cgaExplicit false

/-- V1x2, V1x3, V1x4 (42_palette_mux.md R82, R83): the first 2^NPLANES entries of EGA_PALETTE or of the header. -/
def palresPlanar (s : State) : State :=
  if s.cfg.noPaletteVersions.contains s.regs.version then
    setPalette s (paletteCount s) (egaEntry s.cfg) .egaDefault false
  else setPalette s (paletteCount s) (hpalTriple s.regs) .explicitHeader false

/-- V4x1 (42_palette_mux.md R84): the header's 16 entries, whatever VERSION holds. -/
def palresNibble (s : State) : State := setPalette s 16 (hpalTriple s.regs) .explicitHeader false

/-- V8x1 (42_palette_mux.md R85): the trailing palette of the file in the input region. -/
def palresTrailer (s : State) : Except Raised State :=
  let len := s.regs.srcLen.toNat
  match checkInput s with
  | some e => .error e
  | none =>
    if len < Config.trailerLen then .error ⟨.paletteSizeMismatch, len⟩
    else
      let m := srcByte s (len - Config.trailerLen)
      if m ≠ Config.palMarker then .error ⟨.paletteMarkerMissing, m.toNat⟩
      else
        let b := len - (Config.trailerLen - 1)
        .ok (setPalette s 256
          (fun i => rgbOf (srcByte s (b + 3 * i)) (srcByte s (b + 3 * i + 1)) (srcByte s (b + 3 * i + 2)))
          .explicitTrailer false)

/-- V8x3 (42_palette_mux.md R86): no palette. -/
def palresNone (s : State) : State := setPalette s 0 (fun _ => 0#24) .none false

/-- PALRES's rule (42_palette_mux.md R79). -/
def performPalres (s : State) : Except Raised State :=
  match checkValid s with
  | some e => .error e
  | none =>
    match s.regs.variant.code with
    | .v1x1 => .ok (palresMono s)
    | .v2x1 => .ok (palresCga s)
    | .v1x2 => .ok (palresPlanar s)
    | .v1x3 => .ok (palresPlanar s)
    | .v1x4 => .ok (palresPlanar s)
    | .v4x1 => .ok (palresNibble s)
    | .v8x1 => palresTrailer s
    | .v8x3 => .ok (palresNone s)

/-- PALRES (42_palette_mux.md R79). -/
def execPalres (s : State) : Host.Outcome State Fault Refusal :=
  .next (complete .palres s (performPalres s))

/-! ## PALSER -/

/-- The size of PALSER's output: 817 bytes for V8x1, 48 otherwise (42_palette_mux.md R87). -/
def palserSize (s : State) : Nat :=
  if s.regs.variant.code = .v8x1 then Config.hpalLen + Config.trailerLen else Config.hpalLen

/-- The CGA flag byte, byte 3 of the derived image (42_palette_mux.md R87): burst inverted at 7, PALNUM at 6, INTENS at 5. -/
def cgaFlagByte (d : CgaDesc) : Byte :=
  (if d.burst then 0#8 else 0x80#8) ||| (if d.palNum then 0x40#8 else 0#8) ||| (if d.intens then 0x20#8 else 0#8)

/-- img[k], byte k of the 48-byte header palette image (42_palette_mux.md R87). -/
def paletteImage (s : State) (k : Nat) : Byte :=
  if s.regs.palctl.path = .cgaDerived then
    if k = 0 then s.regs.cgadesc.bg.setWidth 8 <<< 4
    else if k = 3 then cgaFlagByte s.regs.cgadesc
    else 0#8
  else if s.regs.palctl.palLen.toNat ≤ 16 then
    if k / 3 < s.regs.palctl.palLen.toNat then channel (palRead s k (k / 3)) (k % 3) else 0#8
  else 0#8

/-- Byte k of PALSER's output (42_palette_mux.md R87): the image, and for V8x1 the marker and all 256 entries. -/
def palserByte (s : State) (k : Nat) : Byte :=
  if k < Config.hpalLen then paletteImage s k
  else if k = Config.hpalLen then Config.palMarker
  else channel (palRead s k ((k - 49) / 3)) ((k - 49) % 3)

/-- PALSER's rule (42_palette_mux.md R87). -/
def performPalser (s : State) : Except Raised State :=
  match (checkValid s).or (checkOutput s) with
  | some e => .error e
  | none =>
    if s.regs.dstCap.toNat < palserSize s then .error ⟨.destOverflow, palserSize s⟩
    else
      .ok { s with
        mem := s.mem.fill s.regs.dstAddr.toNat (palserSize s) (palserByte s)
        regs := { s.regs with result := wordOf .result s.draws (palserSize s) } }

/-- PALSER (42_palette_mux.md R87). -/
def execPalser (s : State) : Host.Outcome State Fault Refusal :=
  .next (complete .palser s (performPalser s))

end Sys2Proof.Machine
end

