-- ==== Sys2Proof/Machine/Rle.lean ====
section
/-! DEFINITION. The RLE codec: the encoder (RLEE, RLEEB; 41_rle_codec.md R69, R73, R74), the body tokens (30_encoding.md
R58 to R60) and the decoder RLED (41_rle_codec.md R70), which is a run of tokens over its cursors (10_state.md R35). -/

namespace Sys2Proof.Machine

/-! ## The encoder -/

/-- The token of a run of `n` copies of `v`, 1 <= n <= 63 (30_encoding.md R60): a run, an escaped literal or a literal. -/
def emitRun (v : Byte) (n : Nat) : List Byte :=
  if 2 ≤ n then [0xC0#8 ||| BitVec.ofNat 8 n, v]
  else if isRunMarker v then [0xC1#8, v]
  else [v]

/-- The rest of encode_line (41_rle_codec.md R69) with a run of `n` copies of `v` already scanned: the run grows while the
next byte is equal and n < 63, else its token is emitted and a new run starts. -/
def encodeRuns (v : Byte) (n : Nat) : List Byte → List Byte
  | [] => emitRun v n
  | b :: rest =>
    if n < Config.maxRun ∧ b = v then encodeRuns v (n + 1) rest
    else emitRun v n ++ encodeRuns b 1 rest

/-- encode_line (41_rle_codec.md R69): the tokens of one plane-line. -/
def encodeLine : List Byte → List Byte
  | [] => []
  | v :: rest => encodeRuns v 1 rest

/-- The end of RLEE and RLEEB: the tokens written at the start of the output region, RESULT their number. `emit` raises
DestOverflow(o) at the first byte whose offset o is DST_CAP or more; offsets rise by one, so o = DST_CAP (log 12). -/
def writeTokens (s : State) (tokens : List Byte) : Except Raised State :=
  if s.regs.dstCap.toNat < tokens.length then .error ⟨.destOverflow, s.regs.dstCap.toNat⟩
  else
    .ok { s with
      mem := s.mem.fill s.regs.dstAddr.toNat tokens.length (fun k => tokens.getD k 0#8)
      regs := { s.regs with result := wordOf .result s.draws tokens.length } }

/-- RLEE's rule (41_rle_codec.md R73). -/
def performRlee (s : State) : Except Raised State :=
  match checkBoth s with
  | some e => .error e
  | none =>
    let len := s.regs.bpl.toNat
    if s.regs.srcLen.toNat < len then .error ⟨.inputExhausted, len⟩
    else writeTokens s (encodeLine (srcBytes s 0 len))

/-- RLEE: encode one plane-line (41_rle_codec.md R73). -/
def execRlee (s : State) : Host.Outcome State Fault Refusal :=
  .next (complete .rlee s (performRlee s))

/-- The stored lines of an image, HEIGHT * NPLANES (41_rle_codec.md R70, R74). -/
def storedLines (r : Regs) : Nat := r.height.toNat * r.nplanes.toNat

/-- The tokens of every plane-line, in stored-line order; no run crosses a plane-line (41_rle_codec.md R74). -/
def encodeBitmap (s : State) : List Byte :=
  (List.range (storedLines s.regs)).flatMap
    (fun line => encodeLine (srcBytes s (line * s.regs.bpl.toNat) s.regs.bpl.toNat))

/-- RLEEB's rule (41_rle_codec.md R74). -/
def performRleeb (s : State) : Except Raised State :=
  match checkBoth s with
  | some e => .error e
  | none =>
    let need := storedLines s.regs * s.regs.bpl.toNat
    if s.regs.srcLen.toNat < need then .error ⟨.inputExhausted, need⟩
    else writeTokens s (encodeBitmap s)

/-- RLEEB: encode a whole DecodedBitmap (41_rle_codec.md R74). -/
def execRleeb (s : State) : Host.Outcome State Fault Refusal :=
  .next (complete .rleeb s (performRleeb s))

/-! ## The decoder's copies -/

/-- What the inner loop of RLED reads and never changes (41_rle_codec.md R70): W, P, NL and STRADDLE_POLICY. -/
structure LineGeometry where
  width : Nat
  padded : Bool
  lines : Nat
  policy : StraddlePolicy
deriving DecidableEq, Repr

/-- The line geometry of the registers. -/
def lineGeometry (s : State) : LineGeometry where
  width := s.regs.bplo.toNat
  padded := s.regs.variant.notEven
  lines := storedLines s.regs
  policy := s.cfg.straddle

/-- The inner loop of RLED (41_rle_codec.md R70): `n` copies of `v` from stored-line counter `lc` and line count `ln`. Answers
the bytes written, and the two cursors. The copy at position W - 1 of a padded line is not written; a completed line ends
the run (DROP_REST) or drops one copy (DROP_ONE); nothing is emitted once all lines are complete. -/
def emitCopies (g : LineGeometry) (v : Byte) : Nat → Nat → Nat → List Byte × Nat × Nat
  | 0, lc, ln => ([], lc, ln)
  | n + 1, lc, ln =>
    if ln < g.lines then
      let here := if g.padded && decide (lc + 1 = g.width) then [] else [v]
      if lc + 1 = g.width then
        match g.policy, n with
        | .dropRest, _ => (here, 0, ln + 1)
        | .dropOne, 0 => (here, 0, ln + 1)
        | .dropOne, m + 1 =>
          let rest := emitCopies g v m 0 (ln + 1)
          (here ++ rest.1, rest.2)
      else
        let rest := emitCopies g v n (lc + 1) ln
        (here ++ rest.1, rest.2)
    else ([], lc, ln)

/-- What one token does to the decoder: the bytes it writes and the cursors after it. `len` is the token's length in bytes,
`n` the number of copies of `v` it stands for. -/
def tokenEffect (g : LineGeometry) (len n : Nat) (v : Byte) (c : Cursor) : List Byte × Cursor :=
  let r := emitCopies g v n c.lc c.ln
  (r.1, ⟨c.ip + len, c.o + r.1.length, r.2.1, r.2.2⟩)

/-! ## The body tokens as instructions of the decoder -/

/-- A token's effect on a decode under way: its bytes go to the output region from output offset `o` on (none outside the
region, 20_memory.md R43, log 16), and the cursors move. With no RLED under way there is nothing a token acts on. -/
def runToken (s : State) (len n : Nat) (v : Byte) : Host.Outcome State Fault Refusal :=
  match s.dec with
  | none => .fault .tokenOutsideBody
  | some c =>
    let r := tokenEffect (lineGeometry s) len n v c
    .next { s with
      mem := s.mem.fill (s.regs.dstAddr.toNat + c.o) (min r.1.length (s.outRoom - c.o)) (fun k => r.1.getD k 0#8)
      dec := some r.2 }

/-- RLE_RUN: COUNT copies of VALUE, COUNT 0 among them (30_encoding.md R58, R59). -/
def execRleRun (count : BitVec 6) (value : Byte) (s : State) : Host.Outcome State Fault Refusal :=
  runToken s 2 count.toNat value

/-- RLE_ESCAPED_LITERAL: a run of count 1 (30_encoding.md R60). -/
def execRleEscapedLiteral (value : Byte) (s : State) : Host.Outcome State Fault Refusal :=
  runToken s 2 1 value

/-- RLE_LITERAL: one copy of itself (30_encoding.md R58). -/
def execRleLiteral (value : Byte) (s : State) : Host.Outcome State Fault Refusal :=
  runToken s 1 1 value

/-! ## RLED -/

/-- The token at input offset `ip`, read with srd (41_rle_codec.md R69), or the offset of the byte that is missing. -/
def fetchToken (s : State) (ip : Nat) : Except Nat Instr :=
  let left := s.regs.srcLen.toNat - ip
  match decodeToken (srcBytes s ip (min left 2)) with
  | .ok (i, _) => .ok i
  | .error .noControlByte => .error ip
  | .error .noValueByte => .error (ip + 1)

/-- The effect of the token that fetchToken gave. -/
def decodedEffect (g : LineGeometry) (i : Instr) (c : Cursor) : List Byte × Cursor :=
  match i with
  | .rleRun count value => tokenEffect g 2 count.toNat value c
  | .rleEscapedLiteral value => tokenEffect g 2 1 value c
  | .rleLiteral value => tokenEffect g 1 1 value c
  | .nop | .geom | .palres | .rled | .rlee | .rleeb | .pxdec | .pxenc | .palser | .illegal _ => ([], c)

/-- The outer loop of RLED (41_rle_codec.md R70): the bytes written, or InputExhausted. Each token reads at least one byte, so
SRC_LEN + 1 rounds are enough (70_reset_and_hazards.md R136). -/
def decodeLoop (s : State) (g : LineGeometry) : Nat → Cursor → Except Raised (List Byte)
  | 0, c => if c.ln < g.lines then .error ⟨.inputExhausted, c.ip⟩ else .ok []
  | fuel + 1, c =>
    if c.ln < g.lines then
      match fetchToken s c.ip with
      | .error off => .error ⟨.inputExhausted, off⟩
      | .ok i =>
        let r := decodedEffect g i c
        match decodeLoop s g fuel r.2 with
        | .error e => .error e
        | .ok rest => .ok (r.1 ++ rest)
    else .ok []

/-- The cursors RLED starts with: the body begins at byte 128 of the file (41_rle_codec.md R70). -/
def Cursor.start : Cursor := ⟨Config.hdrLen, 0, 0, 0⟩

/-- RLED's rule (41_rle_codec.md R70). The bytes go to the start of the output region, none outside it (20_memory.md R43; by
R71 there are exactly T of them whenever GEOM set the geometry). -/
def performRled (s : State) : Except Raised State :=
  match checkBoth s with
  | some e => .error e
  | none =>
    let total := storedLines s.regs * s.regs.bpl.toNat
    if s.regs.dstCap.toNat < total then .error ⟨.destOverflow, total⟩
    else
      match decodeLoop s (lineGeometry s) (s.regs.srcLen.toNat + 1) Cursor.start with
      | .error e => .error e
      | .ok out =>
        .ok { s with
          mem := s.mem.fill s.regs.dstAddr.toNat (min out.length s.outRoom) (fun k => out.getD k 0#8)
          regs := { s.regs with result := wordOf .result s.draws out.length } }

/-- RLED: decode the body of a file (41_rle_codec.md R70), one atomic step. -/
def execRled (s : State) : Host.Outcome State Fault Refusal :=
  .next (complete .rled s (performRled s))

/-! ## RLED token by token: the step of a state with cursors (10_state.md R35, log 8) -/

/-- The loop's guard fails: every stored line is produced. -/
def decodeDone (s : State) (c : Cursor) : Bool := !decide (c.ln < storedLines s.regs)

/-- The end of the decode: RESULT <- o, completion. -/
def decodeFinish (s : State) (c : Cursor) : State :=
  complete .rled s (.ok { s with regs := { s.regs with result := wordOf .result s.draws c.o } })

/-- The end of a decode whose input ran out at offset `off`. -/
def decodeExhausted (s : State) (off : Nat) : State := complete .rled s (.error ⟨.inputExhausted, off⟩)

end Sys2Proof.Machine
end

