-- ==== Sys2Proof/Machine/Transposer.lean ====
section
/-! DEFINITION. The bit-plane transposer: PXDEC (44_plane_transposer.md R96 to R102) and PXENC (R103 to R106). -/

namespace Sys2Proof.Machine

/-! ## PXDEC -/

/-- The planar index: bit p of the index is the sample of plane p (44_plane_transposer.md R99). -/
def planarIndex (s : State) (x y : Nat) : Nat :=
  ((List.range s.regs.nplanes.toNat).map (fun p => field s p y x <<< p)).sum

/-- dec_pixel (44_plane_transposer.md R97 to R102) of pixel (x, y). The pixel's number names its read of PALRAM. -/
def decPixel (s : State) (x y : Nat) : Rgb :=
  let site := y * s.regs.width.toNat + x
  match s.regs.variant.code with
  | .v1x1 => if field s 0 y x = 1 then 0xFFFFFF#24 else 0x000000#24
  | .v2x1 => palRead s site (field s 0 y x)
  | .v1x2 => palRead s site (planarIndex s x y)
  | .v1x3 => palRead s site (planarIndex s x y)
  | .v1x4 => palRead s site (planarIndex s x y)
  | .v4x1 => palRead s site (field s 0 y x)
  | .v8x1 => palRead s site (srcByte s (dbaddr s.regs 0 y x)).toNat
  | .v8x3 => rgbOf (srcByte s (dbaddr s.regs 0 y x)) (srcByte s (dbaddr s.regs 1 y x)) (srcByte s (dbaddr s.regs 2 y x))

/-- Byte k of the PixelBuffer (44_plane_transposer.md R96, 30_encoding.md R62): pixel k div 4 in row-major order, its R, G, B
or the alpha 255. -/
def pixelBufferByte (s : State) (k : Nat) : Byte :=
  if k % 4 = 3 then 0xFF#8
  else channel (decPixel s (k / 4 % s.regs.width.toNat) (k / 4 / s.regs.width.toNat)) (k % 4)

/-- PXDEC's rule (44_plane_transposer.md R96). -/
def performPxdec (s : State) : Except Raised State :=
  match checkBoth s with
  | some e => .error e
  | none =>
    if s.regs.srcLen.toNat < bitmapSize s.regs then .error ⟨.inputExhausted, bitmapSize s.regs⟩
    else if s.regs.dstCap.toNat < pixelBufferSize s.regs then .error ⟨.destOverflow, pixelBufferSize s.regs⟩
    else
      .ok { s with
        mem := s.mem.fill s.regs.dstAddr.toNat (pixelBufferSize s.regs) (pixelBufferByte s)
        regs := { s.regs with result := wordOf .result s.draws (pixelBufferSize s.regs) } }

/-- PXDEC: DecodedBitmap to PixelBuffer (44_plane_transposer.md R96). -/
def execPxdec (s : State) : Host.Outcome State Fault Refusal :=
  .next (complete .pxdec s (performPxdec s))

/-! ## PXENC -/

/-- The colour of pixel (x, y) of the PixelBuffer in the input region; alpha is not read (44_plane_transposer.md R103). -/
def srcPixel (s : State) (x y : Nat) : Rgb :=
  let a := pbaddr s.regs x y
  rgbOf (srcByte s a) (srcByte s (a + 1)) (srcByte s (a + 2))

/-- A palette index that fits the variant's index width, 2^(BPP*NP), else NONE (44_plane_transposer.md R105). Where BPP is not the
variant's width and the index fits by one of the two and not by the other, a free value decides (DESIGN CHOICE, log 31). -/
def fitIndex (s : State) (site i : Nat) : Option Nat :=
  let byRegister := decide (i < 2 ^ (s.regs.bpp.toNat * s.regs.nplanes.toNat))
  let byVariant := decide (i < 2 ^ (variantBits s.regs.variant.code * s.regs.nplanes.toNat))
  let fits := if byRegister = byVariant then byRegister else Config.free 1 .fits s.draws site == 1#1
  if fits then some i else none

/-- enc_index (44_plane_transposer.md R104, R105). For V8x3 no index is formed and no colour is refused (R106): the index
given here is not used. -/
def encIndex (s : State) (site : Nat) (c : Rgb) : Option Nat :=
  match s.regs.variant.code with
  | .v1x1 => if c = 0x000000#24 then some 0 else if c = 0xFFFFFF#24 then some 1 else none
  | .v2x1 => (dictLookup s site c).bind (fitIndex s site)
  | .v1x2 => (dictLookup s site c).bind (fitIndex s site)
  | .v1x3 => (dictLookup s site c).bind (fitIndex s site)
  | .v1x4 => (dictLookup s site c).bind (fitIndex s site)
  | .v4x1 => (dictLookup s site c).bind (fitIndex s site)
  | .v8x1 => (dictLookup s site c).bind (fitIndex s site)
  | .v8x3 => some 0

/-- idx[x, y] (44_plane_transposer.md R103); the pixel's number names its lookup. -/
def pixelIndex (s : State) (x y : Nat) : Option Nat :=
  encIndex s (y * s.regs.width.toNat + x) (srcPixel s x y)

/-- The first pixel in row-major order whose colour has no index (44_plane_transposer.md R103, pass 1). -/
def firstUnknownPixel (s : State) : Option Nat :=
  (List.range (s.regs.width.toNat * s.regs.height.toNat)).find?
    (fun k => (pixelIndex s (k % s.regs.width.toNat) (k / s.regs.width.toNat)).isNone)

/-- The sample a pixel contributes to plane p: bit p of its index for the planar variants, the whole index for the others
(44_plane_transposer.md R103, R105). -/
def planeSample (code : Variant) (p idx : Nat) : Nat :=
  match code with
  | .v1x2 => idx >>> p &&& 1
  | .v1x3 => idx >>> p &&& 1
  | .v1x4 => idx >>> p &&& 1
  | .v1x1 => idx
  | .v2x1 => idx
  | .v4x1 => idx
  | .v8x1 => idx
  | .v8x3 => idx

/-- enc_byte for the packed variants (44_plane_transposer.md R103): the samples of the pixels of byte j; fields with no pixel
stay 0. -/
def packedByte (s : State) (p y j : Nat) : Nat :=
  let ppb := pixelsPerByte s.regs
  let lo := j * ppb
  let hi := min ((j + 1) * ppb) s.regs.width.toNat
  (List.range (hi - lo)).foldl
    (fun v t => v ||| planeSample s.regs.variant.code p ((pixelIndex s (lo + t) y).getD 0) <<< pixelShift s.regs (lo + t)) 0

/-- enc_byte (44_plane_transposer.md R103, R106). The byte is a free value where the rules give it none, which only a spoiled GEOM
beside VALID = 1 makes possible: for V8x3 where plane p is no channel of a pixel or there is no pixel (j, y) (DESIGN CHOICE,
log 33); for the packed variants where BPP is not the variant's width (DESIGN CHOICE, log 31). -/
def encByte (s : State) (p y j : Nat) : Byte :=
  match s.regs.variant.code with
  | .v8x3 =>
    if p < 3 ∧ j < s.regs.width.toNat then srcByte s (pbaddr s.regs j y + p)
    else Config.free 8 .packedByte s.draws (dbaddr s.regs p y j)
  | .v1x1 | .v2x1 | .v1x2 | .v1x3 | .v1x4 | .v4x1 | .v8x1 =>
    if layoutAgrees s.regs then BitVec.ofNat 8 (packedByte s p y j)
    else Config.free 8 .packedByte s.draws (dbaddr s.regs p y j)

/-- Byte k of the DecodedBitmap (30_encoding.md R61): byte k mod BPL of stored line k div BPL, whose row is that number div
NPLANES and whose plane is that number mod NPLANES. -/
def bitmapByte (s : State) (k : Nat) : Byte :=
  let line := k / s.regs.bpl.toNat
  encByte s (line % s.regs.nplanes.toNat) (line / s.regs.nplanes.toNat) (k % s.regs.bpl.toNat)

/-- PXENC's rule (44_plane_transposer.md R103). -/
def performPxenc (s : State) : Except Raised State :=
  match checkBoth s with
  | some e => .error e
  | none =>
    if s.regs.srcLen.toNat < pixelBufferSize s.regs then .error ⟨.inputExhausted, pixelBufferSize s.regs⟩
    else if s.regs.dstCap.toNat < bitmapSize s.regs then .error ⟨.destOverflow, bitmapSize s.regs⟩
    else
      match firstUnknownPixel s with
      | some k => .error ⟨.colorNotInPalette, k⟩
      | none =>
        .ok { s with
          mem := s.mem.fill s.regs.dstAddr.toNat (bitmapSize s.regs) (bitmapByte s)
          regs := { s.regs with result := wordOf .result s.draws (bitmapSize s.regs) } }

/-- PXENC: PixelBuffer to DecodedBitmap (44_plane_transposer.md R103). -/
def execPxenc (s : State) : Host.Outcome State Fault Refusal :=
  .next (complete .pxenc s (performPxenc s))

end Sys2Proof.Machine
end

