-- ==== Sys2Proof/Machine/Dispatch.lean ====
section
/-! DEFINITION. One arm per constructor of Instr, each one call of its meaning. -/

namespace Sys2Proof.Machine

def exec (i : Instr) (s : State) : Host.Outcome State Fault Refusal :=
  match i with
  | .nop => Sys2Proof.Machine.execNop s
  | .geom => Sys2Proof.Machine.execGeom s
  | .palres => Sys2Proof.Machine.execPalres s
  | .rled => Sys2Proof.Machine.execRled s
  | .rlee => Sys2Proof.Machine.execRlee s
  | .rleeb => Sys2Proof.Machine.execRleeb s
  | .pxdec => Sys2Proof.Machine.execPxdec s
  | .pxenc => Sys2Proof.Machine.execPxenc s
  | .palser => Sys2Proof.Machine.execPalser s
  | .illegal w => Sys2Proof.Machine.execIllegal w s
  | .rleRun count value => Sys2Proof.Machine.execRleRun count value s
  | .rleEscapedLiteral value => Sys2Proof.Machine.execRleEscapedLiteral value s
  | .rleLiteral value => Sys2Proof.Machine.execRleLiteral value s

end Sys2Proof.Machine
end

