-- ==== Sys2Proof/Machine/RegisterFile.lean ====
section
/-! DEFINITION. The register window as the host sees it: which register an offset names, reads and writes with their side
effects (10_state.md R16 to R31, 45_control.md R109 to R113), and the bus accesses (20_memory.md R39, R48). -/

namespace Sys2Proof.Machine

/-- What a word of the register window is (10_state.md R16). -/
inductive Reg where
  | cmd | status | ctrl | srcAddr | srcLen | dstAddr | dstCap
  | width | height | bpp | nplanes | bplo | version | bpl | variant | result | errInfo | palctl | cgadesc
  | hpal (k : Fin 12)
  | reserved
  | palram (i : Fin 256)
deriving DecidableEq, Repr

/-- The word at index `k`, offset 4k, of the window (10_state.md R16). Index 512 and above lies outside the window. -/
def regOfIndex (k : Nat) : Option Reg :=
  match k with
  | 0 => some .cmd
  | 1 => some .status
  | 2 => some .ctrl
  | 3 => some .srcAddr
  | 4 => some .srcLen
  | 5 => some .dstAddr
  | 6 => some .dstCap
  | 7 => some .width
  | 8 => some .height
  | 9 => some .bpp
  | 10 => some .nplanes
  | 11 => some .bplo
  | 12 => some .version
  | 13 => some .bpl
  | 14 => some .variant
  | 15 => some .result
  | 16 => some .errInfo
  | 17 => some .palctl
  | 18 => some .cgadesc
  | k =>
    if h : 19 ≤ k ∧ k < 31 then some (.hpal ⟨k - 19, by omega⟩)
    else if h : 256 ≤ k ∧ k < 512 then some (.palram ⟨k - 256, by omega⟩)
    else if k < 256 then some .reserved
    else none

/-- The word a bus access at `addr`, `bits` wide, names: only aligned 32-bit words of the window are modelled
(20_memory.md R39, 10_state.md R14). -/
def regOfAccess (c : Config) (addr bits : Nat) : Option Reg :=
  if bits = 32 ∧ c.regBase ≤ addr ∧ (addr - c.regBase) % 4 = 0 then regOfIndex ((addr - c.regBase) / 4) else none

/-- The word a read of a register returns (45_control.md R109). -/
def readReg (s : State) : Reg → Word
  | .cmd => 0#32
  | .status => statusWord s.busy s.regs.status
  | .ctrl => flagBit s.regs.irqEn 0
  | .srcAddr => s.regs.srcAddr
  | .srcLen => s.regs.srcLen
  | .dstAddr => s.regs.dstAddr
  | .dstCap => s.regs.dstCap
  | .width => s.regs.width.setWidth 32
  | .height => s.regs.height.setWidth 32
  | .bpp => s.regs.bpp.setWidth 32
  | .nplanes => s.regs.nplanes.setWidth 32
  | .bplo => s.regs.bplo.setWidth 32
  | .version => s.regs.version.setWidth 32
  | .bpl => s.regs.bpl.setWidth 32
  | .variant => variantWord s.regs.variant
  | .result => s.regs.result
  | .errInfo => s.regs.errInfo
  | .palctl => palctlWord s.regs.palctl
  | .cgadesc => cgadescWord s.regs.cgadesc
  | .hpal k => s.regs.hpal[k]
  | .reserved => 0#32
  | .palram i => (palRead s i.val i.val).setWidth 32

/-- VARIANT with VALID cleared (10_state.md R23). -/
def invalidate (v : VariantReg) : VariantReg := { v with valid := false }

/-- A write of `w` to CMD while PENDING is empty (45_control.md R111, 10_state.md R18). -/
def issueCommand (w : Word) (s : State) : State :=
  { s with
    pending := some w
    race := Race.clean
    regs := { s.regs with status := { s.regs.status with done := false, err := false } } }

/-- A write of `w` to CTRL: IRQ_EN <- w[0], and a soft reset if w[1] = 1 (10_state.md R20, 45_control.md R110, R113). -/
def writeCtrl (w : Word) (s : State) : State :=
  if w.getLsbD 1 then softReset s else { s with regs := { s.regs with irqEn := w.getLsbD 0 } }

/-- A write of `w` to a register while BUSY = 0 (45_control.md R110). RO registers and reserved words ignore it. -/
def writeReg (s : State) (r : Reg) (w : Word) : State :=
  match r with
  | .cmd => issueCommand w s
  | .status => acknowledge w s
  | .ctrl => writeCtrl w s
  | .srcAddr => { s with regs := { s.regs with srcAddr := w } }
  | .srcLen => { s with regs := { s.regs with srcLen := w } }
  | .dstAddr => { s with regs := { s.regs with dstAddr := w } }
  | .dstCap => { s with regs := { s.regs with dstCap := w } }
  | .width => { s with regs := { s.regs with width := w.setWidth 16, variant := invalidate s.regs.variant } }
  | .height => { s with regs := { s.regs with height := w.setWidth 16, variant := invalidate s.regs.variant } }
  | .bpp => { s with regs := { s.regs with bpp := w.setWidth 8, variant := invalidate s.regs.variant } }
  | .nplanes => { s with regs := { s.regs with nplanes := w.setWidth 8, variant := invalidate s.regs.variant } }
  | .bplo => { s with regs := { s.regs with bplo := w.setWidth 16, variant := invalidate s.regs.variant } }
  | .version => { s with regs := { s.regs with version := w.setWidth 8 } }
  | .palctl => { s with regs := { s.regs with palctl := palctlWrite s.regs.palctl w } }
  | .cgadesc => { s with regs := { s.regs with cgadesc := cgadescWrite w } }
  | .hpal k => { s with regs := { s.regs with hpal := s.regs.hpal.set k.val w } }
  | .palram i => { s with palram := s.palram.set i.val (.written (w.setWidth 24)) }
  | .bpl => s
  | .variant => s
  | .result => s
  | .errInfo => s
  | .reserved => s

/-- A host write of `w` to a word of the window. While BUSY = 1, a write to CTRL acts, a write to a reserved word has no effect
(10_state.md R17, log 13), and a write to any other register is the hazard of 70_reset_and_hazards.md R131. -/
def hostWrite (s : State) (r : Reg) (w : Word) : State :=
  if s.busy then
    match r with
    | .ctrl => writeCtrl w s
    | .reserved => s
    | .cmd | .status | .srcAddr | .srcLen | .dstAddr | .dstCap | .width | .height | .bpp | .nplanes | .bplo | .version
    | .bpl | .variant | .result | .errInfo | .palctl | .cgadesc | .hpal _ | .palram _ => hazard s
  else writeReg s r w

/-- A host read of a word of the window: its value goes to the bus, and no register changes (45_control.md R109). The
occurrence number advances, so that two reads of one unwritten PALRAM entry are two draws (U1). -/
def hostRead (s : State) (r : Reg) : State := { s with busData := readReg s r, draws := s.draws + 1 }

/-- A register write at a bus address. -/
def busWrite (addr bits : Nat) (w : Word) (s : State) : Host.Outcome State Fault Refusal :=
  match regOfAccess s.cfg addr bits with
  | some r => .next (hostWrite s r w)
  | none => .refused .badRegisterAccess

/-- A register read at a bus address. -/
def busRead (addr bits : Nat) (s : State) : Host.Outcome State Fault Refusal :=
  match regOfAccess s.cfg addr bits with
  | some r => .next (hostRead s r)
  | none => .refused .badRegisterAccess

/-! ## Memory accesses by the host or another agent (20_memory.md R48) -/

/-- The address is a byte of the pending command's input region. -/
def racesInput (s : State) (a : Nat) : Bool :=
  match s.pending with
  | some w => usesInput (decodeCommand w) s && s.input.holds a
  | none => false

/-- The address is a byte of the pending command's output region. -/
def racesOutput (s : State) (a : Nat) : Bool :=
  match s.pending with
  | some w => usesOutput (decodeCommand w) && s.output.holds a
  | none => false

/-- A list of addresses with one more, without repeats. -/
def addAddress (l : List Nat) (a : Nat) : List Nat := if l.contains a then l else a :: l

/-- A memory access by an agent is possible at `a`: the byte exists and is no device's. -/
def memAccess (s : State) (a : Nat) (t : State) : Host.Outcome State Fault Refusal :=
  if a < s.addrTop then
    if s.isDevice a then .refused .deviceAccess else .next t
  else .fault .noSuchAddress

/-- A write of `v` to memory by the host or another agent. While BUSY = 1 a write to the input or output region is a race
(20_memory.md R48). -/
def memoryWrite (a : Nat) (v : Byte) (s : State) : Host.Outcome State Fault Refusal :=
  memAccess s a
    { s with
      mem := s.mem.write a v
      race := { s.race with
        inBytes := if racesInput s a then addAddress s.race.inBytes a else s.race.inBytes
        outBytes := if racesOutput s a then addAddress s.race.outBytes a else s.race.outBytes } }

/-- A read of memory by the host or another agent. While BUSY = 1 a read of the output region returns an unspecified value and
leaves that byte's final content unspecified (20_memory.md R48). -/
def memoryRead (a : Nat) (s : State) : Host.Outcome State Fault Refusal :=
  memAccess s a
    (if racesOutput s a then
      { s with
        memData := Config.free 8 .hostRead s.draws a
        draws := s.draws + 1
        race := { s.race with outBytes := addAddress s.race.outBytes a } }
    else { s with memData := s.mem.read a })

/-! ## The host notation of 30_encoding.md R68 -/

/-- `WR <REG>, <imm32>` with the register's offset. -/
def asmWr (c : Config) (off : Nat) (w : Word) : HostEvent := .regWrite (c.regBase + off) 32 w

/-- `RD <REG>` with the register's offset. -/
def asmRd (c : Config) (off : Nat) : HostEvent := .regRead (c.regBase + off) 32

/-- `CMD <MNEMONIC>`: a write of the command's word to CMD. -/
def asmCmd (c : Config) (i : Instr) : HostEvent := asmWr c 0x000 (commandWord i)

/-- `ACK`: a write of 0x0000000E to STATUS. -/
def asmAck (c : Config) : HostEvent := asmWr c 0x004 0x0000000E#32

/-- `SETPAL i, r, g, b`: a write of palette entry i. -/
def asmSetpal (c : Config) (i : Nat) (r g b : Byte) : HostEvent :=
  asmWr c (0x400 + 4 * i) ((rgbOf r g b).setWidth 32)

/-- `SETHPAL k, w`: a write of header palette word k. -/
def asmSethpal (c : Config) (k : Nat) (w : Word) : HostEvent := asmWr c (0x04C + 4 * k) w

end Sys2Proof.Machine
end

