-- ==== Sys2Proof/Machine/Step.lean ====
section
/-! DEFINITION. One step of the block and its bus: the next bus event, or the engine's turn. -/

namespace Sys2Proof.Machine

/-- A step of the engine inside a decode that runs token by token (log 8): the end of the decode, or the next token. -/
def tokenStep (s : State) (c : Cursor) : Host.Outcome State Fault Refusal :=
  if decodeDone s c then .next (decodeFinish s c)
  else
    match fetchToken s c.ip with
    | .error off => .next (decodeExhausted s off)
    | .ok i => exec i s

/-- The engine's turn: idle while PENDING is empty (60_exceptions.md R128), else the pending command as one atomic step
(60_exceptions.md R117). -/
def engineStep (s : State) : Host.Outcome State Fault Refusal :=
  match s.pending with
  | none => .next s
  | some w =>
    match s.dec with
    | none => exec (decodeCommand w) s
    | some c => tokenStep s c

/-- WAITDONE (30_encoding.md R68): STATUS is read; when DONE reads 1 the wait is over, else the engine moves and the wait goes
on (log 21). `rest` are the events after it. -/
def waitStep (rest : List HostEvent) (s : State) : Host.Outcome State Fault Refusal :=
  if s.regs.status.done then .next (hostRead { s with host := rest } .status) else engineStep (hostRead s .status)

/-- One event. -/
def hostStep (e : HostEvent) (rest : List HostEvent) (s : State) : Host.Outcome State Fault Refusal :=
  match e with
  | .regWrite addr bits w => busWrite addr bits w { s with host := rest }
  | .regRead addr bits => busRead addr bits { s with host := rest }
  | .waitDone => waitStep rest s
  | .engine => engineStep { s with host := rest }
  | .memWrite a v => memoryWrite a v { s with host := rest }
  | .memRead a => memoryRead a { s with host := rest }
  | .hardReset => .next (hardReset { s with host := rest })

/-- One step of the machine: the next bus event, and the engine's turn when no event is left (log 2). -/
def step (s : State) : Host.Outcome State Fault Refusal :=
  match s.host with
  | [] => engineStep s
  | e :: rest => hostStep e rest s

/-- The state in which the engine's turn is next and the command word `w` is pending, as a write to CMD leaves it. -/
def State.withCommand (s : State) (w : Word) : State := { issueCommand w s with dec := none, host := [] }

/-- The state in which the engine's turn is next, RLED is pending with its cursors at the start of a body, and that body
begins with the bytes `b0`, `b1`. SRC_LEN covers them, there is a line to produce, no window is a device's, and a body too near
the top of memory is moved to address 0 (log 24). -/
def State.withToken (s : State) (b0 b1 : Byte) : State :=
  let base := if s.regs.srcAddr.toNat + 130 ≤ s.addrTop then s.regs.srcAddr else 0#32
  let t := s.withCommand (commandWord .rled)
  { t with
    dec := some Cursor.start
    cfg := { t.cfg with devices := [] }
    mem := (t.mem.write (base.toNat + 128) b0).write (base.toNat + 129) b1
    regs := { t.regs with
      srcAddr := base
      srcLen := if 130 ≤ s.regs.srcLen.toNat then s.regs.srcLen else 130#32
      height := if s.regs.height = 0#16 then 1#16 else s.regs.height
      nplanes := if s.regs.nplanes = 0#8 then 1#8 else s.regs.nplanes } }

/-- `s` with the instruction of the table word `w` where the next step runs it: a command pending, or a token at the start of
the body of a decode under way. The block fetches no instructions (20_memory.md R51); log 24. -/
def State.withFetchWord (s : State) (nbits w : Nat) : State :=
  if nbits ≤ 16 then s.withToken (BitVec.ofNat 8 w) (BitVec.ofNat 8 (w / 256)) else s.withCommand (BitVec.ofNat 32 w)

end Sys2Proof.Machine
end

