-- ==== Sys2Proof/Safety.lean ====
section
/-! DEFINITION. The terms claims use: the invariant of the machine, what a command needs to run, and what its completion
leaves and keeps. -/

namespace Sys2Proof.Machine

/-- The error codes that are ever produced (60_exceptions.md R115, 93_implementation_defined.md S5). -/
def producedCodes : List Byte :=
  [0x00#8, 0x03#8, 0x05#8, 0x06#8, 0x07#8, 0x10#8, 0x11#8, 0x12#8, 0x13#8, 0x14#8, 0x15#8, 0x16#8]

/-- The invariant every step keeps: memory is in its canonical form and lies inside the space (10_state.md R13), PAL_LEN is
at most 256 (10_state.md R28), ERRCODE is a produced code (93_implementation_defined.md S5), DONE and ERR are 0 while a
command is pending (10_state.md R18), nothing of a race is recorded while none is (20_memory.md R48), and cursors stand only
inside a pending RLED (10_state.md R35). -/
structure MachineInv (s : State) : Prop where
  memWf : s.mem.wf
  memBelow : s.mem.below s.addrTop
  palLen : s.regs.palctl.palLen ≤ 256#9
  errCode : s.regs.status.errCode ∈ producedCodes
  busyNotDone : s.pending ≠ none → s.regs.status.done = false ∧ s.regs.status.err = false
  idleNoRace : s.pending = none → s.race = Race.clean
  racedBelow : ∀ a ∈ s.race.outBytes, a < s.addrTop
  cursorInRled : s.dec ≠ none → s.pending = some (commandWord .rled)

/-- Nothing disturbs the pending command: no busy-time write, no race, no device region (the host duties R131, R132, and
20_memory.md R43). -/
structure Undisturbed (i : Instr) (s : State) : Prop where
  notSpoiled : spoiled i s = false
  noRacedOutput : s.race.outBytes = []

/-- What a command that uses both regions needs before its own checks (60_exceptions.md R118 items 2 to 4). -/
structure Ready (s : State) : Prop where
  valid : s.regs.variant.valid = true
  inputInside : s.regs.srcAddr.toNat + s.regs.srcLen.toNat ≤ s.addrTop
  outputInside : s.regs.dstAddr.toNat + s.regs.dstCap.toNat ≤ s.addrTop
  apart : s.regs.srcLen.toNat = 0 ∨ s.regs.dstCap.toNat = 0
    ∨ s.regs.srcAddr.toNat + s.regs.srcLen.toNat ≤ s.regs.dstAddr.toNat
    ∨ s.regs.dstAddr.toNat + s.regs.dstCap.toNat ≤ s.regs.srcAddr.toNat

/-- The derived registers are those a successful GEOM computes from the present geometry (10_state.md R25, 43_geometry.md
R89 to R92). -/
structure FreshGeometry (s : State) : Prop where
  code : varsel s.regs.bpp s.regs.nplanes = some s.regs.variant.code
  width : 1 ≤ s.regs.width.toNat
  height : 1 ≤ s.regs.height.toNat
  bpl : s.regs.bpl.toNat = bytesPerLine s.regs.width s.regs.bpp
  bplo : s.regs.bplo.toNat = s.regs.bpl.toNat + s.regs.variant.notEven.toNat

/-- A pixel of the image. -/
def InImage (s : State) (x y : Nat) : Prop := x < s.regs.width.toNat ∧ y < s.regs.height.toNat

/-- The present contents of byte `off` of the input region, for a region that is plain memory. -/
def inputByte (s : State) (off : Nat) : Byte := s.mem.read (s.regs.srcAddr.toNat + off)

/-- The contents of byte `off` of the output region. -/
def outputByte (s : State) (off : Nat) : Byte := s.mem.read (s.regs.dstAddr.toNat + off)

/-! ## What completion leaves (60_exceptions.md R117) -/

/-- The bookkeeping of a completion without error: STATUS, ERRINFO, PENDING; the model's own fields. -/
structure CompletedOk (i : Instr) (s t : State) : Prop where
  status : t.regs.status = ⟨true, false, s.regs.status.hzd, 0x00#8, opcode i⟩
  errInfo : t.regs.errInfo = 0#32
  pending : t.pending = none
  dec : t.dec = none
  race : t.race = Race.clean
  draws : t.draws = s.draws + 1
  host : t.host = s.host
  busData : t.busData = s.busData
  memData : t.memData = s.memData
  cfg : t.cfg = s.cfg

/-- The bookkeeping of a completion with the error `e`. -/
structure CompletedErr (i : Instr) (s t : State) (e : Raised) : Prop where
  status : t.regs.status = ⟨true, true, s.regs.status.hzd, errCode e.kind, opcode i⟩
  errInfo : e.info < 2 ^ 32 → t.regs.errInfo = BitVec.ofNat 32 e.info
  pending : t.pending = none
  dec : t.dec = none
  race : t.race = Race.clean
  draws : t.draws = s.draws + 1
  host : t.host = s.host
  busData : t.busData = s.busData
  memData : t.memData = s.memData
  cfg : t.cfg = s.cfg

/-! ## What a step keeps -/

/-- The registers only the host writes, and CTRL. -/
structure KeepsInputs (s t : State) : Prop where
  irqEn : t.regs.irqEn = s.regs.irqEn
  srcAddr : t.regs.srcAddr = s.regs.srcAddr
  srcLen : t.regs.srcLen = s.regs.srcLen
  dstAddr : t.regs.dstAddr = s.regs.dstAddr
  dstCap : t.regs.dstCap = s.regs.dstCap
  width : t.regs.width = s.regs.width
  height : t.regs.height = s.regs.height
  bpp : t.regs.bpp = s.regs.bpp
  nplanes : t.regs.nplanes = s.regs.nplanes
  bplo : t.regs.bplo = s.regs.bplo
  version : t.regs.version = s.regs.version
  hpal : t.regs.hpal = s.regs.hpal

/-- The registers GEOM derives. -/
structure KeepsGeometry (s t : State) : Prop where
  bpl : t.regs.bpl = s.regs.bpl
  variant : t.regs.variant = s.regs.variant

/-- The registers PALRES writes. -/
structure KeepsPalette (s t : State) : Prop where
  palram : t.palram = s.palram
  palctl : t.regs.palctl = s.regs.palctl
  cgadesc : t.regs.cgadesc = s.regs.cgadesc

/-- No byte of memory reads otherwise than before. -/
def KeepsMemory (s t : State) : Prop := ∀ a, t.mem.read a = s.mem.read a

/-- No byte outside the `n` bytes from the start of the output region reads otherwise than before. -/
def KeepsMemoryOutside (s t : State) (n : Nat) : Prop :=
  ∀ a, (a < s.regs.dstAddr.toNat ∨ s.regs.dstAddr.toNat + n ≤ a) → t.mem.read a = s.mem.read a

/-- Nothing but the bookkeeping, RESULT and the first `n` bytes of the output region changes. -/
structure KeepsAllButOutput (s t : State) (n : Nat) : Prop where
  inputs : KeepsInputs s t
  geometry : KeepsGeometry s t
  palette : KeepsPalette s t
  memory : KeepsMemoryOutside s t n

/-- What an error leaves (60_exceptions.md R119): every existing byte of the output region of a command that uses one is a free
value, RESULT is one; after GEOM VALID = 0 and BPL, CODE and NOTEVEN are free; nothing else changes. -/
structure LeavesAfterError (i : Instr) (s t : State) : Prop where
  outputFree : usesOutput i = true → ∀ a, s.regs.dstAddr.toNat ≤ a → a < s.regs.dstAddr.toNat + s.regs.dstCap.toNat →
    a < s.addrTop → t.mem.read a = Config.free 8 .memByte s.draws a
  outside : ∀ a, (a < s.regs.dstAddr.toNat ∨ s.regs.dstAddr.toNat + s.regs.dstCap.toNat ≤ a) →
    t.mem.read a = s.mem.read a
  noOutput : usesOutput i = false → KeepsMemory s t
  resultFree : t.regs.result = Config.free 32 .result s.draws 0
  geomFails : i = .geom → t.regs.variant = ⟨variantOfCode (Config.free 3 .code s.draws 0),
    Config.free 1 .notEven s.draws 0 == 1#1, false⟩ ∧ t.regs.bpl = Config.free 16 .bpl s.draws 0
  geometry : i ≠ .geom → KeepsGeometry s t
  palette : KeepsPalette s t
  inputs : KeepsInputs s t

/-- A command ends with the error `e`. -/
def EndsWithError (i : Instr) (s : State) (e : Raised) : Prop :=
  ∃ t, exec i s = .next t ∧ CompletedErr i s t e ∧ LeavesAfterError i s t

/-- The bits of a register that its field table marks "0": they read as 0 and ignore writes (10_state.md R17). -/
def zeroBits : Reg → Word
  | .status => 0xFF0000F0#32
  | .ctrl => 0xFFFFFFFC#32
  | .width | .height | .bplo | .bpl => 0xFFFF0000#32
  | .bpp | .nplanes | .version => 0xFFFFFF00#32
  | .variant => 0x7FFFFEF0#32
  | .palctl => 0xFEF8FE00#32
  | .cgadesc => 0xFFFFFF80#32
  | .palram _ => 0xFF000000#32
  | .cmd | .srcAddr | .srcLen | .dstAddr | .dstCap | .result | .errInfo | .hpal _ => 0x00000000#32
  | .reserved => 0xFFFFFFFF#32

/-- The bits of a register that are in RW fields (10_state.md R16, R20 to R31); CMD and the W1C bits of STATUS apart. -/
def writableBits : Reg → Word
  | .srcAddr | .srcLen | .dstAddr | .dstCap | .hpal _ => 0xFFFFFFFF#32
  | .width | .height | .bplo => 0x0000FFFF#32
  | .bpp | .nplanes | .version => 0x000000FF#32
  | .palctl => 0x000701FF#32
  | .cgadesc => 0x0000007F#32
  | .palram _ => 0x00FFFFFF#32
  | .ctrl => 0x00000001#32
  | .cmd | .status | .bpl | .variant | .result | .errInfo | .reserved => 0x00000000#32

/-- The registers whose writes clear VALID (10_state.md R23). -/
def geometryInputs : List Reg := [.width, .height, .bpp, .nplanes, .bplo]

/-- The source's table of the eight (BPP, NPLANES) pairs (43_geometry.md R89). -/
def variantTable : List (Nat × Nat × Variant) :=
  [(1, 1, .v1x1), (2, 1, .v2x1), (1, 2, .v1x2), (1, 3, .v1x3), (1, 4, .v1x4), (4, 1, .v4x1), (8, 1, .v8x1), (8, 3, .v8x3)]

/-- Every active palette entry has been written. -/
def ActiveWritten (s : State) : Prop :=
  ∀ k (h : k < 256), k < s.regs.palctl.palLen.toNat → ∃ c, s.palram[k] = .written c

/-- `c` is the colour of PALRAM[k]. -/
def HoldsColour (s : State) (k : Nat) (c : Rgb) : Prop := ∃ h : k < 256, s.palram[k] = .written c

/-- `k` is the index that the colour dictionary gives for `c` (42_palette_mux.md R77), all active entries being written. -/
def DictionaryIndex (s : State) (c : Rgb) (k : Nat) : Prop :=
  k < s.regs.palctl.palLen.toNat ∧ HoldsColour s k c ∧
    ∀ j, j < s.regs.palctl.palLen.toNat → HoldsColour s j c →
      match s.cfg.dupWinner with
      | .lowest => k ≤ j
      | .highest => j ≤ k

/-- The colour of pixel (x, y) of the PixelBuffer in the input region. -/
def inputPixel (s : State) (x y : Nat) : Rgb :=
  rgbOf (inputByte s (pbaddr s.regs x y)) (inputByte s (pbaddr s.regs x y + 1)) (inputByte s (pbaddr s.regs x y + 2))

/-- PXDEC has written pixel (x, y) with the colour `c`, alpha 255 (44_plane_transposer.md R96). `s` is the state before. -/
def PixelWritten (s t : State) (x y : Nat) (c : Rgb) : Prop :=
  t.mem.read (s.regs.dstAddr.toNat + pbaddr s.regs x y) = c.extractLsb' 16 8
    ∧ t.mem.read (s.regs.dstAddr.toNat + pbaddr s.regs x y + 1) = c.extractLsb' 8 8
    ∧ t.mem.read (s.regs.dstAddr.toNat + pbaddr s.regs x y + 2) = c.extractLsb' 0 8
    ∧ t.mem.read (s.regs.dstAddr.toNat + pbaddr s.regs x y + 3) = 0xFF#8

/-- What PXDEC needs: its regions, its sizes, a fresh geometry and no disturbance. -/
structure PxdecRuns (s : State) : Prop where
  ready : Ready s
  undisturbed : Undisturbed .pxdec s
  geometry : FreshGeometry s
  input : s.regs.height.toNat * s.regs.nplanes.toNat * s.regs.bpl.toNat ≤ s.regs.srcLen.toNat
  output : s.regs.width.toNat * s.regs.height.toNat * 4 ≤ s.regs.dstCap.toNat

/-- What PXENC needs: its regions, its sizes, a fresh geometry and no disturbance. -/
structure PxencRuns (s : State) : Prop where
  ready : Ready s
  undisturbed : Undisturbed .pxenc s
  geometry : FreshGeometry s
  input : s.regs.width.toNat * s.regs.height.toNat * 4 ≤ s.regs.srcLen.toNat
  output : s.regs.height.toNat * s.regs.nplanes.toNat * s.regs.bpl.toNat ≤ s.regs.dstCap.toNat

/-- PXDEC runs and writes each pixel with the colour `colour x y`; nothing else changes but RESULT and the bookkeeping. -/
def PxdecWrites (s : State) (colour : Nat → Nat → Rgb → Prop) : Prop :=
  ∃ t, exec .pxdec s = .next t ∧ CompletedOk .pxdec s t
    ∧ KeepsAllButOutput s t (s.regs.width.toNat * s.regs.height.toNat * 4)
    ∧ t.regs.result = BitVec.ofNat 32 (s.regs.width.toNat * s.regs.height.toNat * 4)
    ∧ ∀ x y c, InImage s x y → colour x y c → PixelWritten s t x y c

/-- The b-bit sample of pixel position `x` of plane-line (y, p) in the DecodedBitmap at the start of the output region of `s`,
as memory stands in `t` (30_encoding.md R63). -/
def outputSample (s t : State) (p y x : Nat) : Nat :=
  ((t.mem.read (s.regs.dstAddr.toNat + dbaddr s.regs p y (x / pixelsPerByte s.regs))).toNat >>> pixelShift s.regs x)
    % 2 ^ s.regs.bpp.toNat

/-- PXENC runs and writes, for each pixel, the sample of its index: the whole index for a single-plane variant, bit p in plane
p for a planar one; positions with no pixel are 0 (44_plane_transposer.md R103, R105). Nothing else changes but RESULT and
the bookkeeping. -/
def PxencWrites (s : State) (index : Nat → Nat → Nat) : Prop :=
  ∃ t, exec .pxenc s = .next t ∧ CompletedOk .pxenc s t
    ∧ KeepsAllButOutput s t (s.regs.height.toNat * s.regs.nplanes.toNat * s.regs.bpl.toNat)
    ∧ t.regs.result = BitVec.ofNat 32 (s.regs.height.toNat * s.regs.nplanes.toNat * s.regs.bpl.toNat)
    ∧ ∀ p y, p < s.regs.nplanes.toNat → y < s.regs.height.toNat →
        (∀ x, x < s.regs.width.toNat →
          outputSample s t p y x = if s.regs.nplanes = 1#8 then index x y else index x y / 2 ^ p % 2)
        ∧ ∀ x, s.regs.width.toNat ≤ x → x < s.regs.bpl.toNat * pixelsPerByte s.regs → outputSample s t p y x = 0

/-- What RLED needs before it decodes: its regions, room for the DecodedBitmap, a fresh geometry and no disturbance. -/
structure RledRuns (s : State) : Prop where
  ready : Ready s
  undisturbed : Undisturbed .rled s
  geometry : FreshGeometry s
  output : s.regs.height.toNat * s.regs.nplanes.toNat * s.regs.bpl.toNat ≤ s.regs.dstCap.toNat

end Sys2Proof.Machine
end

