-- ==== Sys2Proof/Certificates/Slice0/Obligations.lean ====
section
/-! DEFINITION. The statements for the provers. Each docstring says which text of spec/ it formalises; where a clause rests on
a choice of the model, it names the assumption log entry. -/

open Sys2Proof Sys2Proof.Machine

/-! ## Encodings -/

/-- 30_encoding.md R53 to R55: once bits 31:8 are zero, bits 7:0 select the command; every other word is illegal. -/
def Obligations.CommandWordSelectsItsRow : Prop :=
  ∀ w : Word, decodeCommand w =
    if w.extractLsb' 8 24 = 0#24 then
      match (w.extractLsb' 0 8).toNat with
      | 0x00 => .nop
      | 0x01 => .geom
      | 0x02 => .palres
      | 0x03 => .rled
      | 0x04 => .rlee
      | 0x05 => .rleeb
      | 0x06 => .pxdec
      | 0x07 => .pxenc
      | 0x08 => .palser
      | _ => .illegal w
    else .illegal w

/-- 30_encoding.md sections 1 and 3: decoding the encoding of any well-formed instruction gives it back, whatever bytes
follow a token. -/
def Obligations.DecodeOfEncodeIsTheInstruction : Prop :=
  ∀ (i : Instr), WellFormed i = true →
    decode (encode i) = .ok (i, []) ∧
      ∀ bytes rest, encode i = .token bytes → decodeToken (bytes ++ rest) = .ok (i, rest)

/-- 30_encoding.md sections 1 and 3: whatever is decoded is well-formed, and its encoding is the word or the bytes it was
decoded from. -/
def Obligations.EncodeOfDecodedIsTheSource : Prop :=
  (∀ w : Word, WellFormed (decodeCommand w) = true ∧ encode (decodeCommand w) = .command w) ∧
    ∀ bytes i rest, decodeToken bytes = .ok (i, rest) →
      WellFormed i = true ∧ ∃ head, encode i = .token head ∧ bytes = head ++ rest

/-- Words and bytes written out from the encodings of 30_encoding.md R54, R58 and R60. -/
def Obligations.WrittenOutWordsDecode : Prop :=
  decodeCommand 0x00000000#32 = .nop ∧ decodeCommand 0x00000001#32 = .geom ∧ decodeCommand 0x00000002#32 = .palres
    ∧ decodeCommand 0x00000003#32 = .rled ∧ decodeCommand 0x00000006#32 = .pxdec
    ∧ decodeCommand 0x00000100#32 = .illegal 0x00000100#32
    ∧ decodeToken [0xC3#8, 0x07#8, 0x41#8] = .ok (.rleRun 3#6 0x07#8, [0x41#8])
    ∧ decodeToken [0xC1#8, 0xFF#8] = .ok (.rleEscapedLiteral 0xFF#8, [])
    ∧ decodeToken [0xBF#8, 0x01#8] = .ok (.rleLiteral 0xBF#8, [0x01#8])

/-- 30_encoding.md R58 and R59: a control byte with both top bits set takes the next byte whole and stands for b[5:0] copies of
it, 0 to 63; any other byte is one byte and stands for one copy of itself. -/
def Obligations.TokenStandsForItsCopies : Prop :=
  ∀ (b : Byte) (g : LineGeometry) (c : Cursor),
    (b &&& 0xC0#8 = 0xC0#8 → ∀ (v : Byte) (rest : List Byte), ∃ i, decodeToken (b :: v :: rest) = .ok (i, rest)
        ∧ decodedEffect g i c = tokenEffect g 2 (b &&& 0x3F#8).toNat v c)
    ∧ (b &&& 0xC0#8 ≠ 0xC0#8 → ∀ rest : List Byte, ∃ i, decodeToken (b :: rest) = .ok (i, rest)
        ∧ decodedEffect g i c = tokenEffect g 1 1 b c)

/-! ## The machine: reset, the step, the invariant -/

/-- 10_state.md R36, 70_reset_and_hazards.md R129: after a hardware reset every register but PALRAM reads 0, PENDING is empty,
the interrupt is deasserted and no PALRAM entry has been written, so that each reads as a free value; a soft reset does the same
and keeps PALRAM. Neither changes the constant tables. A hardware reset abandons the pending command as a soft reset does
(45_control.md R113): each existing byte of the output region of a command that uses one is a free value; every other byte of
memory, and all of it when nothing is pending, is kept (logs 4, 23, 26). -/
def Obligations.ResetsLeaveTheResetState : Prop :=
  (∀ s r, (∀ k, r ≠ .palram k) → readReg (hardReset s) r = 0#32 ∧ readReg (softReset s) r = 0#32)
    ∧ (∀ s, (hardReset s).pending = none ∧ (softReset s).pending = none ∧ (hardReset s).irq = false
        ∧ (softReset s).irq = false)
    ∧ (∀ s (k : Nat) (h : k < 256), (hardReset s).palram[k] = .unwritten ∧ (softReset s).palram[k] = s.palram[k])
    ∧ (∀ s (k : Fin 256),
        readReg (hardReset s) (.palram k) = (Config.free 24 .palRead (hardReset s).draws k.val).setWidth 32)
    ∧ (∀ s, (hardReset s).cfg = s.cfg ∧ (softReset s).cfg = s.cfg)
    ∧ (∀ s, s.pending = none → ∀ a, (hardReset s).mem.read a = s.mem.read a)
    ∧ (∀ s c, s.pending = some c → ∀ a, a < s.addrTop → (hardReset s).mem.read a =
        if usesOutput (decodeCommand c) = true ∧ s.regs.dstAddr.toNat ≤ a ∧ a < s.regs.dstAddr.toNat + s.regs.dstCap.toNat
        then Config.free 8 .memByte s.draws a else s.mem.read a)
    ∧ ∀ r, (∀ k, r ≠ .palram k) → readReg State.reset r = 0#32

/-- The state after reset meets the invariant. -/
def Obligations.ResetStateMeetsTheInvariant : Prop := MachineInv State.reset

/-- Every step that goes on keeps the invariant: canonical memory inside the space, PAL_LEN at most 256 (10_state.md R28), only
produced error codes (93_implementation_defined.md S5), no DONE while BUSY (10_state.md R18). -/
def Obligations.EveryStepKeepsTheInvariant : Prop :=
  ∀ s t, MachineInv s → step s = .next t → MachineInv t

/-- 10_state.md R25 and R32: while VALID = 1, CODE, NOTEVEN and BPL are what a successful GEOM computes from the present inputs, and
every step keeps it so, but for a GEOM that a busy-time write spoiled (70_reset_and_hazards.md R131, log 15); VALID is set only
by an engine step that performs GEOM. -/
def Obligations.ValidGeometryStaysFresh : Prop :=
  ∀ s t, MachineInv s → step s = .next t →
    ((s.pending = some 0x00000001#32 → spoiled .geom s = false) →
      (s.regs.variant.valid = true → FreshGeometry s) → t.regs.variant.valid = true → FreshGeometry t)
    ∧ (s.regs.variant.valid = false → t.regs.variant.valid = true → s.pending = some 0x00000001#32)

/-- 60_exceptions.md R117, R128, 30_encoding.md R68 (logs 2, 21): the engine's turn (no bus event left, or an engine event at the
head) is exec of the command that the pending word decodes to, no decode being under way token by token, and idle when none is
pending; any other event at the head is taken off the list and is the register access, the memory access or the hardware reset
it names; WAITDONE reads STATUS, and stays at the head and gives the engine its turn while DONE reads 0. -/
def Obligations.StepRunsThePendingCommand : Prop :=
  (∀ s w, s.pending = some w → s.dec = none →
    (s.host = [] → step s = exec (decodeCommand w) s)
      ∧ ∀ rest, s.host = .engine :: rest → step s = exec (decodeCommand w) { s with host := rest })
  ∧ (∀ s, s.host = [] → s.pending = none → step s = .next s)
  ∧ ∀ s e rest s', s.host = e :: rest → s' = { s with host := rest } →
    (e = .engine → s.pending = none → step s = .next s')
      ∧ (∀ addr bits w, e = .regWrite addr bits w → step s = busWrite addr bits w s')
      ∧ (∀ addr bits, e = .regRead addr bits → step s = busRead addr bits s')
      ∧ (∀ a v, e = .memWrite a v → step s = memoryWrite a v s')
      ∧ (∀ a, e = .memRead a → step s = memoryRead a s')
      ∧ (e = .hardReset → step s = .next (hardReset s'))
      ∧ (e = .waitDone →
        (s.regs.status.done = true → step s = .next (hostRead s' .status))
          ∧ (s.regs.status.done = false →
            (s.pending = none → step s = .next (hostRead s .status))
              ∧ ∀ w, s.pending = some w → s.dec = none → step s = exec (decodeCommand w) (hostRead s .status)))

/-- 10_state.md R35, 41_rle_codec.md R70 (log 8): inside a decode, the step is exec of the token at input offset ip, while a
line is still to be produced and the token's bytes lie in the input region. -/
def Obligations.StepRunsTheBodyToken : Prop :=
  ∀ s c w i rest, s.pending = some w → s.dec = some c → s.host = [] →
    c.ln < s.regs.height.toNat * s.regs.nplanes.toNat →
    decodeToken ((List.range (s.regs.srcLen.toNat - c.ip)).map fun k => srcByte s (c.ip + k)) = .ok (i, rest) →
    step s = exec i s

/-- 10_state.md R15: no step changes a constant table. That the other parameters of 00_scope.md R5 (the policies, ADDR_W, REG_BASE,
NO_PALETTE_VERSIONS) and the device windows never change is the model's choice (logs 1, 17). -/
def Obligations.NoStepChangesTheConfiguration : Prop :=
  ∀ s t, step s = .next t → t.cfg = s.cfg

/-- 10_state.md R32: HZD is cleared only by W1C or a reset. -/
def Obligations.HazardFlagIsSticky : Prop :=
  ∀ s t, step s = .next t → s.regs.status.hzd = true → t.regs.status.hzd = false →
    ∃ e rest, s.host = e :: rest ∧
      (e = .hardReset ∨ ∃ addr bits w, e = .regWrite addr bits w ∧
        ((regOfAccess s.cfg addr bits = some .status ∧ s.busy = false ∧ w.getLsbD 3 = true)
          ∨ (regOfAccess s.cfg addr bits = some .ctrl ∧ w.getLsbD 1 = true)))

/-- 20_memory.md R43, 42_palette_mux.md R79: a PALRAM entry changes only by a host write to it, by a PALRES that the engine
performs, or by a hardware reset. -/
def Obligations.OnlyHostAndPalresWritePalram : Prop :=
  ∀ s t (k : Nat) (h : k < 256), MachineInv s → step s = .next t → t.palram[k] ≠ s.palram[k] →
    s.pending = some 0x00000002#32 ∨ ∃ e rest, s.host = e :: rest ∧
      (e = .hardReset ∨ ∃ addr bits w, e = .regWrite addr bits w
        ∧ regOfAccess s.cfg addr bits = some (.palram ⟨k, h⟩) ∧ s.busy = false)

/-! ## Host accesses -/

/-- 10_state.md R16, R14, 20_memory.md R39: the word at each offset of the register window; an access of another width, at an offset
that is no multiple of 4, or outside the window (log 18) is refused, and nothing else is. -/
def Obligations.RegisterWindowIsWordAddressed : Prop :=
  (∀ c : Config,
    (∀ p ∈ [(0x000, Reg.cmd), (0x004, .status), (0x008, .ctrl), (0x00C, .srcAddr), (0x010, .srcLen), (0x014, .dstAddr),
        (0x018, .dstCap), (0x01C, .width), (0x020, .height), (0x024, .bpp), (0x028, .nplanes), (0x02C, .bplo),
        (0x030, .version), (0x034, .bpl), (0x038, .variant), (0x03C, .result), (0x040, .errInfo), (0x044, .palctl),
        (0x048, .cgadesc)], regOfAccess c (c.regBase + p.1) 32 = some p.2)
    ∧ (∀ k : Fin 12, regOfAccess c (c.regBase + (0x04C + 4 * k.val)) 32 = some (.hpal k))
    ∧ (∀ j, 0x07C ≤ 4 * j → 4 * j ≤ 0x3FC → regOfAccess c (c.regBase + 4 * j) 32 = some .reserved)
    ∧ ∀ i : Fin 256, regOfAccess c (c.regBase + (0x400 + 4 * i.val)) 32 = some (.palram i))
  ∧ ∀ s addr bits,
    (∀ w, busWrite addr bits w s =
      match regOfAccess s.cfg addr bits with
      | some r => .next (hostWrite s r w)
      | none => .refused .badRegisterAccess)
    ∧ (∀ w, busWrite addr bits w s = .refused .badRegisterAccess ↔
        ¬ (bits = 32 ∧ ∃ k, k < 512 ∧ addr = s.cfg.regBase + 4 * k))
    ∧ (busRead addr bits s = .refused .badRegisterAccess ↔
        ¬ (bits = 32 ∧ ∃ k, k < 512 ∧ addr = s.cfg.regBase + 4 * k))

/-- 10_state.md R19, R20, R25, R28, R29: the places of the fields in the words that a read of STATUS, CTRL, VARIANT, PALCTL and
CGADESC returns. -/
def Obligations.RegisterWordsHoldTheirFields : Prop :=
  ∀ s,
    ((readReg s .status).getLsbD 0 = s.busy ∧ (readReg s .status).getLsbD 1 = s.regs.status.done
      ∧ (readReg s .status).getLsbD 2 = s.regs.status.err ∧ (readReg s .status).getLsbD 3 = s.regs.status.hzd
      ∧ (readReg s .status).extractLsb' 8 8 = s.regs.status.errCode
      ∧ (readReg s .status).extractLsb' 16 8 = s.regs.status.lastOp)
    ∧ ((readReg s .ctrl).getLsbD 0 = s.regs.irqEn ∧ (readReg s .ctrl).getLsbD 1 = false)
    ∧ ((readReg s .variant).extractLsb' 0 4 = variantCode s.regs.variant.code
      ∧ (readReg s .variant).getLsbD 8 = s.regs.variant.notEven ∧ (readReg s .variant).getLsbD 31 = s.regs.variant.valid)
    ∧ ((readReg s .palctl).extractLsb' 0 9 = s.regs.palctl.palLen
      ∧ (readReg s .palctl).extractLsb' 16 3 = pathCode s.regs.palctl.path
      ∧ (readReg s .palctl).getLsbD 24 = s.regs.palctl.probeDup)
    ∧ (readReg s .cgadesc).extractLsb' 0 4 = s.regs.cgadesc.bg ∧ (readReg s .cgadesc).getLsbD 4 = s.regs.cgadesc.palNum
      ∧ (readReg s .cgadesc).getLsbD 5 = s.regs.cgadesc.intens ∧ (readReg s .cgadesc).getLsbD 6 = s.regs.cgadesc.burst

/-- 10_state.md R17: a reserved word reads 0 and ignores writes, and so does every bit that a field table marks "0". That a write to
a reserved word is no hazard while BUSY = 1 is the model's reading of that rule (log 13). -/
def Obligations.ReservedBitsReadZeroAndIgnoreWrites : Prop :=
  ∀ s r, readReg s r &&& zeroBits r = 0#32
    ∧ (∀ w, hostWrite s .reserved w = s)
    ∧ ∀ w, hostWrite s r w = hostWrite s r (w &&& ~~~zeroBits r)

/-- 45_control.md R109: a read puts the register's value on the bus and has no side effect on a register, PALRAM, PENDING or
memory, whether BUSY is 0 or 1; CMD reads 0. -/
def Obligations.ReadsHaveNoSideEffect : Prop :=
  ∀ s k r, regOfIndex k = some r → ∃ t, busRead (s.cfg.regBase + 4 * k) 32 s = .next t
    ∧ t.busData = readReg s r ∧ readReg s .cmd = 0#32
    ∧ t.regs = s.regs ∧ t.palram = s.palram ∧ t.pending = s.pending ∧ t.mem = s.mem ∧ t.race = s.race ∧ t.dec = s.dec

/-- 45_control.md R110, 10_state.md R20, R31: a write while BUSY = 0 to a register other than CMD, STATUS, CTRL and PALCTL stores
the word into the register's RW bits and keeps its other bits; no other register of the map changes but VALID, which a write of
a geometry input clears; memory and PENDING stay. A write to CTRL with bit 1 clear sets IRQ_EN to bit 0 and changes nothing else,
while BUSY = 1 too (70_reset_and_hazards.md R131). (CMD, STATUS, PALCTL and a CTRL write with bit 1 set have statements of their
own.) -/
def Obligations.HostWriteChangesOnlyItsRegister : Prop :=
  (∀ s r w, s.busy = false → r ∉ [Reg.cmd, .status, .ctrl] →
    let t := hostWrite s r w
    (r ≠ .palctl → readReg t r = readReg s r &&& ~~~writableBits r ||| w &&& writableBits r)
      ∧ (∀ q, q ≠ r → readReg t q =
          if q = .variant ∧ r ∈ geometryInputs then readReg s q &&& 0x7FFFFFFF#32 else readReg s q)
      ∧ t.pending = s.pending ∧ t.mem = s.mem ∧ t.race = s.race ∧ t.cfg = s.cfg)
  ∧ ∀ s w, w.getLsbD 1 = false →
    hostWrite s .ctrl w = { s with regs := { s.regs with irqEn := w.getLsbD 0 } }

/-- 10_state.md R18, 45_control.md R111: a write to CMD while BUSY = 0 makes the word pending, sets BUSY, clears DONE and ERR, and
changes nothing else a program sees. -/
def Obligations.CmdWriteStartsACommand : Prop :=
  ∀ s w, s.busy = false →
    let t := hostWrite s .cmd w
    t.pending = some w ∧ t.busy = true ∧ t.regs.status.done = false ∧ t.regs.status.err = false
      ∧ t.regs = { s.regs with status := { s.regs.status with done := false, err := false } }
      ∧ t.palram = s.palram ∧ t.mem = s.mem ∧ readReg t .cmd = 0#32

/-- 45_control.md R112: a write to STATUS clears DONE, ERR and HZD where it has a 1, and changes nothing else; the interrupt
deasserts with DONE. -/
def Obligations.AcknowledgeClearsTheWrittenFlags : Prop :=
  ∀ s w, s.busy = false → ∃ st,
    hostWrite s .status w = { s with regs := { s.regs with status := st } }
      ∧ st.done = (s.regs.status.done && !w.getLsbD 1)
      ∧ st.err = (s.regs.status.err && !w.getLsbD 2)
      ∧ st.hzd = (s.regs.status.hzd && !w.getLsbD 3)
      ∧ st.errCode = s.regs.status.errCode ∧ st.lastOp = s.regs.status.lastOp
      ∧ (w.getLsbD 1 = true → (hostWrite s .status w).irq = false)

/-- 10_state.md R23: a write to WIDTH, HEIGHT, BPP, NPLANES or BPLO clears VALID, even with the old value; a write to VERSION
does not. -/
def Obligations.GeometryWriteClearsValid : Prop :=
  (∀ s w r, s.busy = false → r ∈ [Reg.width, .height, .bpp, .nplanes, .bplo] →
      (hostWrite s r w).regs.variant = { s.regs.variant with valid := false })
    ∧ ∀ s w, s.busy = false → (hostWrite s .version w).regs.variant = s.regs.variant

/-- 10_state.md R28: what a write of PALCTL stores; PROBE_DUP ignores writes. -/
def Obligations.PalctlWriteStoresLegalValues : Prop :=
  ∀ s w, s.busy = false →
    let t := hostWrite s .palctl w
    t.regs.palctl.palLen.toNat = min (w.extractLsb' 0 9).toNat 256
      ∧ (readReg t .palctl).extractLsb' 16 3 = (if w.extractLsb' 16 3 = 7#3 then 0#3 else w.extractLsb' 16 3)
      ∧ t.regs.palctl.probeDup = s.regs.palctl.probeDup
      ∧ t.mem = s.mem ∧ t.palram = s.palram ∧ { t.regs with palctl := s.regs.palctl } = s.regs

/-- 10_state.md R30: byte k of the header palette region is byte k mod 4, least significant first, of HPAL(k div 4); a write to
HPALj changes its four bytes and no other. -/
def Obligations.HpalBytesAreLittleEndian : Prop :=
  ∀ s (j : Fin 12) w (k : Nat), s.busy = false → k < 48 →
    hpalByte (hostWrite s (.hpal j) w).regs k =
      if k / 4 = j.val then w.extractLsb' (8 * (k % 4)) 8 else hpalByte s.regs k

/-- 45_control.md R113: a soft reset leaves every byte of an abandoned command's output region unspecified (a free value), every
other byte as it was, and is no hazard. -/
def Obligations.SoftResetAbandonsThePendingCommand : Prop :=
  ∀ s w, w.getLsbD 1 = true →
    let t := hostWrite s .ctrl w
    t.regs = Regs.reset ∧ t.pending = none ∧ t.irq = false ∧ t.palram = s.palram ∧ t.regs.status.hzd = false
      ∧ (s.pending = none → t.mem = s.mem)
      ∧ ∀ c, s.pending = some c → ∀ a, a < s.addrTop → t.mem.read a =
          if usesOutput (decodeCommand c) = true ∧ s.regs.dstAddr.toNat ≤ a
              ∧ a < s.regs.dstAddr.toNat + s.regs.dstCap.toNat
          then Config.free 8 .memByte s.draws a else s.mem.read a

/-- 70_reset_and_hazards.md R131: a write to a register other than CTRL (and other than a reserved word, log 13) while BUSY = 1 sets
HZD and leaves the register, PENDING and memory alone, VALID too where the register is a geometry input (log 32). Such a write, a write by another agent to the input region (20_memory.md
R48), and a device window in a region that the command uses (20_memory.md R43, log 17) spoil the command, and nothing else
does. A spoiled command completes with RESULT, every existing byte of its output region and every register its rule writes
unspecified, within the limits of the fields (logs 15, 16); nothing else changes, and STATUS still reports it. -/
def Obligations.BusyWriteIsAHazard : Prop :=
  (∀ s r w, s.busy = true → r ≠ .ctrl → r ≠ .reserved →
      let t := hostWrite s r w
      t.regs = { s.regs with status := { s.regs.status with hzd := true } } ∧ t.pending = s.pending ∧ t.palram = s.palram
        ∧ t.mem = s.mem ∧ t.race.tainted = true)
    ∧ (∀ i s, spoiled i s = true ↔ s.race.tainted = true ∨ (∃ a, a ∈ s.race.inBytes)
        ∨ (usesInput i s = true ∧ ∃ a, s.input.holds a = true ∧ s.isDevice a = true)
        ∨ (usesOutput i = true ∧ ∃ a, s.output.holds a = true ∧ s.isDevice a = true))
    ∧ ∀ s i, i.isCommand = true → spoiled i s = true → ∃ t, exec i s = .next t
        ∧ t.pending = none ∧ t.regs.status.done = true ∧ t.regs.status.hzd = s.regs.status.hzd
        ∧ t.regs.status.lastOp = opcode i
        ∧ t.regs.result = Config.free 32 .result s.draws 0
        ∧ (∀ a, a < s.addrTop → t.mem.read a =
            if usesOutput i = true ∧ s.regs.dstAddr.toNat ≤ a ∧ a < s.regs.dstAddr.toNat + s.regs.dstCap.toNat
            then Config.free 8 .memByte s.draws a else s.mem.read a)
        ∧ KeepsInputs s t ∧ (i ≠ .geom → KeepsGeometry s t) ∧ (i ≠ .palres → KeepsPalette s t)
        ∧ (i = .geom → t.regs.bpl = Config.free 16 .bpl s.draws 0
          ∧ t.regs.variant = ⟨variantOfCode (Config.free 3 .code s.draws 0), Config.free 1 .notEven s.draws 0 == 1#1,
              Config.free 1 .valid s.draws 0 == 1#1⟩)
        ∧ (i = .palres →
          (∀ k (h : k < 256), t.palram[k] =
            if k < paletteCount s then .written (Config.free 24 .palEntry s.draws k) else s.palram[k])
          ∧ t.regs.palctl = ⟨clampPalLen (Config.free 9 .palLen s.draws 0), pathOfCode (Config.free 3 .palPath s.draws 0),
              Config.free 1 .probeDup s.draws 0 == 1#1⟩
          ∧ t.regs.cgadesc = if s.regs.variant.code = .v2x1 then cgadescWrite (Config.free 32 .cgaDesc s.draws 0)
              else s.regs.cgadesc)

/-- 20_memory.md R43, R47, R48 (logs 4, 5, 14, 19): a memory access of the host or another agent goes on for a byte of the space that
is no device's, and stops by name for any other. At any time a write stores its byte and leaves every other byte and every
register; a read changes no byte and no register, and returns the byte unless it is a race. While a command is pending, a write
to a byte of its input region spoils it, and it then completes with RESULT and its output region unspecified; a read or write of
a byte of its output region leaves that byte unspecified when it completes, and such a read returns an unspecified value. A
command that is not spoiled has, beside its raced output bytes, the effect it would have without them: R48 read as leaving no
other output unspecified (log 14). -/
def Obligations.RacesLeaveValuesUnspecified : Prop :=
  (∀ s a v,
      (a < s.addrTop → s.isDevice a = false → (∃ t, memoryWrite a v s = .next t) ∧ ∃ t, memoryRead a s = .next t)
        ∧ (a < s.addrTop → s.isDevice a = true →
          memoryWrite a v s = .refused .deviceAccess ∧ memoryRead a s = .refused .deviceAccess)
        ∧ (s.addrTop ≤ a → memoryWrite a v s = .fault .noSuchAddress ∧ memoryRead a s = .fault .noSuchAddress))
    ∧ (∀ s a v t, memoryWrite a v s = .next t →
      t.mem.read a = v ∧ (∀ b, b ≠ a → t.mem.read b = s.mem.read b)
        ∧ t.regs = s.regs ∧ t.palram = s.palram ∧ t.pending = s.pending ∧ t.dec = s.dec
        ∧ ((∀ w, s.pending = some w → ¬(usesInput (decodeCommand w) s = true ∧ s.input.holds a = true)
            ∧ ¬(usesOutput (decodeCommand w) = true ∧ s.output.holds a = true)) → t.race = s.race)
        ∧ ∀ w, s.pending = some w →
          (usesInput (decodeCommand w) s = true → s.input.holds a = true → spoiled (decodeCommand w) t = true
            ∧ ∀ u, exec (decodeCommand w) t = .next u → u.regs.result = Config.free 32 .result t.draws 0
              ∧ ∀ b, usesOutput (decodeCommand w) = true → s.output.holds b = true → b < s.addrTop →
                u.mem.read b = Config.free 8 .memByte t.draws b)
          ∧ (usesOutput (decodeCommand w) = true → s.output.holds a = true → a ∈ t.race.outBytes))
    ∧ (∀ s a t, memoryRead a s = .next t →
      t.mem = s.mem ∧ t.regs = s.regs ∧ t.palram = s.palram ∧ t.pending = s.pending ∧ t.dec = s.dec
        ∧ ((∀ w, s.pending = some w → ¬(usesOutput (decodeCommand w) = true ∧ s.output.holds a = true)) →
          t.memData = s.mem.read a ∧ t.race = s.race)
        ∧ ∀ w, s.pending = some w → usesOutput (decodeCommand w) = true → s.output.holds a = true →
          a ∈ t.race.outBytes ∧ t.memData = Config.free 8 .hostRead s.draws a)
    ∧ (∀ s i t a, i.isCommand = true → usesOutput i = true → s.output.holds a = true → a < s.addrTop →
        a ∈ s.race.outBytes → exec i s = .next t → t.mem.read a = Config.free 8 .memByte s.draws a)
    ∧ ∀ s i, i.isCommand = true → spoiled i s = false →
        ∃ t u, exec i s = .next t ∧ exec i { s with race := { s.race with outBytes := [] } } = .next u
          ∧ t.regs = u.regs ∧ t.palram = u.palram ∧ t.pending = u.pending
          ∧ ∀ a, a ∉ s.race.outBytes → t.mem.read a = u.mem.read a

/-- 60_exceptions.md R121: the interrupt output is IRQ_EN AND DONE; when it asserts and deasserts. -/
def Obligations.InterruptFollowsCompletionAndAcknowledge : Prop :=
  (∀ s, s.irq = ((readReg s .ctrl).getLsbD 0 && (readReg s .status).getLsbD 1))
    ∧ (∀ s i t, i.isCommand = true → exec i s = .next t → t.irq = s.regs.irqEn)
    ∧ (∀ s w, w.getLsbD 1 = false → (hostWrite s .ctrl w).irq = (w.getLsbD 0 && s.regs.status.done))
    ∧ (∀ s w, s.busy = false → w.getLsbD 1 = true → (hostWrite s .status w).irq = false)
    ∧ (∀ s w, s.busy = false → (hostWrite s .cmd w).irq = false)
    ∧ ∀ s, (hardReset s).irq = false ∧ (softReset s).irq = false

/-! ## Completion and errors -/

/-- 60_exceptions.md R117: every command completes; PENDING and BUSY, DONE, LASTOP, ERR, ERRCODE and ERRINFO after it. -/
def Obligations.EveryCommandCompletes : Prop :=
  ∀ s i, i.isCommand = true → ∃ t, exec i s = .next t
    ∧ t.pending = none ∧ t.busy = false ∧ t.regs.status.done = true ∧ t.regs.status.hzd = s.regs.status.hzd
    ∧ t.regs.status.lastOp = (commandWord i).extractLsb' 0 8
    ∧ (t.regs.status.err = false → t.regs.status.errCode = 0x00#8 ∧ t.regs.errInfo = 0#32)
    ∧ (t.regs.status.err = true → t.regs.status.errCode ∈ producedCodes ∧ t.regs.status.errCode ≠ 0x00#8)

/-- 60_exceptions.md R119: what every command that ends with an error leaves. -/
def Obligations.ErrorLeavesTheRestUnchanged : Prop :=
  ∀ s i t, i.isCommand = true → Undisturbed i s → exec i s = .next t → t.regs.status.err = true →
    LeavesAfterError i s t ∧ t.regs.status.hzd = s.regs.status.hzd

/-- 20_memory.md R43: no step of the engine on a command changes a byte outside the command's output region, whatever disturbs
it, and a command that uses no output region changes no byte. -/
def Obligations.EngineWritesOnlyItsOutputRegion : Prop :=
  ∀ s i t, i.isCommand = true → exec i s = .next t →
    (∀ a, (a < s.regs.dstAddr.toNat ∨ s.regs.dstAddr.toNat + s.regs.dstCap.toNat ≤ a) → a ∉ s.race.outBytes →
        t.mem.read a = s.mem.read a)
      ∧ (usesOutput i = false → s.race.outBytes = [] → ∀ a, t.mem.read a = s.mem.read a)

/-- 60_exceptions.md R115, R118 item 2: with VALID = 0 every command but NOP and GEOM fails with NotConfigured(0), before any other
check; and no command but GEOM sets VALID. -/
def Obligations.UnconfiguredCommandsRaiseNotConfigured : Prop :=
  (∀ s i, i ∈ [Instr.palres, .rled, .rlee, .rleeb, .pxdec, .pxenc, .palser] → s.regs.variant.valid = false →
      Undisturbed i s → EndsWithError i s ⟨.notConfigured, 0⟩)
    ∧ ∀ s i t, i ≠ .geom → exec i s = .next t → t.regs.variant.valid = s.regs.variant.valid

/-- 20_memory.md R41, R42: a region that a command uses and that ends past 2^ADDR_W raises AddressRange(0); two non-empty regions
that share an address raise BufferOverlap(0) in every command that uses both. -/
def Obligations.RegionChecksRaiseTheirErrors : Prop :=
  (∀ s i, Undisturbed i s → s.regs.variant.valid = true →
      (usesInput i s = true ∧ s.addrTop < s.regs.srcAddr.toNat + s.regs.srcLen.toNat)
        ∨ (usesOutput i = true ∧ s.addrTop < s.regs.dstAddr.toNat + s.regs.dstCap.toNat) →
      EndsWithError i s ⟨.addressRange, 0⟩)
    ∧ ∀ s i a, Undisturbed i s → usesInput i s = true → usesOutput i = true → s.regs.variant.valid = true →
      s.regs.srcAddr.toNat + s.regs.srcLen.toNat ≤ s.addrTop → s.regs.dstAddr.toNat + s.regs.dstCap.toNat ≤ s.addrTop →
      s.input.holds a = true → s.output.holds a = true →
      EndsWithError i s ⟨.bufferOverlap, 0⟩

/-- 41_rle_codec.md R70, R73, R74, 44_plane_transposer.md R96, R103, 42_palette_mux.md R87: the size checks of the data commands
and the sizes they report (a size that ERRINFO cannot hold leaves ERRINFO free, log 10). -/
def Obligations.SizeChecksRaiseTheirErrors : Prop :=
  ∀ s bitmap buffer, bitmap = s.regs.height.toNat * s.regs.nplanes.toNat * s.regs.bpl.toNat →
    buffer = s.regs.width.toNat * s.regs.height.toNat * 4 →
    (Ready s →
      (Undisturbed .rled s → s.regs.dstCap.toNat < bitmap → EndsWithError .rled s ⟨.destOverflow, bitmap⟩)
      ∧ (Undisturbed .rlee s → s.regs.srcLen.toNat < s.regs.bpl.toNat →
          EndsWithError .rlee s ⟨.inputExhausted, s.regs.bpl.toNat⟩)
      ∧ (Undisturbed .rleeb s → s.regs.srcLen.toNat < bitmap → EndsWithError .rleeb s ⟨.inputExhausted, bitmap⟩)
      ∧ (Undisturbed .pxdec s →
          (s.regs.srcLen.toNat < bitmap → EndsWithError .pxdec s ⟨.inputExhausted, bitmap⟩)
          ∧ (bitmap ≤ s.regs.srcLen.toNat → s.regs.dstCap.toNat < buffer → EndsWithError .pxdec s ⟨.destOverflow, buffer⟩))
      ∧ (Undisturbed .pxenc s →
          (s.regs.srcLen.toNat < buffer → EndsWithError .pxenc s ⟨.inputExhausted, buffer⟩)
          ∧ (buffer ≤ s.regs.srcLen.toNat → s.regs.dstCap.toNat < bitmap → EndsWithError .pxenc s ⟨.destOverflow, bitmap⟩)))
    ∧ (∀ n, n = (if s.regs.variant.code = .v8x1 then 817 else 48) → s.regs.variant.valid = true →
        s.regs.dstAddr.toNat + s.regs.dstCap.toNat ≤ s.addrTop → Undisturbed .palser s → s.regs.dstCap.toNat < n →
        EndsWithError .palser s ⟨.destOverflow, n⟩)

/-- 45_control.md R108: NOP completes with RESULT 0 and no other effect. -/
def Obligations.NopOnlyCompletes : Prop :=
  ∀ s, Undisturbed .nop s → ∃ t, exec .nop s = .next t ∧ CompletedOk .nop s t ∧ t.regs.status.lastOp = 0x00#8
    ∧ t.regs.result = 0#32 ∧ KeepsInputs s t ∧ KeepsGeometry s t ∧ KeepsPalette s t ∧ KeepsMemory s t

/-- 30_encoding.md R55: an illegal command word completes with IllegalCommand(w), w the whole word, and changes no state but the
completion state. RESULT is unspecified, as R119 says of every error (log 11). -/
def Obligations.IllegalCommandReportsItsWord : Prop :=
  ∀ s w, legalCommand w = false → Undisturbed (.illegal w) s →
    ∃ t, exec (decodeCommand w) s = .next t ∧ CompletedErr (.illegal w) s t ⟨.illegalCommand, w.toNat⟩
      ∧ t.regs.status.errCode = 0x10#8 ∧ t.regs.status.lastOp = w.extractLsb' 0 8 ∧ t.regs.errInfo = w
      ∧ KeepsInputs s t ∧ KeepsGeometry s t ∧ KeepsPalette s t ∧ KeepsMemory s t

/-! ## Geometry -/

/-- 43_geometry.md R89, R90, R91, R94: GEOM on a supported geometry sets BPL to ceil(WIDTH * BPP / 8), the variant's code, NOTEVEN
iff BPLO - BPL = 1, VALID and RESULT, and nothing else. -/
def Obligations.GeomDerivesTheGeometry : Prop :=
  ∀ s v n (d : Bool), Undisturbed .geom s → (s.regs.bpp.toNat, s.regs.nplanes.toNat, v) ∈ variantTable →
    1 ≤ s.regs.width.toNat → 1 ≤ s.regs.height.toNat →
    8 * n < s.regs.width.toNat * s.regs.bpp.toNat + 8 → s.regs.width.toNat * s.regs.bpp.toNat ≤ 8 * n →
    s.regs.bplo.toNat = n + d.toNat →
    ∃ t, exec .geom s = .next t ∧ CompletedOk .geom s t ∧ t.regs.bpl.toNat = n ∧ t.regs.variant = ⟨v, d, true⟩
      ∧ t.regs.result = 0#32 ∧ KeepsInputs s t ∧ KeepsPalette s t ∧ KeepsMemory s t

/-- 43_geometry.md R89, R92, R94: the geometries that GEOM refuses, and what it reports, UnsupportedFormat first. -/
def Obligations.GeomRefusesOtherGeometries : Prop :=
  ∀ s, Undisturbed .geom s →
    ((∀ v, (s.regs.bpp.toNat, s.regs.nplanes.toNat, v) ∉ variantTable) →
        EndsWithError .geom s ⟨.unsupportedFormat, s.regs.bpp.toNat + 256 * s.regs.nplanes.toNat⟩)
    ∧ ∀ v, (s.regs.bpp.toNat, s.regs.nplanes.toNat, v) ∈ variantTable →
        (s.regs.width.toNat = 0 ∨ s.regs.height.toNat = 0 → EndsWithError .geom s ⟨.geometryUnsupported, 0⟩)
        ∧ (s.regs.width.toNat ≠ 0 → s.regs.height.toNat ≠ 0 →
            ∀ d : Int, d = (s.regs.bplo.toNat : Int) - ((s.regs.width.toNat * s.regs.bpp.toNat + 7) / 8 : Nat) →
              d ≠ 0 → d ≠ 1 → ∃ t, exec .geom s = .next t
                ∧ CompletedErr .geom s t ⟨.geometryUnsupported, (d % 2 ^ 32).toNat⟩
                ∧ t.regs.errInfo = BitVec.ofInt 32 d ∧ LeavesAfterError .geom s t)

/-! ## The palette multiplexer -/

/-- 42_palette_mux.md R80, R86: PALRES on V1x1 writes black and white, on V8x3 it writes no entry. -/
def Obligations.PalresMonochromeAndTrueColour : Prop :=
  ∀ s, Undisturbed .palres s → s.regs.variant.valid = true →
    (s.regs.variant.code = .v1x1 →
      ∃ t, exec .palres s = .next t ∧ CompletedOk .palres s t ∧ KeepsInputs s t ∧ KeepsGeometry s t ∧ KeepsMemory s t
        ∧ t.palram[0] = .written 0x000000#24 ∧ t.palram[1] = .written 0xFFFFFF#24
        ∧ (∀ k (h : k < 256), 2 ≤ k → t.palram[k] = s.palram[k])
        ∧ t.regs.palctl = ⟨2#9, .fixedMono, false⟩ ∧ t.regs.cgadesc = s.regs.cgadesc ∧ t.regs.result = 0#32)
    ∧ (s.regs.variant.code = .v8x3 →
      ∃ t, exec .palres s = .next t ∧ CompletedOk .palres s t ∧ KeepsInputs s t ∧ KeepsGeometry s t ∧ KeepsMemory s t
        ∧ (∀ k (h : k < 256), t.palram[k] = s.palram[k])
        ∧ t.regs.palctl = ⟨0#9, .none, false⟩ ∧ t.regs.cgadesc = s.regs.cgadesc ∧ t.regs.result = 0#32)

/-- 42_palette_mux.md R78, R81: PALRES on V2x1: the duplicate probe, the descriptor from the header, the explicit palette when
the four triples differ, else the derived one. The place of the background field is from general knowledge (log 30). -/
def Obligations.PalresCgaComposite : Prop :=
  ∀ s (e : Nat → Rgb), Undisturbed .palres s → s.regs.variant.valid = true → s.regs.variant.code = .v2x1 →
    (∀ i, e i = hpalByte s.regs (3 * i) ++ hpalByte s.regs (3 * i + 1) ++ hpalByte s.regs (3 * i + 2)) →
    ∃ t, exec .palres s = .next t ∧ CompletedOk .palres s t ∧ KeepsInputs s t ∧ KeepsGeometry s t ∧ KeepsMemory s t
      ∧ (t.regs.palctl.probeDup = true ↔ ∃ i j, i < j ∧ j ≤ 3 ∧ e i = e j)
      ∧ t.regs.cgadesc = ⟨(hpalByte s.regs 0).extractLsb' 4 4, (hpalByte s.regs 3).getLsbD 6,
          (hpalByte s.regs 3).getLsbD 5, !(hpalByte s.regs 3).getLsbD 7⟩
      ∧ t.regs.palctl.palLen = 4#9 ∧ t.regs.result = 0#32
      ∧ (t.regs.palctl.probeDup = false → t.regs.palctl.path = .cgaExplicit
          ∧ ∀ k (h : k < 256), k < 4 → t.palram[k] = .written (e k))
      ∧ (t.regs.palctl.probeDup = true → t.regs.palctl.path = .cgaDerived
          ∧ (∀ bg (h : bg < 16), bg = t.regs.cgadesc.bg.toNat → t.palram[0] = .written s.cfg.ega[bg])
          ∧ ∀ sel j (h : sel < 4) (hj : j < 3), sel = 2 * t.regs.cgadesc.palNum.toNat + t.regs.cgadesc.intens.toNat →
              t.palram[1 + j] = .written s.cfg.cga[sel][j])
      ∧ ∀ k (h : k < 256), 4 ≤ k → t.palram[k] = s.palram[k]

/-- 42_palette_mux.md R82, R83: PALRES on the planar variants: 2^NPLANES entries of EGA_PALETTE when VERSION is in
NO_PALETTE_VERSIONS, else of the header. -/
def Obligations.PalresPlanarVariants : Prop :=
  ∀ s, Undisturbed .palres s → s.regs.variant.valid = true →
    (s.regs.nplanes.toNat, s.regs.variant.code) ∈ [(2, Variant.v1x2), (3, .v1x3), (4, .v1x4)] →
    ∃ t, exec .palres s = .next t ∧ CompletedOk .palres s t ∧ KeepsInputs s t ∧ KeepsGeometry s t ∧ KeepsMemory s t
      ∧ t.regs.palctl.palLen.toNat = 2 ^ s.regs.nplanes.toNat ∧ t.regs.palctl.probeDup = false
      ∧ t.regs.cgadesc = s.regs.cgadesc ∧ t.regs.result = 0#32
      ∧ (s.regs.version ∈ s.cfg.noPaletteVersions → t.regs.palctl.path = .egaDefault
          ∧ ∀ k (h : k < 16), k < 2 ^ s.regs.nplanes.toNat → t.palram[k] = .written s.cfg.ega[k])
      ∧ (s.regs.version ∉ s.cfg.noPaletteVersions → t.regs.palctl.path = .explicitHeader
          ∧ ∀ k (h : k < 256), k < 2 ^ s.regs.nplanes.toNat → t.palram[k] = .written
              (hpalByte s.regs (3 * k) ++ hpalByte s.regs (3 * k + 1) ++ hpalByte s.regs (3 * k + 2)))
      ∧ ∀ k (h : k < 256), 2 ^ s.regs.nplanes.toNat ≤ k → t.palram[k] = s.palram[k]

/-- 42_palette_mux.md R84: PALRES on V4x1, whatever VERSION holds. -/
def Obligations.PalresNibblePacked : Prop :=
  ∀ s, Undisturbed .palres s → s.regs.variant.valid = true → s.regs.variant.code = .v4x1 →
    ∃ t, exec .palres s = .next t ∧ CompletedOk .palres s t ∧ KeepsInputs s t ∧ KeepsGeometry s t ∧ KeepsMemory s t
      ∧ (∀ k (h : k < 256), k < 16 → t.palram[k] = .written
          (hpalByte s.regs (3 * k) ++ hpalByte s.regs (3 * k + 1) ++ hpalByte s.regs (3 * k + 2)))
      ∧ (∀ k (h : k < 256), 16 ≤ k → t.palram[k] = s.palram[k])
      ∧ t.regs.palctl = ⟨16#9, .explicitHeader, false⟩ ∧ t.regs.cgadesc = s.regs.cgadesc ∧ t.regs.result = 0#32

/-- 42_palette_mux.md R85: PALRES on V8x1: the 256 triples of the last 768 bytes of the file when the file can hold the trailer and
its marker is 0x0C; else AddressRange(0), PaletteSizeMismatch(SRC_LEN) or PaletteMarkerMissing(m), in this order. -/
def Obligations.PalresReadsTheTrailer : Prop :=
  ∀ s, Undisturbed .palres s → s.regs.variant.valid = true → s.regs.variant.code = .v8x1 →
    (s.addrTop < s.regs.srcAddr.toNat + s.regs.srcLen.toNat → EndsWithError .palres s ⟨.addressRange, 0⟩)
    ∧ (s.regs.srcAddr.toNat + s.regs.srcLen.toNat ≤ s.addrTop → s.regs.srcLen.toNat < 769 →
        EndsWithError .palres s ⟨.paletteSizeMismatch, s.regs.srcLen.toNat⟩)
    ∧ (s.regs.srcAddr.toNat + s.regs.srcLen.toNat ≤ s.addrTop → 769 ≤ s.regs.srcLen.toNat →
        (inputByte s (s.regs.srcLen.toNat - 769) ≠ 0x0C#8 →
          EndsWithError .palres s ⟨.paletteMarkerMissing, (inputByte s (s.regs.srcLen.toNat - 769)).toNat⟩)
        ∧ (inputByte s (s.regs.srcLen.toNat - 769) = 0x0C#8 →
          ∃ t, exec .palres s = .next t ∧ CompletedOk .palres s t ∧ KeepsInputs s t ∧ KeepsGeometry s t ∧ KeepsMemory s t
            ∧ (∀ k (h : k < 256), t.palram[k] = .written
                (inputByte s (s.regs.srcLen.toNat - 768 + 3 * k) ++ inputByte s (s.regs.srcLen.toNat - 768 + 3 * k + 1)
                  ++ inputByte s (s.regs.srcLen.toNat - 768 + 3 * k + 2)))
            ∧ t.regs.palctl = ⟨256#9, .explicitTrailer, false⟩ ∧ t.regs.cgadesc = s.regs.cgadesc
            ∧ t.regs.result = 0#32))

/-- 42_palette_mux.md R87: the 48-byte image of PALSER (derived form, literal triples, or all zero), and for V8x1 the marker and
the 256 entries after it. Entries that nothing has written are free values and nothing is said of their bytes. The place of the
background field is from general knowledge (log 30). -/
def Obligations.PalserWritesTheImage : Prop :=
  ∀ s n, Undisturbed .palser s → s.regs.variant.valid = true →
    n = (if s.regs.variant.code = .v8x1 then 817 else 48) → n ≤ s.regs.dstCap.toNat →
    s.regs.dstAddr.toNat + s.regs.dstCap.toNat ≤ s.addrTop →
    ∃ t, exec .palser s = .next t ∧ CompletedOk .palser s t ∧ KeepsAllButOutput s t n
      ∧ t.regs.result = BitVec.ofNat 32 n
      ∧ (s.regs.palctl.path = .cgaDerived →
          outputByte t 0 = s.regs.cgadesc.bg.setWidth 8 <<< 4
          ∧ (outputByte t 3).getLsbD 7 = !s.regs.cgadesc.burst ∧ (outputByte t 3).getLsbD 6 = s.regs.cgadesc.palNum
          ∧ (outputByte t 3).getLsbD 5 = s.regs.cgadesc.intens ∧ (outputByte t 3).extractLsb' 0 5 = 0#5
          ∧ ∀ k, k < 48 → k ≠ 0 → k ≠ 3 → outputByte t k = 0#8)
      ∧ (s.regs.palctl.path ≠ .cgaDerived → s.regs.palctl.palLen.toNat ≤ 16 →
          (∀ i c, i < s.regs.palctl.palLen.toNat → HoldsColour s i c →
            outputByte t (3 * i) = c.extractLsb' 16 8 ∧ outputByte t (3 * i + 1) = c.extractLsb' 8 8
              ∧ outputByte t (3 * i + 2) = c.extractLsb' 0 8)
          ∧ ∀ k, 3 * s.regs.palctl.palLen.toNat ≤ k → k < 48 → outputByte t k = 0#8)
      ∧ (s.regs.palctl.path ≠ .cgaDerived → 16 < s.regs.palctl.palLen.toNat → ∀ k, k < 48 → outputByte t k = 0#8)
      ∧ (s.regs.variant.code = .v8x1 → outputByte t 48 = 0x0C#8
          ∧ ∀ i c, HoldsColour s i c →
            outputByte t (49 + 3 * i) = c.extractLsb' 16 8 ∧ outputByte t (49 + 3 * i + 1) = c.extractLsb' 8 8
              ∧ outputByte t (49 + 3 * i + 2) = c.extractLsb' 0 8)

/-- 42_palette_mux.md R88: PALRES on a CGA header whose triples collide, PALSER, and PALRES on the header image PALSER wrote give the
same palette and descriptor. The first conjunct fixes the place of the background field, which is from general knowledge
(log 30). -/
def Obligations.CgaPaletteSurvivesSerialisation : Prop :=
  ∀ s a b u v, Undisturbed .palres s → s.regs.variant.valid = true → s.regs.variant.code = .v2x1 →
    exec .palres s = .next a → a.regs.palctl.path = .cgaDerived →
    48 ≤ s.regs.dstCap.toNat → s.regs.dstAddr.toNat + s.regs.dstCap.toNat ≤ s.addrTop →
    Undisturbed .palser a → exec .palser a = .next b →
    u.cfg = s.cfg → Undisturbed .palres u → u.regs.variant.valid = true → u.regs.variant.code = .v2x1 →
    (∀ k, k < 48 → hpalByte u.regs k = outputByte b k) → exec .palres u = .next v →
    (outputByte b 0).extractLsb' 4 4 = (hpalByte s.regs 0).extractLsb' 4 4
      ∧ (outputByte b 3).extractLsb' 5 3 = (hpalByte s.regs 3).extractLsb' 5 3
      ∧ v.regs.palctl = a.regs.palctl ∧ v.regs.cgadesc = a.regs.cgadesc
      ∧ ∀ k (h : k < 256), k < 4 → v.palram[k] = a.palram[k]

/-! ## The RLE codec -/

/-- 41_rle_codec.md R69, 30_encoding.md R60: the tokens of a line are those of a splitting of the line into runs of 1 to 63 equal
bytes, each followed by a run of another byte unless it has 63 copies already; and no line encodes to more than two bytes a
byte (R73 corner case f). -/
def Obligations.EncodeLineIsTheGreedySplitting : Prop :=
  ∀ line : List Byte, ∃ runs : List (Byte × Nat),
    line = runs.flatMap (fun r => List.replicate r.2 r.1)
      ∧ encodeLine line = runs.flatMap (fun r =>
          if 2 ≤ r.2 then [0xC0#8 ||| BitVec.ofNat 8 r.2, r.1]
          else if r.1 &&& 0xC0#8 = 0xC0#8 then [0xC1#8, r.1] else [r.1])
      ∧ (∀ r ∈ runs, 1 ≤ r.2 ∧ r.2 ≤ 63)
      ∧ runs.IsChain (fun r q => r.1 = q.1 → r.2 = 63)
      ∧ (encodeLine line).length ≤ 2 * line.length

/-- 41_rle_codec.md R69, R73 (log 12): RLEE writes the tokens of the first BPL bytes of its input and leaves their number in RESULT;
tokens that do not fit the output region raise DestOverflow(DST_CAP). -/
def Obligations.RleeEncodesOneLine : Prop :=
  ∀ s tokens, Ready s → Undisturbed .rlee s → s.regs.bpl.toNat ≤ s.regs.srcLen.toNat →
    tokens = encodeLine ((List.range s.regs.bpl.toNat).map (inputByte s)) →
    (tokens.length ≤ s.regs.dstCap.toNat →
      ∃ t, exec .rlee s = .next t ∧ CompletedOk .rlee s t ∧ KeepsAllButOutput s t tokens.length
        ∧ t.regs.result = BitVec.ofNat 32 tokens.length
        ∧ ∀ k (h : k < tokens.length), outputByte t k = tokens[k])
    ∧ (s.regs.dstCap.toNat < tokens.length → EndsWithError .rlee s ⟨.destOverflow, s.regs.dstCap.toNat⟩)

/-- 41_rle_codec.md R69, R74 (log 12): RLEEB writes the tokens of each of the HEIGHT * NPLANES plane-lines, in stored-line order;
tokens that do not fit the output region raise DestOverflow(DST_CAP). -/
def Obligations.RleebEncodesEveryLine : Prop :=
  ∀ s tokens, Ready s → Undisturbed .rleeb s →
    s.regs.height.toNat * s.regs.nplanes.toNat * s.regs.bpl.toNat ≤ s.regs.srcLen.toNat →
    tokens = (List.range (s.regs.height.toNat * s.regs.nplanes.toNat)).flatMap (fun l =>
      encodeLine ((List.range s.regs.bpl.toNat).map fun j => inputByte s (l * s.regs.bpl.toNat + j))) →
    (tokens.length ≤ s.regs.dstCap.toNat →
      ∃ t, exec .rleeb s = .next t ∧ CompletedOk .rleeb s t ∧ KeepsAllButOutput s t tokens.length
        ∧ t.regs.result = BitVec.ofNat 32 tokens.length
        ∧ ∀ k (h : k < tokens.length), outputByte t k = tokens[k])
    ∧ (s.regs.dstCap.toNat < tokens.length → EndsWithError .rleeb s ⟨.destOverflow, s.regs.dstCap.toNat⟩)

/-- 30_encoding.md R58, R59, 41_rle_codec.md R70 (log 8): the effect of a body token of `n` copies of `v`, 0 to 63, on a decode under
way: the copies fill the present stored line to its end at most, the padding position is not written, a line that ends drops the
rest (DROP_REST) or one copy (DROP_ONE, where the rest then acts as a token of its own); the bytes go to the output region, the
cursors advance, nothing else changes. The first clause says so of exec for a run that DROP_ONE does not cut; the second of exec
for every run and both policies, through tokenEffect; the next three say what tokenEffect is: inside a line, past the last line,
and for a run that DROP_ONE cuts at the line's end. With no decode under way the token is a fault. -/
def Obligations.TokensActOnADecodeUnderWay : Prop :=
  (∀ s c i len n (v : Byte), s.dec = some c →
    (i, len, n) ∈ [(Instr.rleRun (BitVec.ofNat 6 n) v, 2, n), (.rleEscapedLiteral v, 2, 1), (.rleLiteral v, 1, 1)] →
    n < 64 → c.ln < s.regs.height.toNat * s.regs.nplanes.toNat → c.lc < s.regs.bplo.toNat →
    c.o + n ≤ s.regs.dstCap.toNat → s.regs.dstAddr.toNat + s.regs.dstCap.toNat ≤ s.addrTop →
    s.cfg.straddle = .dropRest ∨ c.lc + n ≤ s.regs.bplo.toNat →
    ∃ t m, exec i s = .next t
      ∧ m = min n (s.regs.bplo.toNat - c.lc)
          - (if s.regs.variant.notEven = true ∧ s.regs.bplo.toNat ≤ c.lc + n then 1 else 0)
      ∧ t.dec = some (if s.regs.bplo.toNat ≤ c.lc + n then ⟨c.ip + len, c.o + m, 0, c.ln + 1⟩
          else ⟨c.ip + len, c.o + m, c.lc + n, c.ln⟩)
      ∧ (∀ a, t.mem.read a =
          if s.regs.dstAddr.toNat + c.o ≤ a ∧ a < s.regs.dstAddr.toNat + c.o + m then v else s.mem.read a)
      ∧ t.regs = s.regs ∧ t.palram = s.palram ∧ t.pending = s.pending ∧ t.race = s.race ∧ t.draws = s.draws
      ∧ t.host = s.host ∧ t.cfg = s.cfg)
  ∧ (∀ s c i len n (v : Byte), s.dec = some c →
    (i, len, n) ∈ [(Instr.rleRun (BitVec.ofNat 6 n) v, 2, n), (.rleEscapedLiteral v, 2, 1), (.rleLiteral v, 1, 1)] →
    n < 64 → ∀ bytes c', tokenEffect (lineGeometry s) len n v c = (bytes, c') →
    c.o + bytes.length ≤ s.regs.dstCap.toNat → s.regs.dstAddr.toNat + s.regs.dstCap.toNat ≤ s.addrTop →
    ∃ t, exec i s = .next t ∧ t.dec = some c'
      ∧ (∀ k (h : k < bytes.length), t.mem.read (s.regs.dstAddr.toNat + c.o + k) = bytes[k])
      ∧ (∀ a, (a < s.regs.dstAddr.toNat + c.o ∨ s.regs.dstAddr.toNat + c.o + bytes.length ≤ a) →
          t.mem.read a = s.mem.read a)
      ∧ t.regs = s.regs ∧ t.palram = s.palram ∧ t.pending = s.pending ∧ t.race = s.race ∧ t.draws = s.draws
      ∧ t.host = s.host ∧ t.cfg = s.cfg)
  ∧ (∀ (g : LineGeometry) len n (v : Byte) c, c.ln < g.lines → c.lc < g.width → c.lc + n ≤ g.width →
      ∃ m, m = n - (if g.padded = true ∧ c.lc + n = g.width then 1 else 0) ∧ tokenEffect g len n v c =
        (List.replicate m v,
          if c.lc + n = g.width then ⟨c.ip + len, c.o + m, 0, c.ln + 1⟩ else ⟨c.ip + len, c.o + m, c.lc + n, c.ln⟩))
  ∧ (∀ (g : LineGeometry) len n (v : Byte) c, g.lines ≤ c.ln →
      tokenEffect g len n v c = ([], ⟨c.ip + len, c.o, c.lc, c.ln⟩))
  ∧ (∀ (g : LineGeometry) len n k (v : Byte) c, g.policy = .dropOne → c.lc < g.width → k = g.width - c.lc → k < n →
      tokenEffect g len n v c =
        ((tokenEffect g len k v c).1 ++ (tokenEffect g 0 (n - k - 1) v (tokenEffect g len k v c).2).1,
          (tokenEffect g 0 (n - k - 1) v (tokenEffect g len k v c).2).2))
  ∧ ∀ s, s.dec = none → (∀ n v, exec (.rleRun n v) s = .fault .tokenOutsideBody)
    ∧ (∀ v, exec (.rleEscapedLiteral v) s = .fault .tokenOutsideBody)
    ∧ ∀ v, exec (.rleLiteral v) s = .fault .tokenOutsideBody

/-- 41_rle_codec.md R70, R71: on a body of literals RLED copies each stored line and drops the padding byte of a padded one;
RESULT is HEIGHT * NPLANES * BPL. -/
def Obligations.RledCopiesLiteralsAndDropsPadding : Prop :=
  ∀ s, RledRuns s →
    128 + s.regs.height.toNat * s.regs.nplanes.toNat * s.regs.bplo.toNat ≤ s.regs.srcLen.toNat →
    (∀ k, k < s.regs.height.toNat * s.regs.nplanes.toNat * s.regs.bplo.toNat →
      inputByte s (128 + k) &&& 0xC0#8 ≠ 0xC0#8) →
    ∃ t, exec .rled s = .next t ∧ CompletedOk .rled s t
      ∧ KeepsAllButOutput s t (s.regs.height.toNat * s.regs.nplanes.toNat * s.regs.bpl.toNat)
      ∧ t.regs.result = BitVec.ofNat 32 (s.regs.height.toNat * s.regs.nplanes.toNat * s.regs.bpl.toNat)
      ∧ ∀ l j, l < s.regs.height.toNat * s.regs.nplanes.toNat → j < s.regs.bpl.toNat →
          outputByte t (l * s.regs.bpl.toNat + j) = inputByte s (128 + l * s.regs.bplo.toNat + j)

/-- 41_rle_codec.md R70 (case g), R71, 60_exceptions.md R115: a RLED that ends without error has written exactly
HEIGHT * NPLANES * BPL bytes, whatever the body and the straddle policy. It can end otherwise only with InputExhausted, and
ERRINFO is then the offset of the failed read, the first one past the input: SRC_LEN, or 128 where the input does not reach the
body. With SRC_LEN at most 128 it does end so. -/
def Obligations.RledWritesExactlyTheBitmap : Prop :=
  ∀ s, RledRuns s →
    (s.regs.srcLen.toNat ≤ 128 → EndsWithError .rled s ⟨.inputExhausted, 128⟩)
    ∧ ∀ t, exec .rled s = .next t →
      (t.regs.status.err = false →
        KeepsMemoryOutside s t (s.regs.height.toNat * s.regs.nplanes.toNat * s.regs.bpl.toNat)
        ∧ t.regs.result = BitVec.ofNat 32 (s.regs.height.toNat * s.regs.nplanes.toNat * s.regs.bpl.toNat))
      ∧ (t.regs.status.err = true →
        t.regs.status.errCode = 0x13#8 ∧ t.regs.errInfo = BitVec.ofNat 32 (max 128 s.regs.srcLen.toNat)
          ∧ CompletedErr .rled s t ⟨.inputExhausted, max 128 s.regs.srcLen.toNat⟩ ∧ LeavesAfterError .rled s t)

/-- 41_rle_codec.md R75: RLEEB's output, placed at offset 128 of a file, decodes by RLED to the DecodedBitmap it came from, for
every straddle policy. -/
def Obligations.RledOfRleebIsTheBitmap : Prop :=
  ∀ s t u n, Ready s → Undisturbed .rleeb s → FreshGeometry s →
    s.regs.height.toNat * s.regs.nplanes.toNat * s.regs.bpl.toNat ≤ s.regs.srcLen.toNat →
    exec .rleeb s = .next t → t.regs.status.err = false → n = t.regs.result.toNat →
    RledRuns u → u.regs.height = s.regs.height → u.regs.nplanes = s.regs.nplanes → u.regs.bpl = s.regs.bpl →
    u.regs.bplo = u.regs.bpl → 128 + n ≤ u.regs.srcLen.toNat →
    (∀ k, k < n → inputByte u (128 + k) = outputByte t k) →
    ∃ v, exec .rled u = .next v ∧ CompletedOk .rled u v
      ∧ v.regs.result = BitVec.ofNat 32 (s.regs.height.toNat * s.regs.nplanes.toNat * s.regs.bpl.toNat)
      ∧ ∀ k, k < s.regs.height.toNat * s.regs.nplanes.toNat * s.regs.bpl.toNat → outputByte v k = inputByte s k

/-- 10_state.md R35, 41_rle_codec.md R70 (log 8): the atomic RLED equals its tokens run one by one: from the state with the
cursors at the start of the body, steps of the token machine end in the same registers and the same memory. -/
def Obligations.RledEqualsItsTokensOneByOne : Prop :=
  ∀ s t, RledRuns s → s.host = [] → s.pending = some (commandWord .rled) → s.dec = none → step s = .next t →
    ∃ n u, Host.Core.run Sys2Proof.core n { s with dec := some Cursor.start } = .next u
      ∧ u.regs = t.regs ∧ u.palram = t.palram ∧ u.pending = t.pending ∧ u.dec = t.dec ∧ u.draws = t.draws
      ∧ ∀ a, u.mem.read a = t.mem.read a

/-! ## The bit-plane transposer -/

/-- 44_plane_transposer.md R96, R97, R102: PXDEC on V1x1: a set bit is white, a clear bit black, the leftmost pixel in the most
significant bit; on V8x3 planes 0, 1, 2 are red, green, blue. -/
def Obligations.PxdecMonochromeAndTrueColour : Prop :=
  ∀ s, PxdecRuns s →
    (s.regs.variant.code = .v1x1 → PxdecWrites s (fun x y c => c =
      if (inputByte s (y * s.regs.bpl.toNat + x / 8)).getLsbD (7 - x % 8) then 0xFFFFFF#24 else 0x000000#24))
    ∧ (s.regs.variant.code = .v8x3 → PxdecWrites s (fun x y c => c =
      inputByte s ((y * 3 + 0) * s.regs.bpl.toNat + x) ++ inputByte s ((y * 3 + 1) * s.regs.bpl.toNat + x)
        ++ inputByte s ((y * 3 + 2) * s.regs.bpl.toNat + x)))

/-- 44_plane_transposer.md R96, R98, R100, R101: PXDEC on V2x1, V4x1 and V8x1: the 2-bit, 4-bit or 8-bit group of the pixel, most
significant group first, indexes PALRAM. -/
def Obligations.PxdecPackedPalette : Prop :=
  ∀ s, PxdecRuns s →
    (s.regs.variant.code = .v2x1 → PxdecWrites s (fun x y c => HoldsColour s
        ((inputByte s (y * s.regs.bpl.toNat + x / 4)).extractLsb' (6 - 2 * (x % 4)) 2).toNat c))
    ∧ (s.regs.variant.code = .v4x1 → PxdecWrites s (fun x y c => HoldsColour s
        (if x % 2 = 0 then (inputByte s (y * s.regs.bpl.toNat + x / 2)).extractLsb' 4 4
          else (inputByte s (y * s.regs.bpl.toNat + x / 2)).extractLsb' 0 4).toNat c))
    ∧ (s.regs.variant.code = .v8x1 → PxdecWrites s (fun x y c => HoldsColour s
        (inputByte s (y * s.regs.bpl.toNat + x)).toNat c))

/-- 44_plane_transposer.md R96, R99: PXDEC on V1x2, V1x3 and V1x4: bit p of the index is the pixel's bit in plane p of the row. -/
def Obligations.PxdecPlanar : Prop :=
  ∀ s, PxdecRuns s → s.regs.variant.code ∈ [Variant.v1x2, .v1x3, .v1x4] →
    PxdecWrites s (fun x y c => ∃ i, HoldsColour s i c ∧ i < 2 ^ s.regs.nplanes.toNat ∧
      ∀ p, p < s.regs.nplanes.toNat → i.testBit p =
        (inputByte s ((y * s.regs.nplanes.toNat + p) * s.regs.bpl.toNat + x / 8)).getLsbD (7 - x % 8))

/-- 44_plane_transposer.md R103, R104, R105, 42_palette_mux.md R77: PXENC writes the index of each pixel's colour: for V1x1 black is
0 and white is 1; for a palette variant the dictionary's index. -/
def Obligations.PxencWritesTheIndices : Prop :=
  ∀ s index, PxencRuns s →
    (s.regs.variant.code = .v1x1 →
      (∀ x y, InImage s x y → (inputPixel s x y = 0x000000#24 ∧ index x y = 0)
        ∨ (inputPixel s x y = 0xFFFFFF#24 ∧ index x y = 1)) →
      PxencWrites s index)
    ∧ (s.regs.variant.code ≠ .v1x1 → s.regs.variant.code ≠ .v8x3 → ActiveWritten s → s.regs.palctl.palLen ≤ 256#9 →
      (∀ x y, InImage s x y → DictionaryIndex s (inputPixel s x y) (index x y)
        ∧ index x y < 2 ^ (s.regs.bpp.toNat * s.regs.nplanes.toNat)) →
      PxencWrites s index)

/-- 44_plane_transposer.md R103, R106: PXENC on V8x3: plane p of a pixel is its channel p, and no colour is refused. -/
def Obligations.PxencTrueColour : Prop :=
  ∀ s, PxencRuns s → s.regs.variant.code = .v8x3 →
    ∃ t, exec .pxenc s = .next t ∧ CompletedOk .pxenc s t
      ∧ KeepsAllButOutput s t (s.regs.height.toNat * s.regs.nplanes.toNat * s.regs.bpl.toNat)
      ∧ t.regs.result = BitVec.ofNat 32 (s.regs.height.toNat * s.regs.nplanes.toNat * s.regs.bpl.toNat)
      ∧ ∀ x y p, InImage s x y → p < 3 →
          outputByte t ((y * 3 + p) * s.regs.bpl.toNat + x) = inputByte s (4 * (y * s.regs.width.toNat + x) + p)

/-- 44_plane_transposer.md R103: a colour with no index raises ColorNotInPalette with the number of the first such pixel in
row-major order. -/
def Obligations.PxencRefusesUnknownColours : Prop :=
  ∀ s x y, PxencRuns s → s.regs.variant.code ≠ .v8x3 →
    (s.regs.variant.code ≠ .v1x1 → ActiveWritten s ∧ s.regs.palctl.palLen ≤ 256#9) → InImage s x y →
    (∀ a b, InImage s a b → b * s.regs.width.toNat + a < y * s.regs.width.toNat + x →
      if s.regs.variant.code = .v1x1 then inputPixel s a b = 0x000000#24 ∨ inputPixel s a b = 0xFFFFFF#24
      else ∃ k, DictionaryIndex s (inputPixel s a b) k ∧ k < 2 ^ (s.regs.bpp.toNat * s.regs.nplanes.toNat)) →
    (if s.regs.variant.code = .v1x1 then inputPixel s x y ≠ 0x000000#24 ∧ inputPixel s x y ≠ 0xFFFFFF#24
      else ∀ k, DictionaryIndex s (inputPixel s x y) k → 2 ^ (s.regs.bpp.toNat * s.regs.nplanes.toNat) ≤ k) →
    EndsWithError .pxenc s ⟨.colorNotInPalette, y * s.regs.width.toNat + x⟩

/-- 44_plane_transposer.md R107: PXDEC after PXENC reproduces a PixelBuffer whose pixels have alpha 255 and colours that the
variant can hold. -/
def Obligations.PxdecOfPxencIsThePixelBuffer : Prop :=
  ∀ s t u, PxencRuns s →
    (s.regs.variant.code ≠ .v1x1 → s.regs.variant.code ≠ .v8x3 →
      ActiveWritten s ∧ s.regs.palctl.palLen.toNat ≤ 2 ^ (s.regs.bpp.toNat * s.regs.nplanes.toNat)) →
    (∀ x y, InImage s x y → inputByte s (pbaddr s.regs x y + 3) = 0xFF#8 ∧
      match s.regs.variant.code with
      | .v1x1 => inputPixel s x y = 0x000000#24 ∨ inputPixel s x y = 0xFFFFFF#24
      | .v8x3 => True
      | _ => ∃ k, k < s.regs.palctl.palLen.toNat ∧ HoldsColour s k (inputPixel s x y)) →
    exec .pxenc s = .next t →
    PxdecRuns u → u.regs.width = s.regs.width → u.regs.height = s.regs.height → u.regs.bpp = s.regs.bpp →
    u.regs.nplanes = s.regs.nplanes → u.palram = t.palram →
    (∀ k, k < s.regs.height.toNat * s.regs.nplanes.toNat * s.regs.bpl.toNat → inputByte u k = outputByte t k) →
    ∃ v, exec .pxdec u = .next v ∧ CompletedOk .pxdec u v ∧ t.regs.status.err = false
      ∧ ∀ k, k < s.regs.width.toNat * s.regs.height.toNat * 4 → outputByte v k = inputByte s k
end

