-- ==== Sys2Proof/Laws/Memory.lean ====
section
/-! SUPPORT. The laws of memory: what a byte reads as after each operation, and that every operation keeps the canonical
form. Later proofs cite these and never unfold the list of cells. -/

namespace Sys2Proof.Machine

/-! ## The list of cells -/

theorem cellFind_cellSet_same (l : List Host.Cell) (a : Nat) (v : Byte) : cellFind (cellSet l a v) a = some v := by
  induction l with
  | nil => simp [cellSet, cellFind]
  | cons c rest ih =>
    simp only [cellSet]
    split
    · simp [cellFind]
    · split
      · simp [cellFind]
      · simp [cellFind, ih, Ne.symm ‹¬a = c.1›]

theorem cellFind_cellSet_other (l : List Host.Cell) {a b : Nat} (v : Byte) (h : b ≠ a) :
    cellFind (cellSet l a v) b = cellFind l b := by
  induction l with
  | nil => simp [cellSet, cellFind, Ne.symm h]
  | cons c rest ih =>
    simp only [cellSet]
    split
    · simp [cellFind, Ne.symm h]
    · split
      · simp [cellFind, Ne.symm h, ‹a = c.1› ▸ Ne.symm h]
      · simp [cellFind, ih]

theorem cellFind_filter (l : List Host.Cell) (p : Nat → Bool) (a : Nat) :
    cellFind (l.filter (fun c => p c.1)) a = if p a then cellFind l a else none := by
  induction l with
  | nil => simp [cellFind]
  | cons c rest ih =>
    by_cases hc : p c.1
    · simp only [List.filter_cons_of_pos, hc, cellFind, ih]
      by_cases ha : c.1 = a
      · simp [ha, ha ▸ hc]
      · simp [ha]
    · rw [List.filter_cons_of_neg (by simpa using hc), ih]
      by_cases ha : c.1 = a
      · simp [← ha, hc]
      · simp [cellFind, ha]

theorem cellFind_cellErase (l : List Host.Cell) (a b : Nat) :
    cellFind (cellErase l a) b = if b = a then none else cellFind l b := by
  have h := cellFind_filter l (fun k => k != a) b
  simp only [cellErase, h]
  by_cases hb : b = a <;> simp [hb]

theorem mem_cellSet {l : List Host.Cell} {a : Nat} {v : Byte} {c : Host.Cell} (h : c ∈ cellSet l a v) :
    c = (a, v) ∨ c ∈ l := by
  induction l with
  | nil => simpa [cellSet] using h
  | cons d rest ih =>
    simp only [cellSet] at h
    split at h
    · simpa using h
    · split at h
      · simp only [List.mem_cons] at h ⊢
        tauto
      · simp only [List.mem_cons] at h ⊢
        rcases h with h | h
        · exact .inr (.inl h)
        · rcases ih h with h | h
          · exact .inl h
          · exact .inr (.inr h)

theorem cellSet_sorted {l : List Host.Cell} (a : Nat) (v : Byte) (h : l.Pairwise (fun c d => c.1 < d.1)) :
    (cellSet l a v).Pairwise (fun c d => c.1 < d.1) := by
  induction l with
  | nil => simp [cellSet]
  | cons c rest ih =>
    rw [List.pairwise_cons] at h
    simp only [cellSet]
    split
    · rename_i hlt
      refine List.pairwise_cons.2 ⟨fun d hd => ?_, List.pairwise_cons.2 h⟩
      rcases List.mem_cons.1 hd with rfl | hd
      · exact hlt
      · exact Nat.lt_trans hlt (h.1 d hd)
    · split
      · rename_i heq
        exact List.pairwise_cons.2 ⟨fun d hd => heq ▸ h.1 d hd, h.2⟩
      · rename_i hge hne
        refine List.pairwise_cons.2 ⟨fun d hd => ?_, ih h.2⟩
        rcases mem_cellSet hd with rfl | hd
        · show c.1 < a; omega
        · exact h.1 d hd

/-! ## Reading after each operation -/

@[simp] theorem Memory.spanAt_write (m : Memory) (a b : Nat) (v : Byte) : (m.write a v).spanAt b = m.spanAt b := by
  unfold Memory.write
  split
  · rfl
  · split <;> rfl

@[simp] theorem Memory.unlisted_write (m : Memory) (a b : Nat) (v : Byte) : (m.write a v).unlisted b = m.unlisted b := by
  simp [Memory.unlisted]

theorem Memory.spans_write (m : Memory) (a : Nat) (v : Byte) : (m.write a v).spans = m.spans := by
  unfold Memory.write
  split
  · rfl
  · split <;> rfl

/-- A read after a write to the same address gives the byte written. -/
@[simp] theorem Memory.read_write_same (m : Memory) (a : Nat) (v : Byte) : (m.write a v).read a = v := by
  unfold Memory.read
  rw [Memory.unlisted_write]
  cases hs : m.spanAt a with
  | some p => simp [Memory.write, hs, cellFind_cellSet_same]
  | none =>
    by_cases hv : v = Config.unlistedByte
    · simp [Memory.write, hs, hv, cellFind_cellErase, Memory.unlisted]
    · simp [Memory.write, hs, hv, cellFind_cellSet_same]

/-- A write leaves every other address alone. -/
theorem Memory.read_write_other (m : Memory) {a b : Nat} (v : Byte) (h : b ≠ a) : (m.write a v).read b = m.read b := by
  unfold Memory.read
  rw [Memory.unlisted_write]
  cases hs : m.spanAt a with
  | some p => simp [Memory.write, hs, cellFind_cellSet_other _ _ h]
  | none =>
    by_cases hv : v = Config.unlistedByte
    · simp [Memory.write, hs, hv, cellFind_cellErase, h]
    · simp [Memory.write, hs, hv, cellFind_cellSet_other _ _ h]

theorem Memory.read_write (m : Memory) (a b : Nat) (v : Byte) :
    (m.write a v).read b = if b = a then v else m.read b := by
  split
  · subst b; exact m.read_write_same a v
  · exact m.read_write_other v ‹_›

theorem Memory.read_fillFrom (f : Nat → Byte) (base n i : Nat) (m : Memory) (a : Nat) :
    (Memory.fillFrom f base n i m).read a = if base + i ≤ a ∧ a < base + i + n then f (a - base) else m.read a := by
  induction n generalizing i with
  | zero =>
    rw [if_neg (by omega)]
    rfl
  | succ n ih =>
    rw [Memory.fillFrom, Memory.read_write, ih]
    by_cases h0 : a = base + i
    · subst h0
      simp
    · simp only [h0, if_false]
      congr 1
      simp only [eq_iff_iff]
      omega

/-- What memory reads as after a fill: the bytes written inside the range, the old bytes outside it. -/
theorem Memory.read_fill (m : Memory) (base n : Nat) (f : Nat → Byte) (a : Nat) :
    (m.fill base n f).read a = if base ≤ a ∧ a < base + n then f (a - base) else m.read a := by
  simpa [Memory.fill] using Memory.read_fillFrom f base n 0 m a

theorem Memory.read_fill_inside (m : Memory) {base n : Nat} (f : Nat → Byte) {k : Nat} (h : k < n) :
    (m.fill base n f).read (base + k) = f k := by
  rw [Memory.read_fill, if_pos ⟨by omega, by omega⟩, Nat.add_sub_cancel_left]

theorem Memory.read_fill_outside (m : Memory) {base n : Nat} (f : Nat → Byte) {a : Nat} (h : a < base ∨ base + n ≤ a) :
    (m.fill base n f).read a = m.read a := by
  rw [Memory.read_fill, if_neg (by omega)]

theorem spanHolds_iff (p : Span) (a : Nat) : spanHolds p a = true ↔ p.lo ≤ a ∧ a < p.lo + p.len := by
  simp [spanHolds]

theorem Memory.spanAt_havoc (m : Memory) {lo len : Nat} (tick a : Nat) (h : len ≠ 0) :
    (m.havoc lo len tick).spanAt a = if lo ≤ a ∧ a < lo + len then some ⟨lo, len, tick⟩ else m.spanAt a := by
  simp only [Memory.havoc, if_neg h, Memory.spanAt, List.find?_cons]
  by_cases hin : lo ≤ a ∧ a < lo + len
  · rw [(spanHolds_iff ⟨lo, len, tick⟩ a).2 hin, if_pos hin]
  · have : spanHolds ⟨lo, len, tick⟩ a = false := by
      rw [← Bool.not_eq_true, spanHolds_iff]
      exact hin
    rw [this, if_neg hin]

/-- What memory reads as after a range is left unspecified: a free value inside it, the old bytes outside it. -/
theorem Memory.read_havoc (m : Memory) (lo len tick a : Nat) :
    (m.havoc lo len tick).read a = if lo ≤ a ∧ a < lo + len then Config.free 8 .memByte tick a else m.read a := by
  by_cases hl : len = 0
  · have : ¬(lo ≤ a ∧ a < lo + len) := by omega
    simp [Memory.havoc, hl]
  · unfold Memory.read Memory.unlisted
    rw [Memory.spanAt_havoc m tick a hl]
    have hc : (m.havoc lo len tick).cells = m.cells.filter (fun c => !spanHolds ⟨lo, len, tick⟩ c.1) := by
      simp [Memory.havoc, hl]
    rw [hc, cellFind_filter m.cells (fun k => !spanHolds ⟨lo, len, tick⟩ k) a]
    by_cases hin : lo ≤ a ∧ a < lo + len
    · simp [(spanHolds_iff ⟨lo, len, tick⟩ a).2 hin, hin]
    · have : spanHolds ⟨lo, len, tick⟩ a = false := by
        rw [← Bool.not_eq_true, spanHolds_iff]
        exact hin
      simp [this, hin]

theorem Memory.read_havoc_outside (m : Memory) {lo len a : Nat} (tick : Nat) (h : a < lo ∨ lo + len ≤ a) :
    (m.havoc lo len tick).read a = m.read a := by
  rw [Memory.read_havoc, if_neg (by omega)]

@[simp] theorem Memory.havocEach_nil (m : Memory) (tick : Nat) : m.havocEach tick [] = m := rfl

theorem Memory.read_havocEach (m : Memory) (tick : Nat) (l : List Nat) (a : Nat) :
    (m.havocEach tick l).read a = if a ∈ l then Config.free 8 .memByte tick a else m.read a := by
  induction l with
  | nil => simp
  | cons b rest ih =>
    rw [Memory.havocEach, Memory.read_havoc, ih]
    by_cases hb : a = b
    · simp [hb]
    · rw [if_neg (show ¬(b ≤ a ∧ a < b + 1) by omega)]
      simp [hb]

/-! ## Every operation keeps the canonical form -/

theorem Memory.wf_write {m : Memory} (a : Nat) (v : Byte) (h : m.wf) : (m.write a v).wf := by
  obtain ⟨hs, hv, hp⟩ := h
  refine ⟨?_, fun c hc hn => ?_, ?_⟩
  · unfold Memory.write
    split
    · exact cellSet_sorted a v hs
    · split
      · exact hs.filter _
      · exact cellSet_sorted a v hs
  · rw [Memory.spanAt_write] at hn
    unfold Memory.write at hc
    split at hc
    · rename_i p hsome
      rcases mem_cellSet hc with rfl | hc
      · simp [hsome] at hn
      · exact hv c hc hn
    · split at hc
      · exact hv c (List.mem_of_mem_filter hc) hn
      · rcases mem_cellSet hc with rfl | hc
        · exact ‹¬v = Config.unlistedByte›
        · exact hv c hc hn
  · rw [Memory.spans_write]
    exact hp

theorem Memory.wf_fillFrom (f : Nat → Byte) (base n i : Nat) {m : Memory} (h : m.wf) :
    (Memory.fillFrom f base n i m).wf := by
  induction n generalizing i with
  | zero => exact h
  | succ n ih => exact Memory.wf_write _ _ (ih (i + 1))

theorem Memory.wf_fill {m : Memory} (base n : Nat) (f : Nat → Byte) (h : m.wf) : (m.fill base n f).wf :=
  Memory.wf_fillFrom f base n 0 h

theorem Memory.wf_havoc {m : Memory} (lo len tick : Nat) (h : m.wf) : (m.havoc lo len tick).wf := by
  by_cases hl : len = 0
  · simpa [Memory.havoc, hl] using h
  · obtain ⟨hs, hv, hp⟩ := h
    refine ⟨?_, fun c hc hn => ?_, ?_⟩
    · simp only [Memory.havoc, if_neg hl]
      exact hs.filter _
    · rw [Memory.spanAt_havoc m tick c.1 hl] at hn
      simp only [Memory.havoc, if_neg hl] at hc
      split at hn
      · simp at hn
      · exact hv c (List.mem_of_mem_filter hc) hn
    · simp only [Memory.havoc, if_neg hl, List.mem_cons]
      rintro p (rfl | hpm)
      · show 0 < len
        omega
      · exact hp p hpm

theorem Memory.wf_havocEach {m : Memory} (tick : Nat) (l : List Nat) (h : m.wf) : (m.havocEach tick l).wf := by
  induction l with
  | nil => exact h
  | cons a rest ih => exact Memory.wf_havoc _ _ _ ih

/-! ## Which addresses a memory lists -/

theorem Memory.below_write {m : Memory} {top a : Nat} (v : Byte) (h : m.below top) (ha : a < top) :
    (m.write a v).below top := by
  refine ⟨fun c hc => ?_, by rw [Memory.spans_write]; exact h.2⟩
  unfold Memory.write at hc
  split at hc
  · rcases mem_cellSet hc with rfl | hc
    · exact ha
    · exact h.1 c hc
  · split at hc
    · exact h.1 c (List.mem_of_mem_filter hc)
    · rcases mem_cellSet hc with rfl | hc
      · exact ha
      · exact h.1 c hc

theorem Memory.below_fillFrom (f : Nat → Byte) {base n i top : Nat} {m : Memory} (h : m.below top)
    (ht : n = 0 ∨ base + i + n ≤ top) : (Memory.fillFrom f base n i m).below top := by
  induction n generalizing i with
  | zero => exact h
  | succ n ih => exact Memory.below_write _ (ih (by omega)) (by omega)

theorem Memory.below_fill {m : Memory} {base n top : Nat} (f : Nat → Byte) (h : m.below top)
    (ht : n = 0 ∨ base + n ≤ top) : (m.fill base n f).below top :=
  Memory.below_fillFrom f h (by omega)

theorem Memory.below_havoc {m : Memory} {lo len top : Nat} (tick : Nat) (h : m.below top)
    (ht : len = 0 ∨ lo + len ≤ top) : (m.havoc lo len tick).below top := by
  by_cases hl : len = 0
  · simpa [Memory.havoc, hl] using h
  · simp only [Memory.havoc, if_neg hl]
    refine ⟨fun c hc => h.1 c (List.mem_of_mem_filter hc), ?_⟩
    intro p hp
    rcases List.mem_cons.1 hp with rfl | hp
    · show lo + len ≤ top
      omega
    · exact h.2 p hp

theorem Memory.below_havocEach {m : Memory} {top : Nat} (tick : Nat) (l : List Nat) (h : m.below top)
    (hl : ∀ a ∈ l, a < top) : (m.havocEach tick l).below top := by
  induction l with
  | nil => exact h
  | cons a rest ih =>
    refine Memory.below_havoc _ (ih fun b hb => hl b (List.mem_cons_of_mem _ hb)) (.inr ?_)
    have := hl a List.mem_cons_self
    omega

/-- Memory at reset is in the canonical form. -/
theorem State.reset_mem_wf : State.reset.mem.wf := by decide

end Sys2Proof.Machine
end

