-- ==== Sys2Proof/Laws/State.lean ====
section
/-! SUPPORT. One lemma per field and named update of the state, each true by unfolding, so that no later proof unfolds a
record update. -/

namespace Sys2Proof.Machine

/-! ## `finish`, the bookkeeping of completion -/

@[simp] theorem finish_palram (i : Instr) (s t : State) (e : Option Raised) : (finish i s e t).palram = t.palram := rfl
@[simp] theorem finish_pending (i : Instr) (s t : State) (e : Option Raised) : (finish i s e t).pending = none := rfl
@[simp] theorem finish_mem (i : Instr) (s t : State) (e : Option Raised) : (finish i s e t).mem = t.mem := rfl
@[simp] theorem finish_dec (i : Instr) (s t : State) (e : Option Raised) : (finish i s e t).dec = none := rfl
@[simp] theorem finish_race (i : Instr) (s t : State) (e : Option Raised) : (finish i s e t).race = Race.clean := rfl
@[simp] theorem finish_host (i : Instr) (s t : State) (e : Option Raised) : (finish i s e t).host = t.host := rfl
@[simp] theorem finish_busData (i : Instr) (s t : State) (e : Option Raised) : (finish i s e t).busData = t.busData := rfl
@[simp] theorem finish_memData (i : Instr) (s t : State) (e : Option Raised) : (finish i s e t).memData = t.memData := rfl
@[simp] theorem finish_cfg (i : Instr) (s t : State) (e : Option Raised) : (finish i s e t).cfg = t.cfg := rfl
@[simp] theorem finish_draws (i : Instr) (s t : State) (e : Option Raised) : (finish i s e t).draws = s.draws + 1 := rfl
@[simp] theorem finish_status (i : Instr) (s t : State) (e : Option Raised) : (finish i s e t).regs.status = statusComplete t.regs.status (opcode i) (e.map (·.kind)) := rfl
@[simp] theorem finish_irqEn (i : Instr) (s t : State) (e : Option Raised) : (finish i s e t).regs.irqEn = t.regs.irqEn := rfl
@[simp] theorem finish_srcAddr (i : Instr) (s t : State) (e : Option Raised) : (finish i s e t).regs.srcAddr = t.regs.srcAddr := rfl
@[simp] theorem finish_srcLen (i : Instr) (s t : State) (e : Option Raised) : (finish i s e t).regs.srcLen = t.regs.srcLen := rfl
@[simp] theorem finish_dstAddr (i : Instr) (s t : State) (e : Option Raised) : (finish i s e t).regs.dstAddr = t.regs.dstAddr := rfl
@[simp] theorem finish_dstCap (i : Instr) (s t : State) (e : Option Raised) : (finish i s e t).regs.dstCap = t.regs.dstCap := rfl
@[simp] theorem finish_width (i : Instr) (s t : State) (e : Option Raised) : (finish i s e t).regs.width = t.regs.width := rfl
@[simp] theorem finish_height (i : Instr) (s t : State) (e : Option Raised) : (finish i s e t).regs.height = t.regs.height := rfl
@[simp] theorem finish_bpp (i : Instr) (s t : State) (e : Option Raised) : (finish i s e t).regs.bpp = t.regs.bpp := rfl
@[simp] theorem finish_nplanes (i : Instr) (s t : State) (e : Option Raised) : (finish i s e t).regs.nplanes = t.regs.nplanes := rfl
@[simp] theorem finish_bplo (i : Instr) (s t : State) (e : Option Raised) : (finish i s e t).regs.bplo = t.regs.bplo := rfl
@[simp] theorem finish_version (i : Instr) (s t : State) (e : Option Raised) : (finish i s e t).regs.version = t.regs.version := rfl
@[simp] theorem finish_bpl (i : Instr) (s t : State) (e : Option Raised) : (finish i s e t).regs.bpl = t.regs.bpl := rfl
@[simp] theorem finish_variant (i : Instr) (s t : State) (e : Option Raised) : (finish i s e t).regs.variant = t.regs.variant := rfl
@[simp] theorem finish_result (i : Instr) (s t : State) (e : Option Raised) : (finish i s e t).regs.result = t.regs.result := rfl
@[simp] theorem finish_errInfo (i : Instr) (s t : State) (e : Option Raised) : (finish i s e t).regs.errInfo = (match e with | none => 0#32 | some r => wordOf .errInfo s.draws r.info) := rfl
@[simp] theorem finish_palctl (i : Instr) (s t : State) (e : Option Raised) : (finish i s e t).regs.palctl = t.regs.palctl := rfl
@[simp] theorem finish_cgadesc (i : Instr) (s t : State) (e : Option Raised) : (finish i s e t).regs.cgadesc = t.regs.cgadesc := rfl
@[simp] theorem finish_hpal (i : Instr) (s t : State) (e : Option Raised) : (finish i s e t).regs.hpal = t.regs.hpal := rfl

/-! ## `loseOutputs` -/

@[simp] theorem loseOutputs_palram (i : Instr) (s t : State) : (loseOutputs i s t).palram = t.palram := rfl
@[simp] theorem loseOutputs_pending (i : Instr) (s t : State) : (loseOutputs i s t).pending = t.pending := rfl
@[simp] theorem loseOutputs_mem (i : Instr) (s t : State) : (loseOutputs i s t).mem = (if usesOutput i then t.mem.havoc s.regs.dstAddr.toNat s.outRoom s.draws else t.mem) := rfl
@[simp] theorem loseOutputs_dec (i : Instr) (s t : State) : (loseOutputs i s t).dec = t.dec := rfl
@[simp] theorem loseOutputs_race (i : Instr) (s t : State) : (loseOutputs i s t).race = t.race := rfl
@[simp] theorem loseOutputs_host (i : Instr) (s t : State) : (loseOutputs i s t).host = t.host := rfl
@[simp] theorem loseOutputs_busData (i : Instr) (s t : State) : (loseOutputs i s t).busData = t.busData := rfl
@[simp] theorem loseOutputs_memData (i : Instr) (s t : State) : (loseOutputs i s t).memData = t.memData := rfl
@[simp] theorem loseOutputs_cfg (i : Instr) (s t : State) : (loseOutputs i s t).cfg = t.cfg := rfl
@[simp] theorem loseOutputs_draws (i : Instr) (s t : State) : (loseOutputs i s t).draws = t.draws := rfl
@[simp] theorem loseOutputs_status (i : Instr) (s t : State) : (loseOutputs i s t).regs.status = t.regs.status := rfl
@[simp] theorem loseOutputs_irqEn (i : Instr) (s t : State) : (loseOutputs i s t).regs.irqEn = t.regs.irqEn := rfl
@[simp] theorem loseOutputs_srcAddr (i : Instr) (s t : State) : (loseOutputs i s t).regs.srcAddr = t.regs.srcAddr := rfl
@[simp] theorem loseOutputs_srcLen (i : Instr) (s t : State) : (loseOutputs i s t).regs.srcLen = t.regs.srcLen := rfl
@[simp] theorem loseOutputs_dstAddr (i : Instr) (s t : State) : (loseOutputs i s t).regs.dstAddr = t.regs.dstAddr := rfl
@[simp] theorem loseOutputs_dstCap (i : Instr) (s t : State) : (loseOutputs i s t).regs.dstCap = t.regs.dstCap := rfl
@[simp] theorem loseOutputs_width (i : Instr) (s t : State) : (loseOutputs i s t).regs.width = t.regs.width := rfl
@[simp] theorem loseOutputs_height (i : Instr) (s t : State) : (loseOutputs i s t).regs.height = t.regs.height := rfl
@[simp] theorem loseOutputs_bpp (i : Instr) (s t : State) : (loseOutputs i s t).regs.bpp = t.regs.bpp := rfl
@[simp] theorem loseOutputs_nplanes (i : Instr) (s t : State) : (loseOutputs i s t).regs.nplanes = t.regs.nplanes := rfl
@[simp] theorem loseOutputs_bplo (i : Instr) (s t : State) : (loseOutputs i s t).regs.bplo = t.regs.bplo := rfl
@[simp] theorem loseOutputs_version (i : Instr) (s t : State) : (loseOutputs i s t).regs.version = t.regs.version := rfl
@[simp] theorem loseOutputs_bpl (i : Instr) (s t : State) : (loseOutputs i s t).regs.bpl = t.regs.bpl := rfl
@[simp] theorem loseOutputs_variant (i : Instr) (s t : State) : (loseOutputs i s t).regs.variant = t.regs.variant := rfl
@[simp] theorem loseOutputs_result (i : Instr) (s t : State) : (loseOutputs i s t).regs.result = Config.free 32 .result s.draws 0 := rfl
@[simp] theorem loseOutputs_errInfo (i : Instr) (s t : State) : (loseOutputs i s t).regs.errInfo = t.regs.errInfo := rfl
@[simp] theorem loseOutputs_palctl (i : Instr) (s t : State) : (loseOutputs i s t).regs.palctl = t.regs.palctl := rfl
@[simp] theorem loseOutputs_cgadesc (i : Instr) (s t : State) : (loseOutputs i s t).regs.cgadesc = t.regs.cgadesc := rfl
@[simp] theorem loseOutputs_hpal (i : Instr) (s t : State) : (loseOutputs i s t).regs.hpal = t.regs.hpal := rfl

/-! ## `acknowledge` -/

@[simp] theorem acknowledge_palram (w : Word) (s : State) : (acknowledge w s).palram = s.palram := rfl
@[simp] theorem acknowledge_pending (w : Word) (s : State) : (acknowledge w s).pending = s.pending := rfl
@[simp] theorem acknowledge_mem (w : Word) (s : State) : (acknowledge w s).mem = s.mem := rfl
@[simp] theorem acknowledge_dec (w : Word) (s : State) : (acknowledge w s).dec = s.dec := rfl
@[simp] theorem acknowledge_race (w : Word) (s : State) : (acknowledge w s).race = s.race := rfl
@[simp] theorem acknowledge_host (w : Word) (s : State) : (acknowledge w s).host = s.host := rfl
@[simp] theorem acknowledge_busData (w : Word) (s : State) : (acknowledge w s).busData = s.busData := rfl
@[simp] theorem acknowledge_memData (w : Word) (s : State) : (acknowledge w s).memData = s.memData := rfl
@[simp] theorem acknowledge_cfg (w : Word) (s : State) : (acknowledge w s).cfg = s.cfg := rfl
@[simp] theorem acknowledge_draws (w : Word) (s : State) : (acknowledge w s).draws = s.draws := rfl
@[simp] theorem acknowledge_status (w : Word) (s : State) : (acknowledge w s).regs.status = statusAck s.regs.status w := rfl
@[simp] theorem acknowledge_irqEn (w : Word) (s : State) : (acknowledge w s).regs.irqEn = s.regs.irqEn := rfl
@[simp] theorem acknowledge_srcAddr (w : Word) (s : State) : (acknowledge w s).regs.srcAddr = s.regs.srcAddr := rfl
@[simp] theorem acknowledge_srcLen (w : Word) (s : State) : (acknowledge w s).regs.srcLen = s.regs.srcLen := rfl
@[simp] theorem acknowledge_dstAddr (w : Word) (s : State) : (acknowledge w s).regs.dstAddr = s.regs.dstAddr := rfl
@[simp] theorem acknowledge_dstCap (w : Word) (s : State) : (acknowledge w s).regs.dstCap = s.regs.dstCap := rfl
@[simp] theorem acknowledge_width (w : Word) (s : State) : (acknowledge w s).regs.width = s.regs.width := rfl
@[simp] theorem acknowledge_height (w : Word) (s : State) : (acknowledge w s).regs.height = s.regs.height := rfl
@[simp] theorem acknowledge_bpp (w : Word) (s : State) : (acknowledge w s).regs.bpp = s.regs.bpp := rfl
@[simp] theorem acknowledge_nplanes (w : Word) (s : State) : (acknowledge w s).regs.nplanes = s.regs.nplanes := rfl
@[simp] theorem acknowledge_bplo (w : Word) (s : State) : (acknowledge w s).regs.bplo = s.regs.bplo := rfl
@[simp] theorem acknowledge_version (w : Word) (s : State) : (acknowledge w s).regs.version = s.regs.version := rfl
@[simp] theorem acknowledge_bpl (w : Word) (s : State) : (acknowledge w s).regs.bpl = s.regs.bpl := rfl
@[simp] theorem acknowledge_variant (w : Word) (s : State) : (acknowledge w s).regs.variant = s.regs.variant := rfl
@[simp] theorem acknowledge_result (w : Word) (s : State) : (acknowledge w s).regs.result = s.regs.result := rfl
@[simp] theorem acknowledge_errInfo (w : Word) (s : State) : (acknowledge w s).regs.errInfo = s.regs.errInfo := rfl
@[simp] theorem acknowledge_palctl (w : Word) (s : State) : (acknowledge w s).regs.palctl = s.regs.palctl := rfl
@[simp] theorem acknowledge_cgadesc (w : Word) (s : State) : (acknowledge w s).regs.cgadesc = s.regs.cgadesc := rfl
@[simp] theorem acknowledge_hpal (w : Word) (s : State) : (acknowledge w s).regs.hpal = s.regs.hpal := rfl

/-! ## `hazard` -/

@[simp] theorem hazard_palram (s : State) : (hazard s).palram = s.palram := rfl
@[simp] theorem hazard_pending (s : State) : (hazard s).pending = s.pending := rfl
@[simp] theorem hazard_mem (s : State) : (hazard s).mem = s.mem := rfl
@[simp] theorem hazard_dec (s : State) : (hazard s).dec = s.dec := rfl
@[simp] theorem hazard_race (s : State) : (hazard s).race = { s.race with tainted := true } := rfl
@[simp] theorem hazard_host (s : State) : (hazard s).host = s.host := rfl
@[simp] theorem hazard_busData (s : State) : (hazard s).busData = s.busData := rfl
@[simp] theorem hazard_memData (s : State) : (hazard s).memData = s.memData := rfl
@[simp] theorem hazard_cfg (s : State) : (hazard s).cfg = s.cfg := rfl
@[simp] theorem hazard_draws (s : State) : (hazard s).draws = s.draws := rfl
@[simp] theorem hazard_status (s : State) : (hazard s).regs.status = { s.regs.status with hzd := true } := rfl
@[simp] theorem hazard_irqEn (s : State) : (hazard s).regs.irqEn = s.regs.irqEn := rfl
@[simp] theorem hazard_srcAddr (s : State) : (hazard s).regs.srcAddr = s.regs.srcAddr := rfl
@[simp] theorem hazard_srcLen (s : State) : (hazard s).regs.srcLen = s.regs.srcLen := rfl
@[simp] theorem hazard_dstAddr (s : State) : (hazard s).regs.dstAddr = s.regs.dstAddr := rfl
@[simp] theorem hazard_dstCap (s : State) : (hazard s).regs.dstCap = s.regs.dstCap := rfl
@[simp] theorem hazard_width (s : State) : (hazard s).regs.width = s.regs.width := rfl
@[simp] theorem hazard_height (s : State) : (hazard s).regs.height = s.regs.height := rfl
@[simp] theorem hazard_bpp (s : State) : (hazard s).regs.bpp = s.regs.bpp := rfl
@[simp] theorem hazard_nplanes (s : State) : (hazard s).regs.nplanes = s.regs.nplanes := rfl
@[simp] theorem hazard_bplo (s : State) : (hazard s).regs.bplo = s.regs.bplo := rfl
@[simp] theorem hazard_version (s : State) : (hazard s).regs.version = s.regs.version := rfl
@[simp] theorem hazard_bpl (s : State) : (hazard s).regs.bpl = s.regs.bpl := rfl
@[simp] theorem hazard_variant (s : State) : (hazard s).regs.variant = s.regs.variant := rfl
@[simp] theorem hazard_result (s : State) : (hazard s).regs.result = s.regs.result := rfl
@[simp] theorem hazard_errInfo (s : State) : (hazard s).regs.errInfo = s.regs.errInfo := rfl
@[simp] theorem hazard_palctl (s : State) : (hazard s).regs.palctl = s.regs.palctl := rfl
@[simp] theorem hazard_cgadesc (s : State) : (hazard s).regs.cgadesc = s.regs.cgadesc := rfl
@[simp] theorem hazard_hpal (s : State) : (hazard s).regs.hpal = s.regs.hpal := rfl

/-! ## `issueCommand` -/

@[simp] theorem issueCommand_palram (w : Word) (s : State) : (issueCommand w s).palram = s.palram := rfl
@[simp] theorem issueCommand_pending (w : Word) (s : State) : (issueCommand w s).pending = some w := rfl
@[simp] theorem issueCommand_mem (w : Word) (s : State) : (issueCommand w s).mem = s.mem := rfl
@[simp] theorem issueCommand_dec (w : Word) (s : State) : (issueCommand w s).dec = s.dec := rfl
@[simp] theorem issueCommand_race (w : Word) (s : State) : (issueCommand w s).race = Race.clean := rfl
@[simp] theorem issueCommand_host (w : Word) (s : State) : (issueCommand w s).host = s.host := rfl
@[simp] theorem issueCommand_busData (w : Word) (s : State) : (issueCommand w s).busData = s.busData := rfl
@[simp] theorem issueCommand_memData (w : Word) (s : State) : (issueCommand w s).memData = s.memData := rfl
@[simp] theorem issueCommand_cfg (w : Word) (s : State) : (issueCommand w s).cfg = s.cfg := rfl
@[simp] theorem issueCommand_draws (w : Word) (s : State) : (issueCommand w s).draws = s.draws := rfl
@[simp] theorem issueCommand_status (w : Word) (s : State) : (issueCommand w s).regs.status = { s.regs.status with done := false, err := false } := rfl
@[simp] theorem issueCommand_irqEn (w : Word) (s : State) : (issueCommand w s).regs.irqEn = s.regs.irqEn := rfl
@[simp] theorem issueCommand_srcAddr (w : Word) (s : State) : (issueCommand w s).regs.srcAddr = s.regs.srcAddr := rfl
@[simp] theorem issueCommand_srcLen (w : Word) (s : State) : (issueCommand w s).regs.srcLen = s.regs.srcLen := rfl
@[simp] theorem issueCommand_dstAddr (w : Word) (s : State) : (issueCommand w s).regs.dstAddr = s.regs.dstAddr := rfl
@[simp] theorem issueCommand_dstCap (w : Word) (s : State) : (issueCommand w s).regs.dstCap = s.regs.dstCap := rfl
@[simp] theorem issueCommand_width (w : Word) (s : State) : (issueCommand w s).regs.width = s.regs.width := rfl
@[simp] theorem issueCommand_height (w : Word) (s : State) : (issueCommand w s).regs.height = s.regs.height := rfl
@[simp] theorem issueCommand_bpp (w : Word) (s : State) : (issueCommand w s).regs.bpp = s.regs.bpp := rfl
@[simp] theorem issueCommand_nplanes (w : Word) (s : State) : (issueCommand w s).regs.nplanes = s.regs.nplanes := rfl
@[simp] theorem issueCommand_bplo (w : Word) (s : State) : (issueCommand w s).regs.bplo = s.regs.bplo := rfl
@[simp] theorem issueCommand_version (w : Word) (s : State) : (issueCommand w s).regs.version = s.regs.version := rfl
@[simp] theorem issueCommand_bpl (w : Word) (s : State) : (issueCommand w s).regs.bpl = s.regs.bpl := rfl
@[simp] theorem issueCommand_variant (w : Word) (s : State) : (issueCommand w s).regs.variant = s.regs.variant := rfl
@[simp] theorem issueCommand_result (w : Word) (s : State) : (issueCommand w s).regs.result = s.regs.result := rfl
@[simp] theorem issueCommand_errInfo (w : Word) (s : State) : (issueCommand w s).regs.errInfo = s.regs.errInfo := rfl
@[simp] theorem issueCommand_palctl (w : Word) (s : State) : (issueCommand w s).regs.palctl = s.regs.palctl := rfl
@[simp] theorem issueCommand_cgadesc (w : Word) (s : State) : (issueCommand w s).regs.cgadesc = s.regs.cgadesc := rfl
@[simp] theorem issueCommand_hpal (w : Word) (s : State) : (issueCommand w s).regs.hpal = s.regs.hpal := rfl

/-! ## `hostRead` -/

@[simp] theorem hostRead_palram (s : State) (r : Reg) : (hostRead s r).palram = s.palram := rfl
@[simp] theorem hostRead_pending (s : State) (r : Reg) : (hostRead s r).pending = s.pending := rfl
@[simp] theorem hostRead_mem (s : State) (r : Reg) : (hostRead s r).mem = s.mem := rfl
@[simp] theorem hostRead_dec (s : State) (r : Reg) : (hostRead s r).dec = s.dec := rfl
@[simp] theorem hostRead_race (s : State) (r : Reg) : (hostRead s r).race = s.race := rfl
@[simp] theorem hostRead_host (s : State) (r : Reg) : (hostRead s r).host = s.host := rfl
@[simp] theorem hostRead_busData (s : State) (r : Reg) : (hostRead s r).busData = readReg s r := rfl
@[simp] theorem hostRead_memData (s : State) (r : Reg) : (hostRead s r).memData = s.memData := rfl
@[simp] theorem hostRead_cfg (s : State) (r : Reg) : (hostRead s r).cfg = s.cfg := rfl
@[simp] theorem hostRead_draws (s : State) (r : Reg) : (hostRead s r).draws = s.draws + 1 := rfl
@[simp] theorem hostRead_regs (s : State) (r : Reg) : (hostRead s r).regs = s.regs := rfl

/-! ## `softReset` -/

@[simp] theorem softReset_palram (s : State) : (softReset s).palram = s.palram := rfl
@[simp] theorem softReset_pending (s : State) : (softReset s).pending = none := rfl
@[simp] theorem softReset_mem (s : State) : (softReset s).mem = abandonedMem s := rfl
@[simp] theorem softReset_dec (s : State) : (softReset s).dec = none := rfl
@[simp] theorem softReset_race (s : State) : (softReset s).race = Race.clean := rfl
@[simp] theorem softReset_host (s : State) : (softReset s).host = s.host := rfl
@[simp] theorem softReset_busData (s : State) : (softReset s).busData = s.busData := rfl
@[simp] theorem softReset_memData (s : State) : (softReset s).memData = s.memData := rfl
@[simp] theorem softReset_cfg (s : State) : (softReset s).cfg = s.cfg := rfl
@[simp] theorem softReset_draws (s : State) : (softReset s).draws = s.draws + 1 := rfl
@[simp] theorem softReset_regs (s : State) : (softReset s).regs = Regs.reset := rfl

/-! ## `hardReset` -/

@[simp] theorem hardReset_palram (s : State) : (hardReset s).palram = Vector.replicate 256 .unwritten := rfl
@[simp] theorem hardReset_pending (s : State) : (hardReset s).pending = none := rfl
@[simp] theorem hardReset_mem (s : State) : (hardReset s).mem = abandonedMem s := rfl
@[simp] theorem hardReset_dec (s : State) : (hardReset s).dec = none := rfl
@[simp] theorem hardReset_race (s : State) : (hardReset s).race = Race.clean := rfl
@[simp] theorem hardReset_host (s : State) : (hardReset s).host = s.host := rfl
@[simp] theorem hardReset_busData (s : State) : (hardReset s).busData = s.busData := rfl
@[simp] theorem hardReset_memData (s : State) : (hardReset s).memData = s.memData := rfl
@[simp] theorem hardReset_cfg (s : State) : (hardReset s).cfg = s.cfg := rfl
@[simp] theorem hardReset_draws (s : State) : (hardReset s).draws = s.draws + 1 := rfl
@[simp] theorem hardReset_regs (s : State) : (hardReset s).regs = Regs.reset := rfl

/-! ## `setPalette` -/

@[simp] theorem setPalette_palram (s : State) (n : Nat) (f : Nat → Rgb) (p : PalPath) (d : Bool) : (setPalette s n f p d).palram = palramWrite s.palram n f := rfl
@[simp] theorem setPalette_pending (s : State) (n : Nat) (f : Nat → Rgb) (p : PalPath) (d : Bool) : (setPalette s n f p d).pending = s.pending := rfl
@[simp] theorem setPalette_mem (s : State) (n : Nat) (f : Nat → Rgb) (p : PalPath) (d : Bool) : (setPalette s n f p d).mem = s.mem := rfl
@[simp] theorem setPalette_dec (s : State) (n : Nat) (f : Nat → Rgb) (p : PalPath) (d : Bool) : (setPalette s n f p d).dec = s.dec := rfl
@[simp] theorem setPalette_race (s : State) (n : Nat) (f : Nat → Rgb) (p : PalPath) (d : Bool) : (setPalette s n f p d).race = s.race := rfl
@[simp] theorem setPalette_host (s : State) (n : Nat) (f : Nat → Rgb) (p : PalPath) (d : Bool) : (setPalette s n f p d).host = s.host := rfl
@[simp] theorem setPalette_busData (s : State) (n : Nat) (f : Nat → Rgb) (p : PalPath) (d : Bool) : (setPalette s n f p d).busData = s.busData := rfl
@[simp] theorem setPalette_memData (s : State) (n : Nat) (f : Nat → Rgb) (p : PalPath) (d : Bool) : (setPalette s n f p d).memData = s.memData := rfl
@[simp] theorem setPalette_cfg (s : State) (n : Nat) (f : Nat → Rgb) (p : PalPath) (d : Bool) : (setPalette s n f p d).cfg = s.cfg := rfl
@[simp] theorem setPalette_draws (s : State) (n : Nat) (f : Nat → Rgb) (p : PalPath) (d : Bool) : (setPalette s n f p d).draws = s.draws := rfl
@[simp] theorem setPalette_status (s : State) (n : Nat) (f : Nat → Rgb) (p : PalPath) (d : Bool) : (setPalette s n f p d).regs.status = s.regs.status := rfl
@[simp] theorem setPalette_irqEn (s : State) (n : Nat) (f : Nat → Rgb) (p : PalPath) (d : Bool) : (setPalette s n f p d).regs.irqEn = s.regs.irqEn := rfl
@[simp] theorem setPalette_srcAddr (s : State) (n : Nat) (f : Nat → Rgb) (p : PalPath) (d : Bool) : (setPalette s n f p d).regs.srcAddr = s.regs.srcAddr := rfl
@[simp] theorem setPalette_srcLen (s : State) (n : Nat) (f : Nat → Rgb) (p : PalPath) (d : Bool) : (setPalette s n f p d).regs.srcLen = s.regs.srcLen := rfl
@[simp] theorem setPalette_dstAddr (s : State) (n : Nat) (f : Nat → Rgb) (p : PalPath) (d : Bool) : (setPalette s n f p d).regs.dstAddr = s.regs.dstAddr := rfl
@[simp] theorem setPalette_dstCap (s : State) (n : Nat) (f : Nat → Rgb) (p : PalPath) (d : Bool) : (setPalette s n f p d).regs.dstCap = s.regs.dstCap := rfl
@[simp] theorem setPalette_width (s : State) (n : Nat) (f : Nat → Rgb) (p : PalPath) (d : Bool) : (setPalette s n f p d).regs.width = s.regs.width := rfl
@[simp] theorem setPalette_height (s : State) (n : Nat) (f : Nat → Rgb) (p : PalPath) (d : Bool) : (setPalette s n f p d).regs.height = s.regs.height := rfl
@[simp] theorem setPalette_bpp (s : State) (n : Nat) (f : Nat → Rgb) (p : PalPath) (d : Bool) : (setPalette s n f p d).regs.bpp = s.regs.bpp := rfl
@[simp] theorem setPalette_nplanes (s : State) (n : Nat) (f : Nat → Rgb) (p : PalPath) (d : Bool) : (setPalette s n f p d).regs.nplanes = s.regs.nplanes := rfl
@[simp] theorem setPalette_bplo (s : State) (n : Nat) (f : Nat → Rgb) (p : PalPath) (d : Bool) : (setPalette s n f p d).regs.bplo = s.regs.bplo := rfl
@[simp] theorem setPalette_version (s : State) (n : Nat) (f : Nat → Rgb) (p : PalPath) (d : Bool) : (setPalette s n f p d).regs.version = s.regs.version := rfl
@[simp] theorem setPalette_bpl (s : State) (n : Nat) (f : Nat → Rgb) (p : PalPath) (d : Bool) : (setPalette s n f p d).regs.bpl = s.regs.bpl := rfl
@[simp] theorem setPalette_variant (s : State) (n : Nat) (f : Nat → Rgb) (p : PalPath) (d : Bool) : (setPalette s n f p d).regs.variant = s.regs.variant := rfl
@[simp] theorem setPalette_result (s : State) (n : Nat) (f : Nat → Rgb) (p : PalPath) (d : Bool) : (setPalette s n f p d).regs.result = 0#32 := rfl
@[simp] theorem setPalette_errInfo (s : State) (n : Nat) (f : Nat → Rgb) (p : PalPath) (d : Bool) : (setPalette s n f p d).regs.errInfo = s.regs.errInfo := rfl
@[simp] theorem setPalette_palctl (s : State) (n : Nat) (f : Nat → Rgb) (p : PalPath) (d : Bool) : (setPalette s n f p d).regs.palctl = ⟨BitVec.ofNat 9 n, p, d⟩ := rfl
@[simp] theorem setPalette_cgadesc (s : State) (n : Nat) (f : Nat → Rgb) (p : PalPath) (d : Bool) : (setPalette s n f p d).regs.cgadesc = s.regs.cgadesc := rfl
@[simp] theorem setPalette_hpal (s : State) (n : Nat) (f : Nat → Rgb) (p : PalPath) (d : Bool) : (setPalette s n f p d).regs.hpal = s.regs.hpal := rfl

end Sys2Proof.Machine
end

