-- ==== Sys2Proof/Laws/Ops.lean ====
section
/-! SUPPORT. One lemma per shared operation that says what it can do: the checks, completion, the reads of the input region,
hazards and resets. -/

namespace Sys2Proof.Machine

/-! ## The checks -/

theorem checkValid_eq_none (s : State) : checkValid s = none ↔ s.regs.variant.valid = true := by
  unfold checkValid
  split <;> simp_all

theorem checkInput_eq_none (s : State) :
    checkInput s = none ↔ s.regs.srcAddr.toNat + s.regs.srcLen.toNat ≤ s.addrTop := by
  unfold checkInput
  split <;> simp_all

theorem checkOutput_eq_none (s : State) :
    checkOutput s = none ↔ s.regs.dstAddr.toNat + s.regs.dstCap.toNat ≤ s.addrTop := by
  unfold checkOutput
  split <;> simp_all

theorem Region.meets_eq_false (r q : Region) :
    r.meets q = false ↔ r.len = 0 ∨ q.len = 0 ∨ r.base + r.len ≤ q.base ∨ q.base + q.len ≤ r.base := by
  rw [← Bool.not_eq_true]
  simp only [Region.meets, Bool.and_eq_true, decide_eq_true_eq]
  omega

theorem Region.holds_iff (r : Region) (a : Nat) : r.holds a = true ↔ r.base ≤ a ∧ a < r.base + r.len := by
  simp [Region.holds]

/-- A region meets another exactly when they share an address. -/
theorem Region.meets_iff (r q : Region) : r.meets q = true ↔ ∃ a, q.holds a = true ∧ r.holds a = true := by
  simp only [Region.meets, Region.holds_iff, Bool.and_eq_true, decide_eq_true_eq]
  constructor
  · intro h
    exact ⟨max r.base q.base, by omega, by omega⟩
  · rintro ⟨a, h, k⟩
    omega

theorem touchesDevice_iff (s : State) (r : Region) :
    s.touchesDevice r = true ↔ ∃ a, r.holds a = true ∧ s.isDevice a = true := by
  simp only [State.touchesDevice, State.isDevice, List.any_eq_true, Region.meets_iff]
  constructor
  · rintro ⟨d, hd, a, hr, ha⟩
    exact ⟨a, hr, d, hd, ha⟩
  · rintro ⟨a, hr, d, hd, ha⟩
    exact ⟨d, hd, a, hr, ha⟩

/-- What spoils a command, and nothing else does (70_reset_and_hazards.md R131, 20_memory.md R43, R48). -/
theorem spoiled_iff (i : Instr) (s : State) :
    spoiled i s = true ↔ s.race.tainted = true ∨ (∃ a, a ∈ s.race.inBytes)
      ∨ (usesInput i s = true ∧ ∃ a, s.input.holds a = true ∧ s.isDevice a = true)
      ∨ (usesOutput i = true ∧ ∃ a, s.output.holds a = true ∧ s.isDevice a = true) := by
  have hl : (!s.race.inBytes.isEmpty) = true ↔ ∃ a, a ∈ s.race.inBytes := by
    cases s.race.inBytes <;> simp
  simp only [spoiled, Bool.or_eq_true, Bool.and_eq_true, touchesDevice_iff, hl, or_assoc]

theorem checkOverlap_eq_none (s : State) : checkOverlap s = none ↔ s.input.meets s.output = false := by
  unfold checkOverlap
  split <;> simp_all

/-- The common checks of a command that uses both regions pass exactly when it is ready. -/
theorem checkBoth_eq_none (s : State) : checkBoth s = none ↔ Ready s := by
  simp only [checkBoth, Option.or_eq_none_iff, checkValid_eq_none, checkInput_eq_none, checkOutput_eq_none,
    checkOverlap_eq_none, Region.meets_eq_false]
  constructor
  · rintro ⟨h1, h2, h3, h4⟩
    exact ⟨h1, h2, h3, h4⟩
  · rintro ⟨h1, h2, h3, h4⟩
    exact ⟨h1, h2, h3, h4⟩

/-- A common check that fails raises NotConfigured, AddressRange or BufferOverlap, with information 0. -/
theorem checkBoth_some {s : State} {e : Raised} (h : checkBoth s = some e) :
    e.info = 0 ∧ (e.kind = .notConfigured ∨ e.kind = .addressRange ∨ e.kind = .bufferOverlap) := by
  simp only [checkBoth, checkValid, checkInput, checkOutput, checkOverlap] at h
  split at h
  · split at h
    · split at h
      · split at h
        · simp only [Option.none_or, Option.some.injEq] at h
          simp [← h]
        · simp at h
      · simp only [Option.none_or, Option.some_or, Option.some.injEq] at h
        simp [← h]
    · simp only [Option.none_or, Option.some_or, Option.some.injEq] at h
      simp [← h]
  · simp only [Option.some_or, Option.some.injEq] at h
    simp [← h]

/-! ## Reads of the input region -/

/-- Every byte of the input region that the engine reads is the one memory holds, when nothing disturbs the command. -/
theorem srcByte_undisturbed {i : Instr} {s : State} (hu : Undisturbed i s) (hi : usesInput i s = true) {off : Nat}
    (h : off < s.regs.srcLen.toNat) : srcByte s off = inputByte s off := by
  have hs := hu.notSpoiled
  simp only [spoiled, hi, Bool.true_and, Bool.or_eq_false_iff, Bool.not_eq_false'] at hs
  have hin : s.race.inBytes = [] := List.isEmpty_iff.1 hs.1.1.2
  have hdev : s.isDevice (s.regs.srcAddr.toNat + off) = false := by
    have hm := hs.1.2
    simp only [State.touchesDevice, List.any_eq_false] at hm
    simp only [State.isDevice, List.any_eq_false]
    intro d hd hh
    have hd' : d.meets s.input = false := by simpa using hm d hd
    rw [Region.meets_eq_false] at hd'
    simp only [Region.holds, Bool.and_eq_true, decide_eq_true_eq] at hh
    simp only [State.input] at hd'
    omega
  simp [srcByte, inputByte, hin, hdev, Nat.not_le.2 h]

/-! ## The pixel layouts -/

/-- The width of a variant's samples is the BPP that GEOM gives it to (43_geometry.md R89). -/
theorem varsel_bits {b p : BitVec 8} {v : Variant} (h : varsel b p = some v) : b.toNat = variantBits v := by
  unfold varsel at h
  split at h <;> cases h <;> assumption

/-- Every geometry that GEOM accepts has the width of its variant. -/
theorem FreshGeometry.layoutAgrees {s : State} (h : FreshGeometry s) : layoutAgrees s.regs = true :=
  beq_iff_eq.2 (varsel_bits h.code)

/-- Where BPP is the variant's width, pixels pack into bytes. -/
theorem pixelsPerByte_ne_zero {r : Regs} (h : layoutAgrees r = true) : pixelsPerByte r ≠ 0 := by
  unfold pixelsPerByte
  rw [beq_iff_eq.1 h]
  cases r.variant.code <;> decide

/-- The sample of R95 where BPP is the variant's width. -/
theorem field_agrees {s : State} (h : layoutAgrees s.regs = true) (p y x : Nat) : field s p y x =
    ((srcByte s (dbaddr s.regs p y (x / pixelsPerByte s.regs))).toNat >>> pixelShift s.regs x)
      &&& (2 ^ s.regs.bpp.toNat - 1) :=
  if_pos h

/-- The index check of R105 where BPP is the variant's width. -/
theorem fitIndex_agrees {s : State} (h : layoutAgrees s.regs = true) (site i : Nat) : fitIndex s site i =
    if i < 2 ^ (s.regs.bpp.toNat * s.regs.nplanes.toNat) then some i else none := by
  simp [fitIndex, beq_iff_eq.1 h]

/-- The bytes that PXENC packs where BPP is the variant's width. -/
theorem encByte_agrees {s : State} (h : layoutAgrees s.regs = true) (hv : s.regs.variant.code ≠ .v8x3) (p y j : Nat) :
    encByte s p y j = BitVec.ofNat 8 (packedByte s p y j) := by
  unfold encByte
  split
  · contradiction
  all_goals exact if_pos h

/-! ## Completion -/

theorem complete_ok (i : Instr) (s t : State) : complete i s (.ok t) = completeOk i s t := rfl

theorem complete_error (i : Instr) (s : State) (e : Raised) : complete i s (.error e) = completeErr i s e := rfl

/-- An undisturbed command that ends without error leaves exactly its effect and the bookkeeping of completion. -/
theorem completeOk_undisturbed {i : Instr} {s : State} (hu : Undisturbed i s) (t : State) :
    completeOk i s t = finish i s none t := by
  simp [completeOk, hu.notSpoiled, hu.noRacedOutput]

/-- An undisturbed command that ends with an error leaves R119's state and the bookkeeping of completion. -/
theorem completeErr_undisturbed {i : Instr} {s : State} (hu : Undisturbed i s) (e : Raised) :
    completeErr i s e = finish i s (some e) (loseOutputs i s { s with regs := failedRegs i s }) := by
  simp [completeErr, hu.notSpoiled]

/-- The bookkeeping of a completion without error, of an effect that leaves the model's own fields and HZD alone. -/
theorem finish_completedOk {i : Instr} {s t : State} (hz : t.regs.status.hzd = s.regs.status.hzd) (hh : t.host = s.host)
    (hb : t.busData = s.busData) (hm : t.memData = s.memData) (hc : t.cfg = s.cfg) :
    CompletedOk i s (finish i s none t) where
  status := by simp [statusComplete, hz]
  errInfo := by simp
  pending := rfl
  dec := rfl
  race := rfl
  draws := rfl
  host := hh
  busData := hb
  memData := hm
  cfg := hc

theorem wordOf_fits {use : DrawUse} {tick n : Nat} (h : n < 2 ^ 32) : wordOf use tick n = BitVec.ofNat 32 n :=
  if_pos h

/-- The bookkeeping of a completion with an error. -/
theorem finish_completedErr {i : Instr} {s t : State} {e : Raised} (hz : t.regs.status.hzd = s.regs.status.hzd)
    (hh : t.host = s.host) (hb : t.busData = s.busData) (hm : t.memData = s.memData) (hc : t.cfg = s.cfg) :
    CompletedErr i s (finish i s (some e) t) e where
  status := by simp [statusComplete, hz]
  errInfo h := by simp [wordOf_fits h]
  pending := rfl
  dec := rfl
  race := rfl
  draws := rfl
  host := hh
  busData := hb
  memData := hm
  cfg := hc

@[simp] theorem failedRegs_status (i : Instr) (s : State) : (failedRegs i s).status = s.regs.status := by
  cases i <;> rfl

@[simp] theorem failedRegs_palctl (i : Instr) (s : State) : (failedRegs i s).palctl = s.regs.palctl := by
  cases i <;> rfl

@[simp] theorem failedRegs_cgadesc (i : Instr) (s : State) : (failedRegs i s).cgadesc = s.regs.cgadesc := by
  cases i <;> rfl

/-- A failing command keeps the registers the host writes. -/
theorem failedRegs_keepsInputs (i : Instr) (s : State) : KeepsInputs s { s with regs := failedRegs i s } := by
  cases i <;> constructor <;> rfl

/-- What a spoiled command's registers may be: everything but GEOM's and PALRES's registers is kept. -/
theorem spoilRegs_mem (i : Instr) (s t : State) : (spoilRegs i s t).mem = t.mem := by
  cases i <;> rfl

theorem spoilRegs_other (i : Instr) (s t : State) :
    (spoilRegs i s t).host = t.host ∧ (spoilRegs i s t).busData = t.busData ∧ (spoilRegs i s t).memData = t.memData
      ∧ (spoilRegs i s t).cfg = t.cfg ∧ (spoilRegs i s t).regs.status = t.regs.status := by
  cases i <;> exact ⟨rfl, rfl, rfl, rfl, rfl⟩

theorem spoilRegs_keepsInputs (i : Instr) (s t : State) : KeepsInputs t (spoilRegs i s t) := by
  cases i <;> constructor <;> rfl

/-- The bytes of the output region that exist lie inside it, and below the top of memory. -/
theorem outRoom_le (s : State) : s.outRoom ≤ s.regs.dstCap.toNat := Nat.min_le_left _ _

theorem outRoom_below (s : State) : s.outRoom = 0 ∨ s.regs.dstAddr.toNat + s.outRoom ≤ s.addrTop := by
  unfold State.outRoom
  omega

theorem outRoom_ready {s : State} (h : s.regs.dstAddr.toNat + s.regs.dstCap.toNat ≤ s.addrTop) :
    s.outRoom = s.regs.dstCap.toNat := by
  unfold State.outRoom
  omega

/-! ## Palettes -/

theorem palramWrite_get (old : Vector PalEntry 256) (n : Nat) (f : Nat → Rgb) (k : Nat) (h : k < 256) :
    (palramWrite old n f)[k] = if k < n then .written (f k) else old[k] := by
  simp [palramWrite]

theorem clampPalLen_le (n : BitVec 9) : clampPalLen n ≤ 256#9 := by
  unfold clampPalLen
  split
  · assumption
  · exact BitVec.le_refl _

end Sys2Proof.Machine
end

