-- ==== Sys2Proof/Laws/Effect.lean ====
section
/-! SUPPORT. What each command can do, said once: the effect of its rule when it ends without error, the error it raises when
not, and that exec is the completion of that outcome. Claims over all commands start here. -/

namespace Sys2Proof.Machine

/-- What the rule of a command that ends without error may change: RESULT, the bytes of its output region, and for GEOM and
PALRES the registers they write. -/
structure Effect (i : Instr) (s t : State) : Prop where
  pending : t.pending = s.pending
  dec : t.dec = s.dec
  race : t.race = s.race
  host : t.host = s.host
  busData : t.busData = s.busData
  memData : t.memData = s.memData
  cfg : t.cfg = s.cfg
  draws : t.draws = s.draws
  status : t.regs.status = s.regs.status
  errInfo : t.regs.errInfo = s.regs.errInfo
  inputs : KeepsInputs s t
  geometry : i ≠ .geom → KeepsGeometry s t
  palette : i ≠ .palres → KeepsPalette s t
  palLen : s.regs.palctl.palLen ≤ 256#9 → t.regs.palctl.palLen ≤ 256#9
  noOutput : usesOutput i = false → t.mem = s.mem
  output : ∀ a, (a < s.regs.dstAddr.toNat ∨ s.regs.dstAddr.toNat + s.outRoom ≤ a) → t.mem.read a = s.mem.read a
  memWf : s.mem.wf → t.mem.wf
  memBelow : s.mem.below s.addrTop → t.mem.below s.addrTop

/-- The effect of a command that only writes `n` bytes of its output region and RESULT. -/
theorem Effect.ofFill {i : Instr} (s : State) {n : Nat} (f : Nat → Byte) (w : Word) (hi : usesOutput i = true)
    (hn : n ≤ s.outRoom) :
    Effect i s { s with mem := s.mem.fill s.regs.dstAddr.toNat n f, regs := { s.regs with result := w } } where
  pending := rfl
  dec := rfl
  race := rfl
  host := rfl
  busData := rfl
  memData := rfl
  cfg := rfl
  draws := rfl
  status := rfl
  errInfo := rfl
  inputs := by constructor <;> rfl
  geometry _ := ⟨rfl, rfl⟩
  palette _ := ⟨rfl, rfl, rfl⟩
  palLen h := h
  noOutput h := by rw [hi] at h; cases h
  output a ha := Memory.read_fill_outside _ _ (by omega)
  memWf h := Memory.wf_fill _ _ _ h
  memBelow h := Memory.below_fill _ h (by have := outRoom_below s; omega)

/-- The effect of a command that changes registers only. -/
theorem Effect.ofRegs {i : Instr} {s t : State} (hr : t = { s with regs := t.regs, palram := t.palram })
    (hs : t.regs.status = s.regs.status) (he : t.regs.errInfo = s.regs.errInfo) (hk : KeepsInputs s t)
    (hg : i ≠ .geom → KeepsGeometry s t) (hp : i ≠ .palres → KeepsPalette s t)
    (hl : s.regs.palctl.palLen ≤ 256#9 → t.regs.palctl.palLen ≤ 256#9) : Effect i s t where
  pending := by rw [hr]
  dec := by rw [hr]
  race := by rw [hr]
  host := by rw [hr]
  busData := by rw [hr]
  memData := by rw [hr]
  cfg := by rw [hr]
  draws := by rw [hr]
  status := hs
  errInfo := he
  inputs := hk
  geometry := hg
  palette := hp
  palLen := hl
  noOutput _ := by rw [hr]
  output a _ := by rw [hr]
  memWf h := by rw [hr]; exact h
  memBelow h := by rw [hr]; exact h

/-- The kinds of error that commands raise: all but the three that are allocated and never raised (60_exceptions.md R115). -/
def raisedKinds : List ErrKind :=
  [.unsupportedFormat, .paletteMarkerMissing, .paletteSizeMismatch, .colorNotInPalette, .illegalCommand, .notConfigured,
   .geometryUnsupported, .inputExhausted, .destOverflow, .bufferOverlap, .addressRange]

theorem errCode_produced {k : ErrKind} (h : k ∈ raisedKinds) : errCode k ∈ producedCodes := by
  revert h
  cases k <;> decide

/-- An outcome of a command's rule: an effect, or an error of a kind that is raised. -/
def OutcomeOf (i : Instr) (s : State) (o : Except Raised State) : Prop :=
  match o with
  | .ok t => Effect i s t
  | .error e => e.kind ∈ raisedKinds

theorem checkBoth_kind {s : State} {e : Raised} (h : checkBoth s = some e) : e.kind ∈ raisedKinds := by
  rcases (checkBoth_some h).2 with h | h | h <;> simp [h, raisedKinds]

theorem checkValid_kind {s : State} {e : Raised} (h : checkValid s = some e) : e.kind ∈ raisedKinds := by
  unfold checkValid at h
  split at h <;> simp at h
  simp [← h, raisedKinds]

theorem checkInput_kind {s : State} {e : Raised} (h : checkInput s = some e) : e.kind ∈ raisedKinds := by
  unfold checkInput at h
  split at h <;> simp at h
  simp [← h, raisedKinds]

theorem checkOutput_kind {s : State} {e : Raised} (h : checkOutput s = some e) : e.kind ∈ raisedKinds := by
  unfold checkOutput at h
  split at h <;> simp at h
  simp [← h, raisedKinds]

/-! ## One lemma per command -/

theorem nop_outcome (s : State) : OutcomeOf .nop s (.ok { s with regs := { s.regs with result := 0#32 } }) :=
  Effect.ofRegs rfl rfl rfl (by constructor <;> rfl) (fun _ => ⟨rfl, rfl⟩) (fun _ => ⟨rfl, rfl, rfl⟩) id

theorem geom_outcome (s : State) : OutcomeOf .geom s (performGeom s) := by
  unfold performGeom
  cases varsel s.regs.bpp s.regs.nplanes with
  | none => simp [OutcomeOf, raisedKinds]
  | some code =>
    dsimp only
    split
    · simp [OutcomeOf, raisedKinds]
    · split
      · simp [OutcomeOf, raisedKinds]
      · exact Effect.ofRegs rfl rfl rfl (by constructor <;> rfl) (fun h => absurd rfl h) (fun _ => ⟨rfl, rfl, rfl⟩) id

theorem setPalette_effect (s : State) (d : CgaDesc) {n : Nat} (f : Nat → Rgb) (p : PalPath) (b : Bool) (hn : n ≤ 256) :
    Effect .palres s (setPalette { s with regs := { s.regs with cgadesc := d } } n f p b) :=
  Effect.ofRegs rfl rfl rfl (by constructor <;> rfl) (fun _ => ⟨rfl, rfl⟩) (fun h => absurd rfl h) (fun _ => by
    show BitVec.ofNat 9 n ≤ 256#9
    rw [BitVec.le_def, BitVec.toNat_ofNat]
    simp only [BitVec.toNat_ofNat]
    omega)

theorem paletteCount_le (s : State) : paletteCount s ≤ 256 := by
  have h4 : 2 ^ min s.regs.nplanes.toNat 4 ≤ 2 ^ 4 := Nat.pow_le_pow_right (by decide) (Nat.min_le_right _ _)
  unfold paletteCount
  split <;> omega

theorem palresTrailer_outcome (s : State) : OutcomeOf .palres s (palresTrailer s) := by
  unfold palresTrailer
  cases h : checkInput s with
  | some e => exact checkInput_kind h
  | none =>
    dsimp only
    split
    · simp [OutcomeOf, raisedKinds]
    · split
      · simp [OutcomeOf, raisedKinds]
      · exact setPalette_effect s s.regs.cgadesc _ _ _ (Nat.le_refl _)

theorem palres_outcome (s : State) : OutcomeOf .palres s (performPalres s) := by
  unfold performPalres
  cases h : checkValid s with
  | some e => exact checkValid_kind h
  | none =>
    have planar : OutcomeOf .palres s (.ok (palresPlanar s)) := by
      unfold palresPlanar
      split
      · exact setPalette_effect s s.regs.cgadesc _ _ _ (paletteCount_le s)
      · exact setPalette_effect s s.regs.cgadesc _ _ _ (paletteCount_le s)
    cases s.regs.variant.code with
    | v1x1 => exact setPalette_effect s s.regs.cgadesc _ _ _ (by decide)
    | v2x1 =>
      show OutcomeOf .palres s (.ok (palresCga s))
      unfold palresCga
      dsimp only
      split
      · exact setPalette_effect s (cgaOfHeader s.regs) _ _ _ (by decide)
      · exact setPalette_effect s (cgaOfHeader s.regs) _ _ _ (by decide)
    | v1x2 => exact planar
    | v1x3 => exact planar
    | v1x4 => exact planar
    | v4x1 => exact setPalette_effect s s.regs.cgadesc _ _ _ (by decide)
    | v8x1 => exact palresTrailer_outcome s
    | v8x3 => exact setPalette_effect s s.regs.cgadesc _ _ _ (by decide)

/-- What a PALRES that ends without error keeps of the palette: the entries past its count, and CGADESC but on V2x1
(42_palette_mux.md R80 to R86). -/
theorem palres_keeps {s t : State} (h : performPalres s = .ok t) :
    (∀ k (hk : k < 256), paletteCount s ≤ k → t.palram[k] = s.palram[k])
      ∧ (s.regs.variant.code ≠ .v2x1 → t.regs.cgadesc = s.regs.cgadesc) := by
  have entries : ∀ (u : State) n f p b k (hk : k < 256), n ≤ k → (setPalette u n f p b).palram[k] = u.palram[k] := by
    intro u n f p b k hk hn
    rw [setPalette, palramWrite_get, if_neg (Nat.not_lt.2 hn)]
  unfold performPalres at h
  split at h
  · cases h
  · cases hv : s.regs.variant.code <;> simp only [hv] at h
    case v8x1 =>
      refine ⟨fun k hk hn => ?_, fun _ => ?_⟩
      · simp [paletteCount, hv] at hn
        omega
      · unfold palresTrailer at h
        dsimp only at h
        split at h
        · cases h
        · split at h
          · cases h
          · split at h <;> cases h
            rfl
    case v2x1 =>
      cases h
      refine ⟨fun k hk hn => ?_, fun hn => absurd rfl hn⟩
      simp only [paletteCount, hv] at hn
      unfold palresCga
      dsimp only
      split <;> exact entries _ _ _ _ _ k hk hn
    case v1x2 | v1x3 | v1x4 =>
      cases h
      refine ⟨fun k hk hn => ?_, fun _ => ?_⟩ <;> unfold palresPlanar <;> split
      · exact entries _ _ _ _ _ k hk hn
      · exact entries _ _ _ _ _ k hk hn
      · rfl
      · rfl
    all_goals
      cases h
      refine ⟨fun k hk hn => ?_, fun _ => rfl⟩
      simp only [paletteCount, hv] at hn
      exact entries _ _ _ _ _ k hk hn

theorem palser_outcome (s : State) : OutcomeOf .palser s (performPalser s) := by
  unfold performPalser
  cases h : (checkValid s).or (checkOutput s) with
  | some e =>
    cases hv : checkValid s with
    | some e' =>
      rw [hv] at h
      simp only [Option.some_or, Option.some.injEq] at h
      exact h ▸ checkValid_kind hv
    | none =>
      rw [hv, Option.none_or] at h
      exact checkOutput_kind h
  | none =>
    simp only [Option.or_eq_none_iff, checkOutput_eq_none] at h
    have := outRoom_ready h.2
    dsimp only
    split
    · simp [OutcomeOf, raisedKinds]
    · exact Effect.ofFill s _ _ rfl (by omega)

theorem writeTokens_outcome {i : Instr} (s : State) (tokens : List Byte) (hi : usesOutput i = true) (h : Ready s) :
    OutcomeOf i s (writeTokens s tokens) := by
  unfold writeTokens
  have := outRoom_ready h.outputInside
  split
  · simp [OutcomeOf, raisedKinds]
  · exact Effect.ofFill s _ _ hi (by omega)

theorem rlee_outcome (s : State) : OutcomeOf .rlee s (performRlee s) := by
  unfold performRlee
  cases h : checkBoth s with
  | some e => exact checkBoth_kind h
  | none =>
    dsimp only
    split
    · simp [OutcomeOf, raisedKinds]
    · exact writeTokens_outcome s _ rfl ((checkBoth_eq_none s).1 h)

theorem rleeb_outcome (s : State) : OutcomeOf .rleeb s (performRleeb s) := by
  unfold performRleeb
  cases h : checkBoth s with
  | some e => exact checkBoth_kind h
  | none =>
    dsimp only
    split
    · simp [OutcomeOf, raisedKinds]
    · exact writeTokens_outcome s _ rfl ((checkBoth_eq_none s).1 h)

/-- The decoder fails only with InputExhausted. -/
theorem decodeLoop_error {s : State} {g : LineGeometry} {fuel : Nat} {c : Cursor} {e : Raised}
    (h : decodeLoop s g fuel c = .error e) : e.kind = .inputExhausted := by
  induction fuel generalizing c with
  | zero =>
    simp only [decodeLoop] at h
    split at h <;> cases h
    rfl
  | succ fuel ih =>
    simp only [decodeLoop] at h
    split at h
    · split at h
      · cases h
        rfl
      · split at h
        · cases h
          exact ih ‹_›
        · cases h
    · cases h

theorem rled_outcome (s : State) : OutcomeOf .rled s (performRled s) := by
  unfold performRled
  cases h : checkBoth s with
  | some e => exact checkBoth_kind h
  | none =>
    dsimp only
    split
    · simp [OutcomeOf, raisedKinds]
    · cases hd : decodeLoop s (lineGeometry s) (s.regs.srcLen.toNat + 1) Cursor.start with
      | error e => simp [OutcomeOf, raisedKinds, decodeLoop_error hd]
      | ok out =>
        exact Effect.ofFill s _ _ rfl (Nat.min_le_right _ _)

theorem pxdec_outcome (s : State) : OutcomeOf .pxdec s (performPxdec s) := by
  unfold performPxdec
  cases h : checkBoth s with
  | some e => exact checkBoth_kind h
  | none =>
    have := outRoom_ready ((checkBoth_eq_none s).1 h).outputInside
    dsimp only
    split
    · simp [OutcomeOf, raisedKinds]
    · split
      · simp [OutcomeOf, raisedKinds]
      · exact Effect.ofFill s _ _ rfl (by omega)

theorem pxenc_outcome (s : State) : OutcomeOf .pxenc s (performPxenc s) := by
  unfold performPxenc
  cases h : checkBoth s with
  | some e => exact checkBoth_kind h
  | none =>
    have := outRoom_ready ((checkBoth_eq_none s).1 h).outputInside
    dsimp only
    split
    · simp [OutcomeOf, raisedKinds]
    · split
      · simp [OutcomeOf, raisedKinds]
      · cases firstUnknownPixel s with
        | some k => simp [OutcomeOf, raisedKinds]
        | none => exact Effect.ofFill s _ _ rfl (by omega)

/-- `perform` of 60_exceptions.md R117: the outcome of a command's rule. A body token has none, and stands for NOP's here. -/
def perform (i : Instr) (s : State) : Except Raised State :=
  match i with
  | .nop => .ok { s with regs := { s.regs with result := 0#32 } }
  | .geom => performGeom s
  | .palres => performPalres s
  | .rled => performRled s
  | .rlee => performRlee s
  | .rleeb => performRleeb s
  | .pxdec => performPxdec s
  | .pxenc => performPxenc s
  | .palser => performPalser s
  | .illegal w => .error ⟨.illegalCommand, w.toNat⟩
  | .rleRun _ _ | .rleEscapedLiteral _ | .rleLiteral _ => .ok { s with regs := { s.regs with result := 0#32 } }

/-- Every command completes: exec answers the completion of the outcome of its rule. -/
theorem exec_command {i : Instr} (s : State) (hi : i.isCommand = true) :
    exec i s = .next (complete i s (perform i s)) := by
  cases i <;> first | rfl | cases hi

theorem perform_outcome {i : Instr} (s : State) (hi : i.isCommand = true) : OutcomeOf i s (perform i s) := by
  cases i with
  | nop => exact nop_outcome s
  | geom => exact geom_outcome s
  | palres => exact palres_outcome s
  | rled => exact rled_outcome s
  | rlee => exact rlee_outcome s
  | rleeb => exact rleeb_outcome s
  | pxdec => exact pxdec_outcome s
  | pxenc => exact pxenc_outcome s
  | palser => exact palser_outcome s
  | illegal w => simp [perform, OutcomeOf, raisedKinds]
  | rleRun _ _ => cases hi
  | rleEscapedLiteral _ => cases hi
  | rleLiteral _ => cases hi

/-- What every completion leaves, whatever the outcome and whatever disturbed the command (60_exceptions.md R117, R119,
70_reset_and_hazards.md R131). -/
structure Completion (i : Instr) (s : State) (o : Except Raised State) (t : State) : Prop where
  pending : t.pending = none
  dec : t.dec = none
  race : t.race = Race.clean
  draws : t.draws = s.draws + 1
  host : t.host = s.host
  busData : t.busData = s.busData
  memData : t.memData = s.memData
  cfg : t.cfg = s.cfg
  done : t.regs.status.done = true
  hzd : t.regs.status.hzd = s.regs.status.hzd
  lastOp : t.regs.status.lastOp = opcode i
  ok : ∀ u, o = .ok u → t.regs.status.err = false ∧ t.regs.status.errCode = 0x00#8 ∧ t.regs.errInfo = 0#32
  error : ∀ e, o = .error e → t.regs.status.err = true ∧ t.regs.status.errCode = errCode e.kind
    ∧ t.regs.errInfo = wordOf .errInfo s.draws e.info
  inputs : KeepsInputs s t
  geometry : i ≠ .geom → KeepsGeometry s t
  palette : i ≠ .palres → KeepsPalette s t
  outside : ∀ a, (a < s.regs.dstAddr.toNat ∨ s.regs.dstAddr.toNat + s.outRoom ≤ a) → a ∉ s.race.outBytes →
    t.mem.read a = s.mem.read a
  noOutput : usesOutput i = false → s.race.outBytes = [] → t.mem = s.mem

theorem KeepsInputs.trans {s t u : State} (h : KeepsInputs s t) (k : KeepsInputs t u) : KeepsInputs s u := by
  constructor <;> simp [k.irqEn, k.srcAddr, k.srcLen, k.dstAddr, k.dstCap, k.width, k.height, k.bpp, k.nplanes, k.bplo,
    k.version, k.hpal, h.irqEn, h.srcAddr, h.srcLen, h.dstAddr, h.dstCap, h.width, h.height, h.bpp, h.nplanes, h.bplo,
    h.version, h.hpal]

theorem spoilRegs_geometry {i : Instr} (hi : i ≠ .geom) (s t : State) : KeepsGeometry t (spoilRegs i s t) := by
  cases i <;> first | exact absurd rfl hi | exact ⟨rfl, rfl⟩

theorem spoilRegs_palette {i : Instr} (hi : i ≠ .palres) (s t : State) : KeepsPalette t (spoilRegs i s t) := by
  cases i <;> first | exact absurd rfl hi | exact ⟨rfl, rfl, rfl⟩

theorem failedRegs_geometry {i : Instr} (hi : i ≠ .geom) (s : State) :
    KeepsGeometry s { s with regs := failedRegs i s } := by
  cases i <;> first | exact absurd rfl hi | exact ⟨rfl, rfl⟩

theorem loseOutputs_outside (i : Instr) (s t : State) {a : Nat}
    (h : a < s.regs.dstAddr.toNat ∨ s.regs.dstAddr.toNat + s.outRoom ≤ a) :
    (loseOutputs i s t).mem.read a = t.mem.read a := by
  unfold loseOutputs
  dsimp only
  split
  · exact Memory.read_havoc_outside _ _ h
  · rfl

theorem loseOutputs_noOutput {i : Instr} (hi : usesOutput i = false) (s t : State) :
    (loseOutputs i s t).mem = t.mem := by
  simp [loseOutputs, hi]

/-- The completion of an effect that keeps what it must, before the bookkeeping. -/
theorem finish_completion {i : Instr} {s t : State} (oc : Option Raised) (o : Except Raised State)
    (hoc : oc = match o with | .ok _ => none | .error e => some e)
    (hz : t.regs.status.hzd = s.regs.status.hzd) (hh : t.host = s.host) (hb : t.busData = s.busData)
    (hm : t.memData = s.memData) (hc : t.cfg = s.cfg) (hk : KeepsInputs s t) (hg : i ≠ .geom → KeepsGeometry s t)
    (hp : i ≠ .palres → KeepsPalette s t)
    (ho : ∀ a, (a < s.regs.dstAddr.toNat ∨ s.regs.dstAddr.toNat + s.outRoom ≤ a) → a ∉ s.race.outBytes →
      t.mem.read a = s.mem.read a)
    (hn : usesOutput i = false → s.race.outBytes = [] → t.mem = s.mem) : Completion i s o (finish i s oc t) where
  pending := rfl
  dec := rfl
  race := rfl
  draws := rfl
  host := hh
  busData := hb
  memData := hm
  cfg := hc
  done := rfl
  hzd := hz
  lastOp := rfl
  ok u hu := by
    subst hu
    subst hoc
    exact ⟨rfl, rfl, rfl⟩
  error e he := by
    subst he
    subst hoc
    exact ⟨rfl, rfl, rfl⟩
  inputs := ⟨hk.1, hk.2, hk.3, hk.4, hk.5, hk.6, hk.7, hk.8, hk.9, hk.10, hk.11, hk.12⟩
  geometry h := ⟨(hg h).1, (hg h).2⟩
  palette h := ⟨(hp h).1, (hp h).2, (hp h).3⟩
  outside := ho
  noOutput := hn

theorem complete_completion {i : Instr} {s : State} {o : Except Raised State} (ho : OutcomeOf i s o) :
    Completion i s o (complete i s o) := by
  cases o with
  | ok t =>
    have ht : Effect i s t := ho
    rw [complete_ok, completeOk]
    have hs := spoilRegs_other i s t
    split
    · refine finish_completion _ _ rfl ?_ (hs.1.trans ht.host) (hs.2.1.trans ht.busData) (hs.2.2.1.trans ht.memData)
        (hs.2.2.2.1.trans ht.cfg) ?_ ?_ ?_ ?_ ?_
      · show (spoilRegs i s t).regs.status.hzd = _
        rw [hs.2.2.2.2, ht.status]
      · have h := ht.inputs.trans (spoilRegs_keepsInputs i s t)
        exact ⟨h.1, h.2, h.3, h.4, h.5, h.6, h.7, h.8, h.9, h.10, h.11, h.12⟩
      · intro hi
        have h := spoilRegs_geometry hi s t
        exact ⟨h.1.trans (ht.geometry hi).1, h.2.trans (ht.geometry hi).2⟩
      · intro hi
        have h := spoilRegs_palette hi s t
        exact ⟨h.1.trans (ht.palette hi).1, h.2.trans (ht.palette hi).2, h.3.trans (ht.palette hi).3⟩
      · intro a ha _
        rw [loseOutputs_outside i s _ ha, spoilRegs_mem]
        exact ht.output a ha
      · intro hn _
        rw [loseOutputs_noOutput hn, spoilRegs_mem]
        exact ht.noOutput hn
    · refine finish_completion _ _ rfl (by rw [ht.status]) ht.host ht.busData ht.memData ht.cfg ?_ ?_ ?_ ?_ ?_
      · have h := ht.inputs
        exact ⟨h.1, h.2, h.3, h.4, h.5, h.6, h.7, h.8, h.9, h.10, h.11, h.12⟩
      · exact fun hi => ⟨(ht.geometry hi).1, (ht.geometry hi).2⟩
      · exact fun hi => ⟨(ht.palette hi).1, (ht.palette hi).2, (ht.palette hi).3⟩
      · intro a ha hr
        show (t.mem.havocEach s.draws s.race.outBytes).read a = _
        rw [Memory.read_havocEach, if_neg hr]
        exact ht.output a ha
      · intro hn he
        show t.mem.havocEach s.draws s.race.outBytes = _
        rw [he]
        exact ht.noOutput hn
  | error e =>
    rw [complete_error, completeErr]
    have hk : ∀ u : State, u = (if spoiled i s then spoilRegs i s { s with regs := failedRegs i s }
        else { s with regs := failedRegs i s }) →
        u.regs.status.hzd = s.regs.status.hzd ∧ u.host = s.host ∧ u.busData = s.busData ∧ u.memData = s.memData
          ∧ u.cfg = s.cfg ∧ KeepsInputs s u ∧ (i ≠ .geom → KeepsGeometry s u) ∧ (i ≠ .palres → KeepsPalette s u)
          ∧ u.mem = s.mem := by
      intro u hu
      have hp : KeepsPalette s { s with regs := failedRegs i s } := ⟨rfl, failedRegs_palctl i s, failedRegs_cgadesc i s⟩
      split at hu <;> subst hu
      · have hs := spoilRegs_other i s { s with regs := failedRegs i s }
        refine ⟨?_, hs.1, hs.2.1, hs.2.2.1, hs.2.2.2.1, (failedRegs_keepsInputs i s).trans (spoilRegs_keepsInputs i s _),
          fun hi => ?_, fun hi => ?_, spoilRegs_mem _ _ _⟩
        · rw [hs.2.2.2.2]
          simp
        · have h := spoilRegs_geometry hi s { s with regs := failedRegs i s }
          have g := failedRegs_geometry hi s
          exact ⟨h.1.trans g.1, h.2.trans g.2⟩
        · have h := spoilRegs_palette hi s { s with regs := failedRegs i s }
          exact ⟨h.1.trans hp.1, h.2.trans hp.2, h.3.trans hp.3⟩
      · exact ⟨by simp, rfl, rfl, rfl, rfl, failedRegs_keepsInputs i s, fun hi => failedRegs_geometry hi s, fun _ => hp, rfl⟩
    obtain ⟨h1, h2, h3, h4, h5, h6, h7, h8, h9⟩ := hk _ rfl
    refine finish_completion _ _ rfl h1 h2 h3 h4 h5
      ⟨h6.1, h6.2, h6.3, h6.4, h6.5, h6.6, h6.7, h6.8, h6.9, h6.10, h6.11, h6.12⟩
      (fun hi => ⟨(h7 hi).1, (h7 hi).2⟩) (fun hi => ⟨(h8 hi).1, (h8 hi).2, (h8 hi).3⟩) ?_ ?_
    · intro a ha _
      rw [loseOutputs_outside i s _ ha, h9]
    · intro hn _
      rw [loseOutputs_noOutput hn, h9]

/-- What memory reads as once the outputs of a command are lost: free values in the bytes of its output region that exist, the
old bytes elsewhere. -/
theorem loseOutputs_read {i : Instr} {s t : State} (a : Nat)
    (ht : ∀ a, (a < s.regs.dstAddr.toNat ∨ s.regs.dstAddr.toNat + s.outRoom ≤ a) → t.mem.read a = s.mem.read a)
    (hn : usesOutput i = false → t.mem = s.mem) :
    (loseOutputs i s t).mem.read a =
      if usesOutput i = true ∧ s.regs.dstAddr.toNat ≤ a ∧ a < s.regs.dstAddr.toNat + s.regs.dstCap.toNat ∧ a < s.addrTop
      then Config.free 8 .memByte s.draws a else s.mem.read a := by
  unfold loseOutputs
  dsimp only
  by_cases hu : usesOutput i = true
  · rw [if_pos hu, Memory.read_havoc]
    by_cases hin : s.regs.dstAddr.toNat ≤ a ∧ a < s.regs.dstAddr.toNat + s.outRoom
    · have h2 := hin.2
      unfold State.outRoom at h2
      rw [if_pos hin, if_pos ⟨hu, hin.1, by omega, by omega⟩]
    · rw [if_neg hin, if_neg, ht a (by omega)]
      rintro ⟨_, h1, h2, h3⟩
      apply hin
      unfold State.outRoom
      omega
  · rw [if_neg hu, if_neg (fun h => hu h.1), hn (by simpa using hu)]

/-- A spoiled command completes: its registers as `spoilRegs` leaves them, its outputs lost (70_reset_and_hazards.md R131). -/
theorem exec_spoiled {i : Instr} {s : State} (hi : i.isCommand = true) (hs : spoiled i s = true) :
    ∃ t u oc, exec i s = .next t ∧ t = finish i s oc (loseOutputs i s (spoilRegs i s u)) ∧ Completion i s (perform i s) t
      ∧ (i ≠ .geom → KeepsGeometry s u) ∧ (i ≠ .palres → KeepsPalette s u)
      ∧ (∀ k (h : k < 256), paletteCount s ≤ k → u.palram[k] = s.palram[k])
      ∧ (s.regs.variant.code ≠ .v2x1 → u.regs.cgadesc = s.regs.cgadesc)
      ∧ ∀ a, t.mem.read a =
        if usesOutput i = true ∧ s.regs.dstAddr.toNat ≤ a ∧ a < s.regs.dstAddr.toNat + s.regs.dstCap.toNat ∧ a < s.addrTop
        then Config.free 8 .memByte s.draws a else s.mem.read a := by
  have ho := perform_outcome s hi
  have hc := complete_completion ho
  cases hp : perform i s with
  | ok u =>
    rw [hp] at ho hc
    rw [complete_ok, completeOk, if_pos hs] at hc
    have he : Effect i s u := ho
    refine ⟨_, u, none, ?_, rfl, hc, he.geometry, he.palette, ?_, ?_, fun a => ?_⟩
    · rw [exec_command s hi, hp, complete_ok, completeOk, if_pos hs]
    · intro k h hk
      by_cases hi : i = .palres
      · subst hi
        exact (palres_keeps hp).1 k h hk
      · rw [(he.palette hi).palram]
    · intro hv
      by_cases hi : i = .palres
      · subst hi
        exact (palres_keeps hp).2 hv
      · exact (he.palette hi).cgadesc
    · exact loseOutputs_read a (by rw [spoilRegs_mem]; exact he.output) (by rw [spoilRegs_mem]; exact he.noOutput)
  | error e =>
    rw [hp] at hc
    rw [complete_error, completeErr, if_pos hs] at hc
    refine ⟨_, { s with regs := failedRegs i s }, some e, ?_, rfl, hc, fun h => failedRegs_geometry h s,
      fun _ => ⟨rfl, failedRegs_palctl i s, failedRegs_cgadesc i s⟩, fun _ _ _ => rfl, fun _ => failedRegs_cgadesc i s,
      fun a => ?_⟩
    · rw [exec_command s hi, hp, complete_error, completeErr, if_pos hs]
    · exact loseOutputs_read a (by rw [spoilRegs_mem]; exact fun _ _ => rfl) (by rw [spoilRegs_mem]; exact fun _ => rfl)

/-- An undisturbed command whose rule ends without error answers that effect and the bookkeeping of completion. -/
theorem exec_ok_undisturbed {i : Instr} {s t : State} (hi : i.isCommand = true) (hu : Undisturbed i s)
    (hp : perform i s = .ok t) :
    exec i s = .next (finish i s none t) ∧ CompletedOk i s (finish i s none t) := by
  have ho := perform_outcome s hi
  rw [hp] at ho
  refine ⟨by rw [exec_command s hi, hp, complete_ok, completeOk_undisturbed hu], ?_⟩
  exact finish_completedOk (by rw [Effect.status ho]) (Effect.host ho) (Effect.busData ho) (Effect.memData ho)
    (Effect.cfg ho)

/-- An undisturbed command whose rule raises an error ends with it, and leaves what 60_exceptions.md R119 says. -/
theorem exec_error_undisturbed {i : Instr} {s : State} {e : Raised} (hi : i.isCommand = true) (hu : Undisturbed i s)
    (hp : perform i s = .error e) : EndsWithError i s e := by
  refine ⟨_, exec_command s hi, ?_, ?_⟩ <;> rw [hp, complete_error, completeErr_undisturbed hu]
  · apply finish_completedErr <;> simp [loseOutputs]
  · refine ⟨fun h a h1 h2 h3 => ?_, fun a ha => ?_, fun h => ?_, rfl, fun h => ?_, fun h => ?_, ?_, ?_⟩
    · exact (loseOutputs_read (s := s) (t := { s with regs := failedRegs i s }) a (fun _ _ => rfl) (fun _ => rfl)).trans
        (if_pos ⟨h, h1, h2, h3⟩)
    · exact loseOutputs_outside i s { s with regs := failedRegs i s } (by have := outRoom_le s; omega)
    · intro a
      show (loseOutputs i s { s with regs := failedRegs i s }).mem.read a = _
      rw [loseOutputs_noOutput h]
    · subst h
      exact ⟨rfl, rfl⟩
    · have := failedRegs_geometry h s
      exact ⟨this.1, this.2⟩
    · exact ⟨rfl, by simp [loseOutputs], by simp [loseOutputs]⟩
    · have h := failedRegs_keepsInputs i s
      exact ⟨h.1, h.2, h.3, h.4, h.5, h.6, h.7, h.8, h.9, h.10, h.11, h.12⟩

/-- Every word of CMD is a command. -/
theorem decodeCommand_isCommand (w : Word) : (decodeCommand w).isCommand = true := by
  unfold decodeCommand
  split <;> rfl

/-- The state a token leaves, when a decode is under way. -/
def tokenResult (s : State) (c : Cursor) (len n : Nat) (v : Byte) : State :=
  { s with
    mem := s.mem.fill (s.regs.dstAddr.toNat + c.o)
      (min (tokenEffect (lineGeometry s) len n v c).1.length (s.outRoom - c.o))
      (fun k => (tokenEffect (lineGeometry s) len n v c).1.getD k 0#8)
    dec := some (tokenEffect (lineGeometry s) len n v c).2 }

/-- What a token does, in full. -/
theorem runToken_cases (s : State) (len n : Nat) (v : Byte) :
    (s.dec = none ∧ runToken s len n v = .fault .tokenOutsideBody) ∨
      ∃ c, s.dec = some c ∧ runToken s len n v = .next (tokenResult s c len n v) := by
  cases h : s.dec with
  | none => exact .inl ⟨rfl, by simp [runToken, h]⟩
  | some c => exact .inr ⟨c, rfl, by simp [runToken, h, tokenResult]⟩

end Sys2Proof.Machine
end

