-- ==== Sys2Proof/Laws/Host.lean ====
section
/-! SUPPORT. What a host write can do, said once: the hazard, the write of CTRL, and the write of a register while nothing is
pending. -/

namespace Sys2Proof.Machine

/-- The words of the window above the named registers (10_state.md R16). -/
theorem regOfIndex_high {k : Nat} (h : 19 ≤ k) : regOfIndex k =
    if h : k < 31 then some (.hpal ⟨k - 19, by omega⟩)
    else if h : 256 ≤ k ∧ k < 512 then some (.palram ⟨k - 256, by omega⟩)
    else if k < 256 then some .reserved
    else none := by
  unfold regOfIndex
  split <;> try omega
  simp [h]

/-- The window has 512 words (10_state.md R14). -/
theorem regOfIndex_none (k : Nat) : regOfIndex k = none ↔ 512 ≤ k := by
  by_cases h : 19 ≤ k
  · rw [regOfIndex_high h]
    split
    · simp
      omega
    · split
      · simp
        omega
      · split
        · simp
          omega
        · simp
          omega
  · have low : ∀ j : Fin 19, regOfIndex j.val ≠ none := by decide
    constructor
    · intro hk
      exact absurd hk (low ⟨k, by omega⟩)
    · omega

theorem busy_iff (s : State) : s.busy = true ↔ ∃ w, s.pending = some w := by
  simp [State.busy, Option.isSome_iff_exists]

theorem busy_eq_false (s : State) : s.busy = false ↔ s.pending = none := by
  simp [State.busy]

theorem hostWrite_idle {s : State} (h : s.busy = false) (r : Reg) (w : Word) : hostWrite s r w = writeReg s r w := by
  simp [hostWrite, h]

theorem hostWrite_ctrl (s : State) (w : Word) : hostWrite s .ctrl w = writeCtrl w s := by
  unfold hostWrite
  split <;> rfl

theorem hostWrite_reserved (s : State) (w : Word) : hostWrite s .reserved w = s := by
  unfold hostWrite
  split <;> rfl

theorem hostWrite_busy {s : State} (h : s.busy = true) {r : Reg} (hc : r ≠ .ctrl) (hr : r ≠ .reserved) (w : Word) :
    hostWrite s r w = hazard s := by
  unfold hostWrite
  rw [if_pos h]
  cases r <;> first | rfl | contradiction

/-- The ways a host write acts. -/
theorem hostWrite_cases (s : State) (r : Reg) (w : Word) :
    (r = .ctrl ∧ w.getLsbD 1 = true ∧ hostWrite s r w = softReset s)
      ∨ (r = .ctrl ∧ w.getLsbD 1 = false
        ∧ hostWrite s r w = { s with regs := { s.regs with irqEn := w.getLsbD 0 } })
      ∨ (r = .reserved ∧ hostWrite s r w = s)
      ∨ (r ≠ .ctrl ∧ r ≠ .reserved ∧ s.busy = true ∧ hostWrite s r w = hazard s)
      ∨ (r ≠ .ctrl ∧ r ≠ .reserved ∧ s.busy = false ∧ hostWrite s r w = writeReg s r w) := by
  by_cases hc : r = .ctrl
  · subst hc
    rw [hostWrite_ctrl, writeCtrl]
    cases hw : w.getLsbD 1 <;> simp
  · by_cases hr : r = .reserved
    · subst hr
      simp [hostWrite_reserved]
    · cases hb : s.busy with
      | true => simp [hc, hr, hostWrite_busy hb hc hr]
      | false => simp [hc, hr, hostWrite_idle hb]

end Sys2Proof.Machine
end

