-- ==== Sys2Proof/Laws/PerInstr.lean ====
section
/-! SUPPORT. Statements made per instruction, one lemma per constructor. -/

namespace Sys2Proof.Laws.EncodingKind

/-- A command is encoded as a command word, a token as one byte or two (30_encoding.md R53, R58). -/
def Statement (i : Instr) : Prop :=
  match encode i with
  | .command _ => i.isCommand = true
  | .token bytes => i.isCommand = false ∧ 1 ≤ bytes.length ∧ bytes.length ≤ 2

theorem nop : Statement .nop := rfl
theorem geom : Statement .geom := rfl
theorem palres : Statement .palres := rfl
theorem rled : Statement .rled := rfl
theorem rlee : Statement .rlee := rfl
theorem rleeb : Statement .rleeb := rfl
theorem pxdec : Statement .pxdec := rfl
theorem pxenc : Statement .pxenc := rfl
theorem palser : Statement .palser := rfl
theorem illegal (w : Word) : Statement (.illegal w) := rfl

theorem rleRun (count : BitVec 6) (value : Byte) : Statement (.rleRun count value) := by
  simp [Statement, encode, Instr.isCommand]

theorem rleEscapedLiteral (value : Byte) : Statement (.rleEscapedLiteral value) := by simp [Statement, encode, Instr.isCommand]

theorem rleLiteral (value : Byte) : Statement (.rleLiteral value) := by simp [Statement, encode, Instr.isCommand]

end Sys2Proof.Laws.EncodingKind
end

