-- ==== Sys2Proof/Laws/Race.lean ====
section
/-! SUPPORT. What the record of raced output bytes does to a command: nothing to its rule, and at completion only those bytes
are left unspecified (20_memory.md R48, log 14). -/

namespace Sys2Proof.Machine

/-- The state with other raced output bytes. -/
def State.withRaced (s : State) (l : List Nat) : State := { s with race := { s.race with outBytes := l } }

theorem decodeLoop_withRaced (s : State) (l : List Nat) (g : LineGeometry) (fuel : Nat) (c : Cursor) :
    decodeLoop (s.withRaced l) g fuel c = decodeLoop s g fuel c := by
  induction fuel generalizing c with
  | zero => rfl
  | succ fuel ih =>
    simp only [decodeLoop, ih]
    rfl

theorem palresTrailer_withRaced (s : State) (l : List Nat) :
    palresTrailer (s.withRaced l) = (palresTrailer s).map (·.withRaced l) := by
  unfold palresTrailer
  rw [show checkInput (s.withRaced l) = checkInput s from rfl]
  cases checkInput s with
  | some e => rfl
  | none =>
    dsimp only
    rw [show srcByte (s.withRaced l) = srcByte s from rfl, show (s.withRaced l).regs = s.regs from rfl]
    repeat' split
    all_goals rfl

theorem writeTokens_withRaced (s : State) (l : List Nat) (tokens : List Byte) :
    writeTokens (s.withRaced l) tokens = (writeTokens s tokens).map (·.withRaced l) := by
  unfold writeTokens
  rw [show (s.withRaced l).regs = s.regs from rfl]
  split <;> rfl

/-- The rule of a command does not read the record. -/
theorem perform_withRaced (i : Instr) (s : State) (l : List Nat) :
    perform i (s.withRaced l) = (perform i s).map (·.withRaced l) := by
  have hb : checkBoth (s.withRaced l) = checkBoth s := rfl
  have hv : checkValid (s.withRaced l) = checkValid s := rfl
  have hr : (s.withRaced l).regs = s.regs := rfl
  cases i with
  | geom =>
    show performGeom _ = (performGeom s).map _
    unfold performGeom
    rw [hr]
    split
    · rfl
    · split
      · rfl
      · dsimp only
        split <;> rfl
  | palres =>
    show performPalres _ = (performPalres s).map _
    unfold performPalres
    rw [hv, hr]
    split
    · rfl
    · split
      case h_2 =>
        unfold palresCga
        rw [hr]
        dsimp only
        split <;> rfl
      case h_3 | h_4 | h_5 =>
        unfold palresPlanar
        rw [hr, show (s.withRaced l).cfg = s.cfg from rfl]
        split <;> rfl
      case h_7 => exact palresTrailer_withRaced s l
      all_goals rfl
  | rled =>
    show performRled _ = (performRled s).map _
    unfold performRled
    rw [hb, hr, decodeLoop_withRaced, show lineGeometry (s.withRaced l) = lineGeometry s from rfl]
    split
    · rfl
    · dsimp only
      split
      · rfl
      · split <;> rfl
  | rlee =>
    show performRlee _ = (performRlee s).map _
    unfold performRlee
    rw [hb, hr, show srcBytes (s.withRaced l) = srcBytes s from rfl]
    split
    · rfl
    · dsimp only
      split
      · rfl
      · exact writeTokens_withRaced s l _
  | rleeb =>
    show performRleeb _ = (performRleeb s).map _
    unfold performRleeb
    rw [hb, hr, show encodeBitmap (s.withRaced l) = encodeBitmap s from rfl]
    split
    · rfl
    · dsimp only
      split
      · rfl
      · exact writeTokens_withRaced s l _
  | pxdec =>
    show performPxdec _ = (performPxdec s).map _
    unfold performPxdec
    rw [hb, hr, show pixelBufferByte (s.withRaced l) = pixelBufferByte s from rfl]
    split
    · rfl
    · split
      · rfl
      · split <;> rfl
  | pxenc =>
    show performPxenc _ = (performPxenc s).map _
    unfold performPxenc
    rw [hb, hr, show firstUnknownPixel (s.withRaced l) = firstUnknownPixel s from rfl,
      show bitmapByte (s.withRaced l) = bitmapByte s from rfl]
    split
    · rfl
    · split
      · rfl
      · split
        · rfl
        · split <;> rfl
  | palser =>
    show performPalser _ = (performPalser s).map _
    unfold performPalser
    rw [hv, hr, show checkOutput (s.withRaced l) = checkOutput s from rfl,
      show palserSize (s.withRaced l) = palserSize s from rfl, show palserByte (s.withRaced l) = palserByte s from rfl]
    split
    · rfl
    · split <;> rfl
  | _ => rfl

/-- A command that is not spoiled has, beside its raced output bytes, the effect it has without them (20_memory.md R48,
log 14). -/
theorem exec_withRaced {i : Instr} {s : State} (l : List Nat) (hi : i.isCommand = true) (hs : spoiled i s = false) :
    ∃ t u, exec i s = .next t ∧ exec i (s.withRaced l) = .next u ∧ t.regs = u.regs ∧ t.palram = u.palram
      ∧ t.pending = u.pending ∧ ∀ a, a ∉ s.race.outBytes → a ∉ l → t.mem.read a = u.mem.read a := by
  have hs' : spoiled i (s.withRaced l) = false := hs
  refine ⟨_, _, exec_command s hi, exec_command _ hi, ?_⟩
  rw [perform_withRaced]
  cases perform i s with
  | error e =>
    have h : ∀ u, complete i u (.error e) = completeErr i u e := fun _ => rfl
    have hf : failedRegs i (s.withRaced l) = failedRegs i s := by cases i <;> rfl
    simp only [Except.map, h, completeErr, hs, hs', hf]
    exact ⟨rfl, rfl, rfl, fun _ _ _ => rfl⟩
  | ok t =>
    have h : ∀ u v, complete i u (.ok v) = completeOk i u v := fun _ _ => rfl
    simp only [Except.map, h, completeOk, hs, hs']
    refine ⟨rfl, rfl, rfl, fun a h1 h2 => ?_⟩
    show (t.mem.havocEach s.draws s.race.outBytes).read a = (t.mem.havocEach s.draws l).read a
    rw [Memory.read_havocEach, Memory.read_havocEach, if_neg h1, if_neg h2]

end Sys2Proof.Machine
end

