-- ==== Sys2Proof/Laws/Rle.lean ====
section
/-! SUPPORT. The laws of the RLE codec: where the cursors of the decoder stand after a token, how many bytes it has written,
and what a run of equal bytes encodes to. -/

namespace Sys2Proof.Machine

/-- The bytes that a stored line writes: its width less the padding byte (41_rle_codec.md R71). -/
def LineGeometry.kept (g : LineGeometry) : Nat := g.width - g.padded.toNat

/-- The output offset of a position: line `ln`, byte counter `lc` (41_rle_codec.md R71). -/
def LineGeometry.offset (g : LineGeometry) (lc ln : Nat) : Nat := ln * g.kept + min lc g.kept

theorem emitCopies_done {g : LineGeometry} {ln : Nat} (h : g.lines ≤ ln) (v : Byte) (n lc : Nat) :
    emitCopies g v n lc ln = ([], lc, ln) := by
  cases n with
  | zero => rfl
  | succ n => simp [emitCopies, Nat.not_lt.2 h]

/-- One copy inside a line: written unless it is the padding position. -/
theorem emitCopies_step {g : LineGeometry} {lc ln : Nat} (hl : ln < g.lines) (hc : lc + 1 ≠ g.width) (v : Byte) (n : Nat) :
    emitCopies g v (n + 1) lc ln = (v :: (emitCopies g v n (lc + 1) ln).1, (emitCopies g v n (lc + 1) ln).2) := by
  simp [emitCopies, hl, hc]

/-- The copy that ends a line. -/
def LineGeometry.last (g : LineGeometry) (v : Byte) : List Byte := if g.padded then [] else [v]

theorem emitCopies_end {g : LineGeometry} {lc ln : Nat} (hl : ln < g.lines) (hc : lc + 1 = g.width) (v : Byte) (n : Nat) :
    emitCopies g v (n + 1) lc ln =
      match g.policy, n with
      | .dropRest, _ => (g.last v, 0, ln + 1)
      | .dropOne, 0 => (g.last v, 0, ln + 1)
      | .dropOne, m + 1 => (g.last v ++ (emitCopies g v m 0 (ln + 1)).1, (emitCopies g v m 0 (ln + 1)).2) := by
  cases hp : g.policy <;> cases n <;> simp [emitCopies, hl, hc, hp, LineGeometry.last]

/-- The single copy that ends a line, whatever the policy. -/
theorem emitCopies_end_one {g : LineGeometry} {lc ln : Nat} (hl : ln < g.lines) (hc : lc + 1 = g.width) (v : Byte) :
    emitCopies g v 1 lc ln = (g.last v, 0, ln + 1) := by
  rw [emitCopies_end hl hc]
  cases g.policy <;> rfl

theorem LineGeometry.last_length (g : LineGeometry) (v : Byte) : (g.last v).length = 1 - g.padded.toNat := by
  unfold LineGeometry.last
  cases g.padded <;> rfl

/-- Where a token leaves the cursors: the bytes written are the way the output offset went; the cursors stay in range; every byte
is the value. -/
theorem emitCopies_spec {g : LineGeometry} (v : Byte) (n : Nat) {lc ln : Nat} (hc : lc < g.width) (hl : ln ≤ g.lines) :
    (emitCopies g v n lc ln).1.length + g.offset lc ln
        = g.offset (emitCopies g v n lc ln).2.1 (emitCopies g v n lc ln).2.2
      ∧ (emitCopies g v n lc ln).2.1 < g.width ∧ (emitCopies g v n lc ln).2.2 ≤ g.lines
      ∧ ∀ b ∈ (emitCopies g v n lc ln).1, b = v := by
  induction n using Nat.strongRecOn generalizing lc ln with
  | ind n ih =>
    cases n with
    | zero => exact ⟨by simp [emitCopies], hc, hl, by simp [emitCopies]⟩
    | succ n =>
      by_cases hlt : ln < g.lines
      · by_cases hend : lc + 1 = g.width
        · have hoff : (g.last v).length + g.offset lc ln = g.offset 0 (ln + 1) := by
            rw [LineGeometry.last_length]
            unfold LineGeometry.offset LineGeometry.kept
            rw [Nat.add_mul]
            cases g.padded <;> simp <;> omega
          have hall : ∀ b ∈ g.last v, b = v := by
            unfold LineGeometry.last
            split <;> simp
          rw [emitCopies_end hlt hend]
          split
          · exact ⟨hoff, by show 0 < g.width; omega, hlt, hall⟩
          · exact ⟨hoff, by show 0 < g.width; omega, hlt, hall⟩
          · rename_i m _
            obtain ⟨h1, h2, h3, h4⟩ := ih m (by omega) (lc := 0) (ln := ln + 1) (by omega) hlt
            refine ⟨?_, h2, h3, ?_⟩
            · dsimp only
              rw [List.length_append]
              omega
            · intro b hb
              rcases List.mem_append.1 hb with hb | hb
              · exact hall b hb
              · exact h4 b hb
        · obtain ⟨h1, h2, h3, h4⟩ := ih n (by omega) (lc := lc + 1) (ln := ln) (by omega) hl
          rw [emitCopies_step hlt hend]
          refine ⟨?_, h2, h3, ?_⟩
          · have hoff : 1 + g.offset lc ln = g.offset (lc + 1) ln := by
              unfold LineGeometry.offset LineGeometry.kept
              cases g.padded <;> simp <;> omega
            simp only [List.length_cons]
            omega
          · intro b hb
            rcases List.mem_cons.1 hb with rfl | hb
            · rfl
            · exact h4 b hb
      · rw [emitCopies_done (by omega)]
        exact ⟨by simp, hc, hl, by simp⟩

/-- The last line ends with its byte counter at 0. -/
theorem emitCopies_last {g : LineGeometry} (v : Byte) (n : Nat) {lc ln : Nat} (hc : ln = g.lines → lc = 0)
    (h : (emitCopies g v n lc ln).2.2 = g.lines) : (emitCopies g v n lc ln).2.1 = 0 := by
  induction n using Nat.strongRecOn generalizing lc ln with
  | ind n ih =>
    by_cases hl : ln < g.lines
    · cases n with
      | zero =>
        have h' : ln = g.lines := h
        omega
      | succ n =>
        by_cases hend : lc + 1 = g.width
        · rw [emitCopies_end hl hend] at h ⊢
          split at h <;> first | rfl | exact ih _ (by omega) (by simp) h
        · rw [emitCopies_step hl hend] at h ⊢
          exact ih n (by omega) (by omega) h
    · rw [emitCopies_done (by omega)] at h ⊢
      exact hc h

/-- Copies that end before their line does are all written. -/
theorem emitCopies_within {g : LineGeometry} (v : Byte) {n lc ln : Nat} (hl : ln < g.lines) (hn : lc + n < g.width) :
    emitCopies g v n lc ln = (List.replicate n v, lc + n, ln) := by
  induction n generalizing lc with
  | zero => rfl
  | succ n ih =>
    rw [emitCopies_step hl (by omega), ih (by omega)]
    simp only [List.replicate_succ, Prod.mk.injEq, true_and, and_true]
    omega

/-- Copies that end exactly with their line: all are written but a padding copy. -/
theorem emitCopies_exact {g : LineGeometry} (v : Byte) {n lc ln : Nat} (hl : ln < g.lines) (h0 : 0 < n)
    (hn : lc + n = g.width) : emitCopies g v n lc ln = (List.replicate (n - g.padded.toNat) v, 0, ln + 1) := by
  induction n generalizing lc with
  | zero => omega
  | succ n ih =>
    cases n with
    | zero =>
      rw [emitCopies_end_one hl hn]
      unfold LineGeometry.last
      cases g.padded <;> rfl
    | succ m =>
      rw [emitCopies_step hl (by omega), ih (by omega) (by omega)]
      have : m + 1 + 1 - g.padded.toNat = (m + 1 - g.padded.toNat) + 1 := by
        cases g.padded <;> simp
      rw [this, List.replicate_succ]

/-- Under DROP_REST a run that reaches its line's end stops there. -/
theorem emitCopies_dropRest {g : LineGeometry} (hp : g.policy = .dropRest) (v : Byte) {n lc ln : Nat} (hl : ln < g.lines)
    (hc : lc < g.width) (hn : g.width ≤ lc + n) :
    emitCopies g v n lc ln = (List.replicate (g.width - lc - g.padded.toNat) v, 0, ln + 1) := by
  induction n generalizing lc with
  | zero => omega
  | succ n ih =>
    by_cases hend : lc + 1 = g.width
    · rw [emitCopies_end hl hend, hp]
      have : g.width - lc = 1 := by omega
      rw [this]
      unfold LineGeometry.last
      cases g.padded <;> rfl
    · rw [emitCopies_step hl hend, ih (by omega) (by omega)]
      have : g.width - lc - g.padded.toNat = (g.width - (lc + 1) - g.padded.toNat) + 1 := by
        cases g.padded <;> simp <;> omega
      rw [this, List.replicate_succ]

/-- Under DROP_ONE a run that passes its line's end loses one copy there, and the rest acts as a run of its own. -/
theorem emitCopies_dropOne {g : LineGeometry} (hp : g.policy = .dropOne) (v : Byte) {n k lc ln : Nat} (hc : lc < g.width)
    (hk : lc + k = g.width) (hn : k < n) :
    emitCopies g v n lc ln =
      ((emitCopies g v k lc ln).1
          ++ (emitCopies g v (n - k - 1) (emitCopies g v k lc ln).2.1 (emitCopies g v k lc ln).2.2).1,
        (emitCopies g v (n - k - 1) (emitCopies g v k lc ln).2.1 (emitCopies g v k lc ln).2.2).2) := by
  by_cases hl : ln < g.lines
  · induction n generalizing lc k with
    | zero => omega
    | succ n ih =>
      by_cases hend : lc + 1 = g.width
      · have : k = 1 := by omega
        subst this
        obtain ⟨m, rfl⟩ : ∃ m, n = m + 1 := ⟨n - 1, by omega⟩
        rw [emitCopies_end_one hl hend, emitCopies_end hl hend, hp]
        rfl
      · obtain ⟨j, rfl⟩ : ∃ j, k = j + 1 := ⟨k - 1, by omega⟩
        rw [emitCopies_step hl hend, ih (lc := lc + 1) (k := j) (by omega) (by omega) (by omega), emitCopies_step hl hend]
        rw [show n + 1 - (j + 1) - 1 = n - j - 1 by omega]
        rfl
  · simp only [emitCopies_done (show g.lines ≤ ln by omega), List.nil_append]

/-- A token that is fetched is no command. -/
theorem fetchToken_isToken {s : State} {ip : Nat} {i : Instr} (h : fetchToken s ip = .ok i) : i.isCommand = false := by
  unfold fetchToken at h
  dsimp only at h
  split at h
  · rename_i j rest hd
    cases h
    unfold decodeToken at hd
    split at hd
    · cases hd
    · split at hd
      · split at hd
        · cases hd
        · split at hd <;> cases hd <;> rfl
      · cases hd
        rfl
  · cases h
  · cases h

/-- What decoding a token can do (30_encoding.md R58): a byte is missing, or the token's bytes are taken and the input offset
moves past them. -/
theorem decodeToken_cases (l : List Byte) :
    (l.length = 0 ∧ decodeToken l = .error .noControlByte) ∨ (l.length = 1 ∧ decodeToken l = .error .noValueByte)
      ∨ ∃ i rest, decodeToken l = .ok (i, rest)
        ∧ ∀ g c, c.ip < (decodedEffect g i c).2.ip ∧ (decodedEffect g i c).2.ip ≤ c.ip + l.length := by
  have moves : ∀ g c,
      (∀ n v, (decodedEffect g (.rleRun n v) c).2.ip = c.ip + 2)
        ∧ (∀ v, (decodedEffect g (.rleEscapedLiteral v) c).2.ip = c.ip + 2)
        ∧ ∀ v, (decodedEffect g (.rleLiteral v) c).2.ip = c.ip + 1 :=
    fun _ _ => ⟨fun _ _ => rfl, fun _ => rfl, fun _ => rfl⟩
  rcases l with _ | ⟨b, _ | ⟨v, rest⟩⟩
  · exact .inl ⟨rfl, rfl⟩
  · by_cases hb : isRunMarker b = true
    · exact .inr (.inl ⟨rfl, if_pos hb⟩)
    · exact .inr (.inr ⟨.rleLiteral b, [], if_neg hb, fun g c => by simp [(moves g c).2.2]⟩)
  · refine .inr (.inr ?_)
    by_cases hb : isRunMarker b = true
    · by_cases hn : runCount b = 1#6
      · exact ⟨.rleEscapedLiteral v, rest, (if_pos hb).trans (if_pos hn), fun g c => by simp [(moves g c).2.1]⟩
      · exact ⟨.rleRun (runCount b) v, rest, (if_pos hb).trans (if_neg hn), fun g c => by simp [(moves g c).1]⟩
    · exact ⟨.rleLiteral b, v :: rest, if_neg hb, fun g c => by
        rw [(moves g c).2.2, List.length_cons]
        omega⟩

/-- What reading a token can do (41_rle_codec.md R69, R70): the first byte past the input is missing, or the token lies in the
input and moves the input offset. -/
theorem fetchToken_cases (s : State) (c : Cursor) :
    fetchToken s c.ip = .error (max c.ip s.regs.srcLen.toNat)
      ∨ ∃ i, fetchToken s c.ip = .ok i
        ∧ ∀ g, c.ip < (decodedEffect g i c).2.ip ∧ (decodedEffect g i c).2.ip ≤ s.regs.srcLen.toNat := by
  unfold fetchToken
  dsimp only
  have hl : (srcBytes s c.ip (min (s.regs.srcLen.toNat - c.ip) 2)).length = min (s.regs.srcLen.toNat - c.ip) 2 := by
    simp [srcBytes]
  rcases decodeToken_cases (srcBytes s c.ip (min (s.regs.srcLen.toNat - c.ip) 2)) with ⟨h, hd⟩ | ⟨h, hd⟩ | ⟨i, rest, hd, h⟩
  · rw [hd]
    exact .inl (congrArg Except.error (show c.ip = _ by omega))
  · rw [hd]
    exact .inl (congrArg Except.error (show c.ip + 1 = _ by omega))
  · rw [hd]
    refine .inr ⟨i, rfl, fun g => ⟨(h g c).1, ?_⟩⟩
    have := h g c
    omega

/-- A decode from the start of the body that fails has failed to read the first byte past the input, or byte 128 where the input
does not reach the body (41_rle_codec.md R70 case g). -/
theorem decodeLoop_error_offset {s : State} {g : LineGeometry} {fuel : Nat} {c : Cursor} {e : Raised} (h0 : 128 ≤ c.ip)
    (h1 : c.ip ≤ max 128 s.regs.srcLen.toNat) (hf : s.regs.srcLen.toNat < fuel + c.ip)
    (h : decodeLoop s g fuel c = .error e) : e.info = max 128 s.regs.srcLen.toNat := by
  induction fuel generalizing c with
  | zero =>
    simp only [decodeLoop] at h
    split at h <;> cases h
    show c.ip = _
    omega
  | succ fuel ih =>
    simp only [decodeLoop] at h
    split at h
    · rcases fetchToken_cases s c with hf' | ⟨i, hi, hin⟩
      · rw [hf'] at h
        cases h
        show max c.ip s.regs.srcLen.toNat = _
        omega
      · rw [hi] at h
        have := hin g
        dsimp only at h
        split at h
        · rename_i e' he
          cases h
          exact ih (by omega) (by omega) (by omega) he
        · cases h
    · cases h

/-- Every token moves the decoder as its copies do. -/
theorem decodedEffect_token {g : LineGeometry} {i : Instr} (hi : i.isCommand = false) (c : Cursor) :
    ∃ len n v, decodedEffect g i c = tokenEffect g len n v c := by
  cases i with
  | rleRun count v => exact ⟨_, _, _, rfl⟩
  | rleEscapedLiteral v => exact ⟨_, _, _, rfl⟩
  | rleLiteral v => exact ⟨_, _, _, rfl⟩
  | _ => cases hi

/-- A decode that ends without error has written exactly the bytes from where it stood to the end of the last line
(41_rle_codec.md R71). -/
theorem decodeLoop_length {s : State} {g : LineGeometry} {fuel : Nat} {c : Cursor} {out : List Byte} (hc : c.lc < g.width)
    (hl : c.ln ≤ g.lines) (h0 : c.ln = g.lines → c.lc = 0) (h : decodeLoop s g fuel c = .ok out) :
    out.length + g.offset c.lc c.ln = g.offset 0 g.lines := by
  induction fuel generalizing c out with
  | zero =>
    simp only [decodeLoop] at h
    split at h
    · cases h
    · cases h
      have : c.ln = g.lines := by omega
      rw [this, h0 this]
      simp
  | succ fuel ih =>
    simp only [decodeLoop] at h
    split at h
    · split at h
      · cases h
      · rename_i i hf
        obtain ⟨len, n, v, he⟩ := decodedEffect_token (g := g) (fetchToken_isToken hf) c
        rw [he] at h
        split at h
        · cases h
        · rename_i rest hr
          cases h
          obtain ⟨h1, h2, h3, -⟩ := emitCopies_spec v n hc hl
          have := ih h2 h3 (emitCopies_last v n h0) hr
          rw [List.length_append]
          simp only [tokenEffect] at this ⊢
          omega
    · cases h
      have : c.ln = g.lines := by omega
      rw [this, h0 this]
      simp

/-! ## RLED -/

/-- A fresh geometry has a plane, a byte a line, and lines that keep BPL bytes (43_geometry.md R89 to R92). -/
theorem FreshGeometry.nplanes_pos {s : State} (h : FreshGeometry s) : 1 ≤ s.regs.nplanes.toNat := by
  have hc := h.code
  unfold varsel at hc
  split at hc <;> simp_all

theorem FreshGeometry.bpl_pos {s : State} (h : FreshGeometry s) : 1 ≤ s.regs.bpl.toNat := by
  have hc := h.code
  have hb : 1 ≤ s.regs.bpp.toNat := by
    unfold varsel at hc
    split at hc <;> simp_all
  have := Nat.mul_le_mul h.width hb
  rw [h.bpl, bytesPerLine]
  omega

theorem FreshGeometry.kept {s : State} (h : FreshGeometry s) : (lineGeometry s).kept = s.regs.bpl.toNat := by
  have := h.bplo
  simp only [LineGeometry.kept, lineGeometry]
  omega

/-- RLED past its checks: the decode, and the bytes it wrote (41_rle_codec.md R70). -/
theorem perform_rled {s : State} (hr : RledRuns s) : perform .rled s =
    match decodeLoop s (lineGeometry s) (s.regs.srcLen.toNat + 1) Cursor.start with
    | .error e => .error e
    | .ok out =>
      .ok { s with
        mem := s.mem.fill s.regs.dstAddr.toNat (min out.length s.outRoom) (fun k => out.getD k 0#8)
        regs := { s.regs with result := wordOf .result s.draws out.length } } := by
  show performRled s = _
  unfold performRled
  rw [(checkBoth_eq_none s).2 hr.ready]
  exact if_neg (Nat.not_lt.2 hr.output)

/-- The decode of RLED fails only with InputExhausted at the first byte past the input, or at byte 128. -/
theorem decodeLoop_start_error {s : State} {g : LineGeometry} {e : Raised}
    (h : decodeLoop s g (s.regs.srcLen.toNat + 1) Cursor.start = .error e) :
    e = ⟨.inputExhausted, max 128 s.regs.srcLen.toNat⟩ := by
  have h1 := decodeLoop_error h
  have h2 := decodeLoop_error_offset (by decide) (by show 128 ≤ _; omega) (by show _ < _ + 1 + 128; omega) h
  cases e
  simp_all

/-! ## The encoder -/

/-- A run of equal bytes that the bound does not cut becomes one token. -/
theorem encodeRuns_replicate (v : Byte) {n k : Nat} (h : n + k ≤ Config.maxRun) (rest : List Byte) :
    encodeRuns v n (List.replicate k v ++ rest) = encodeRuns v (n + k) rest := by
  induction k generalizing n with
  | zero => rfl
  | succ k ih =>
    rw [List.replicate_succ, List.cons_append, encodeRuns, if_pos ⟨by omega, rfl⟩, ih (by omega)]
    congr 1
    omega

end Sys2Proof.Machine
end

