-- ==== Sys2Proof/Laws/Step.lean ====
section
/-! SUPPORT. What a step can do, said once: every way a turn of the engine or a bus event goes on. A claim about all steps is a
case analysis over these. -/

namespace Sys2Proof.Machine

/-- What an instruction other than a command does: only the tokens, and only inside a decode. -/
theorem exec_token {i : Instr} {s t : State} (hi : i.isCommand = false) (h : exec i s = .next t) :
    ∃ c len n v, s.dec = some c ∧ t = tokenResult s c len n v := by
  have key : ∀ len n v, runToken s len n v = .next t →
      ∃ c len n v, s.dec = some c ∧ t = tokenResult s c len n v := by
    intro len n v hr
    rcases runToken_cases s len n v with ⟨_, h'⟩ | ⟨c, hc, h'⟩
    · rw [h'] at hr
      cases hr
    · rw [h'] at hr
      cases hr
      exact ⟨c, len, n, v, hc, rfl⟩
  cases i with
  | rleRun count v => exact key _ _ _ h
  | rleEscapedLiteral v => exact key _ _ _ h
  | rleLiteral v => exact key _ _ _ h
  | _ => cases hi

/-- The ways a turn of the engine goes on. -/
inductive EngineMove (s t : State) : Prop where
  | idle (hp : s.pending = none) (ht : t = s)
  | command (w : Word) (hp : s.pending = some w) (hd : s.dec = none)
      (ht : t = complete (decodeCommand w) s (perform (decodeCommand w) s))
  | token (w : Word) (c : Cursor) (len n : Nat) (v : Byte) (hp : s.pending = some w) (hd : s.dec = some c)
      (ht : t = tokenResult s c len n v)
  | finished (w : Word) (c : Cursor) (hp : s.pending = some w) (hd : s.dec = some c) (ht : t = decodeFinish s c)
  | exhausted (w : Word) (c : Cursor) (off : Nat) (hp : s.pending = some w) (hd : s.dec = some c)
      (ht : t = decodeExhausted s off)

/-- The end of a decode is the completion of an outcome of RLED. -/
theorem decodeFinish_outcome (s : State) (c : Cursor) :
    OutcomeOf .rled s (.ok { s with regs := { s.regs with result := wordOf .result s.draws c.o } }) :=
  Effect.ofRegs rfl rfl rfl (by constructor <;> rfl) (fun _ => ⟨rfl, rfl⟩) (fun _ => ⟨rfl, rfl, rfl⟩) id

theorem decodeExhausted_outcome (s : State) (off : Nat) : OutcomeOf .rled s (.error ⟨.inputExhausted, off⟩) := by
  simp [OutcomeOf, raisedKinds]

theorem engineStep_cases {s t : State} (h : engineStep s = .next t) : EngineMove s t := by
  unfold engineStep at h
  split at h
  · cases h
    exact .idle ‹_› rfl
  · rename_i w hp
    split at h
    · rename_i hd
      rw [exec_command s (decodeCommand_isCommand w)] at h
      cases h
      exact .command w hp hd rfl
    · rename_i c hd
      unfold tokenStep at h
      split at h
      · cases h
        exact .finished w c hp hd rfl
      · split at h
        · cases h
          exact .exhausted w c _ hp hd rfl
        · rename_i i hf
          obtain ⟨c', len, n, v, hc', rfl⟩ := exec_token (fetchToken_isToken hf) h
          rw [hd] at hc'
          cases hc'
          exact .token w c len n v hp hd rfl

/-- The ways a step goes on: the engine's turn, or the next bus event, which leaves the list. -/
inductive StepMove (s t : State) : Prop where
  | turn (hh : s.host = []) (hm : EngineMove s t)
  | engine (rest : List HostEvent) (hh : s.host = .engine :: rest) (hm : EngineMove { s with host := rest } t)
  | regWrite (addr bits : Nat) (w : Word) (rest : List HostEvent) (r : Reg) (hh : s.host = .regWrite addr bits w :: rest)
      (hr : regOfAccess s.cfg addr bits = some r) (ht : t = hostWrite { s with host := rest } r w)
  | regRead (addr bits : Nat) (rest : List HostEvent) (r : Reg) (hh : s.host = .regRead addr bits :: rest)
      (hr : regOfAccess s.cfg addr bits = some r) (ht : t = hostRead { s with host := rest } r)
  | waitOver (rest : List HostEvent) (hh : s.host = .waitDone :: rest) (hd : s.regs.status.done = true)
      (ht : t = hostRead { s with host := rest } .status)
  | waitTurn (rest : List HostEvent) (hh : s.host = .waitDone :: rest) (hd : s.regs.status.done = false)
      (hm : EngineMove (hostRead s .status) t)
  | memWrite (a : Nat) (v : Byte) (rest : List HostEvent) (hh : s.host = .memWrite a v :: rest) (ha : a < s.addrTop)
      (ht : t = { s with
        host := rest
        mem := s.mem.write a v
        race := { s.race with
          inBytes := if racesInput s a then addAddress s.race.inBytes a else s.race.inBytes
          outBytes := if racesOutput s a then addAddress s.race.outBytes a else s.race.outBytes } })
  | memRead (a : Nat) (rest : List HostEvent) (hh : s.host = .memRead a :: rest) (ha : a < s.addrTop)
      (ht : t = if racesOutput s a then
          { s with
            host := rest
            memData := Config.free 8 .hostRead s.draws a
            draws := s.draws + 1
            race := { s.race with outBytes := addAddress s.race.outBytes a } }
        else { s with host := rest, memData := s.mem.read a })
  | hardReset (rest : List HostEvent) (hh : s.host = .hardReset :: rest) (ht : t = Machine.hardReset { s with host := rest })

theorem memAccess_next {s t u : State} {a : Nat} (h : memAccess s a t = .next u) : a < s.addrTop ∧ u = t := by
  unfold memAccess at h
  split at h
  · split at h
    · cases h
    · cases h
      exact ⟨‹_›, rfl⟩
  · cases h

theorem step_cases {s t : State} (h : step s = .next t) : StepMove s t := by
  unfold step at h
  split at h
  · exact .turn ‹_› (engineStep_cases h)
  · rename_i e rest hh
    unfold hostStep at h
    split at h
    · unfold busWrite at h
      split at h
      · rename_i r hr
        cases h
        exact .regWrite _ _ _ rest r hh hr rfl
      · cases h
    · unfold busRead at h
      split at h
      · rename_i r hr
        cases h
        exact .regRead _ _ rest r hh hr rfl
      · cases h
    · unfold waitStep at h
      split at h
      · cases h
        exact .waitOver rest hh ‹_› rfl
      · rename_i hd
        exact .waitTurn rest hh (Bool.not_eq_true _ ▸ hd) (engineStep_cases h)
    · exact .engine rest hh (engineStep_cases h)
    · obtain ⟨ha, rfl⟩ := memAccess_next h
      exact .memWrite _ _ rest hh ha rfl
    · obtain ⟨ha, rfl⟩ := memAccess_next h
      refine .memRead _ rest hh ha ?_
      rfl
    · cases h
      exact .hardReset rest hh rfl

end Sys2Proof.Machine
end

