-- ==== Sys2Proof/Tests/Slice0.lean ====
section
/-! SUPPORT. The model's own tests. The expected values are those of spec/95_test_vectors.md (named by their ids) or written out
from the encodings of spec/30_encoding.md; a `witness_` theorem shows a state and operands that meet all the hypotheses of the
obligation it is named after. -/

set_option Elab.async false

namespace Sys2Proof.Tests

open Sys2Proof Sys2Proof.Machine

/-! ## WellFormed refuses ill-formed terms -/

theorem test_wf_illegal_refuses_legal_words :
    WellFormed (.illegal 0x00000000#32) = false ∧ WellFormed (.illegal 0x00000008#32) = false
      ∧ WellFormed (.illegal 0x00000009#32) = true := by decide

theorem test_wf_run_refuses_count_one : WellFormed (.rleRun 1#6 0x07#8) = false ∧ WellFormed (.rleRun 0#6 0x07#8) = true := by
  decide

theorem test_wf_literal_refuses_run_markers :
    WellFormed (.rleLiteral 0xC0#8) = false ∧ WellFormed (.rleLiteral 0xFF#8) = false ∧ WellFormed (.rleLiteral 0xBF#8) = true := by
  decide

/-! ## Decoding: words written out from 30_encoding.md R53 to R55, R58 to R60 -/

theorem test_decode_nop : decodeTableWord 32 0b00000000000000000000000000000000 = some .nop := by decide
theorem test_decode_geom : decodeTableWord 32 0b00000000000000000000000000000001 = some .geom := by decide
theorem test_decode_palres : decodeTableWord 32 0b00000000000000000000000000000010 = some .palres := by decide
theorem test_decode_rled : decodeTableWord 32 0b00000000000000000000000000000011 = some .rled := by decide
theorem test_decode_rlee : decodeTableWord 32 0b00000000000000000000000000000100 = some .rlee := by decide
theorem test_decode_rleeb : decodeTableWord 32 0b00000000000000000000000000000101 = some .rleeb := by decide
theorem test_decode_pxdec : decodeTableWord 32 0b00000000000000000000000000000110 = some .pxdec := by decide
theorem test_decode_pxenc : decodeTableWord 32 0b00000000000000000000000000000111 = some .pxenc := by decide
theorem test_decode_palser : decodeTableWord 32 0b00000000000000000000000000001000 = some .palser := by decide

theorem test_decode_illegal_boundaries :
    decodeTableWord 32 0x00000009 = some (.illegal 0x00000009#32) ∧ decodeTableWord 32 0x00000100 = some (.illegal 0x00000100#32)
      ∧ decodeTableWord 32 0x80000003 = some (.illegal 0x80000003#32)
      ∧ decodeTableWord 32 0xFFFFFFFF = some (.illegal 0xFFFFFFFF#32) := by decide

theorem test_decode_run :
    decodeToken [0b11000000#8, 0x55#8, 0x01#8] = .ok (.rleRun 0#6 0x55#8, [0x01#8])
      ∧ decodeToken [0b11000010#8, 0xC8#8] = .ok (.rleRun 2#6 0xC8#8, [])
      ∧ decodeToken [0b11111111#8, 0x41#8] = .ok (.rleRun 63#6 0x41#8, []) := by decide

theorem test_decode_escaped_literal : decodeToken [0b11000001#8, 0xFF#8, 0x00#8] = .ok (.rleEscapedLiteral 0xFF#8, [0x00#8]) := by
  decide

theorem test_decode_literal :
    decodeToken [0b00000000#8] = .ok (.rleLiteral 0x00#8, [])
      ∧ decodeToken [0b10111111#8, 0xC3#8] = .ok (.rleLiteral 0xBF#8, [0xC3#8]) := by decide

theorem test_decode_token_cut_short : decodeToken [] = .error .noControlByte ∧ decodeToken [0xC5#8] = .error .noValueByte := by
  decide

/-! ## Small states -/

/-- The state an outcome goes on in. -/
def after (o : Host.Outcome State Fault Refusal) : State :=
  match o with
  | .next t => t
  | .fault _ => State.reset
  | .refused _ => State.reset

/-- Input region [0x1000, 0x1000 + len), output region [0x8000, 0x8000 + cap). -/
def plain (len cap : Word) : State :=
  { State.reset with regs := { Regs.reset with srcAddr := 0x1000#32, srcLen := len, dstAddr := 0x8000#32, dstCap := cap } }

/-- The state with the bytes `l` in memory from `a` on. -/
def put (a : Nat) (l : List Byte) (s : State) : State := { s with mem := s.mem.fill a l.length (fun k => l.getD k 0#8) }

/-- The state with a geometry. -/
def sized (w h : BitVec 16) (b p : BitVec 8) (l : BitVec 16) (s : State) : State :=
  { s with regs := { s.regs with width := w, height := h, bpp := b, nplanes := p, bplo := l } }

/-- The state with the derived registers that a GEOM leaves. -/
def derived (v : Variant) (bpl : BitVec 16) (pad : Bool) (s : State) : State :=
  { s with regs := { s.regs with bpl := bpl, variant := ⟨v, pad, true⟩ } }

/-- The state with the first words of the header palette region and VERSION. -/
def header (version : BitVec 8) (w0 w1 w2 : Word) (s : State) : State :=
  { s with regs := { s.regs with
      version := version
      hpal := ((s.regs.hpal.set 0 w0).set 1 w1).set 2 w2 } }

/-- The state with the first palette entries written and PAL_LEN. -/
def coloured (l : List Rgb) (n : BitVec 9) (s : State) : State :=
  { s with
    palram := palramWrite s.palram l.length (fun k => l.getD k 0#24)
    regs := { s.regs with palctl := ⟨n, .explicitHeader, false⟩ } }

/-- The state with a command pending. -/
def pending (i : Instr) (s : State) : State := { s with pending := some (commandWord i) }

/-- The state whose next event is `e`. -/
def next (e : HostEvent) (s : State) : State := { s with host := [e] }

/-- `n` bytes from the start of the output region. -/
def outputs (t : State) (n : Nat) : List Byte := (List.range n).map (outputByte t)

/-- STATUS, ERRINFO and RESULT. -/
def report (t : State) : Word × Word × Word := (readReg t .status, t.regs.errInfo, t.regs.result)

/-! ## The vectors of spec/95_test_vectors.md -/

theorem test_K1_nop : report (after (exec .nop State.reset)) = (0x00000002#32, 0#32, 0#32) := by decide +kernel

theorem test_K2_illegal :
    (report (after (exec (decodeCommand 0x9#32) State.reset))).1 = 0x00091006#32
      ∧ (after (exec (decodeCommand 0x100#32) State.reset)).regs.errInfo = 0x00000100#32
      ∧ readReg (after (exec (decodeCommand 0x100#32) State.reset)) .status = 0x00001006#32 := by decide +kernel

theorem test_G4_G6_geom :
    let t := after (exec .geom (sized 10 2 1 4 2 State.reset))
    let u := after (exec .geom (sized 3 1 4 1 3 State.reset))
    readReg t .variant = 0x80000004#32 ∧ readReg t .bpl = 2#32 ∧ readReg t .status = 0x00010002#32
      ∧ readReg u .variant = 0x80000105#32 := by decide +kernel

theorem test_G10_G14_geom_refuses :
    let t := after (exec .geom (sized 8 1 8 2 8 State.reset))
    let u := after (exec .geom (sized 8 1 1 1 0 State.reset))
    (readReg t .status, t.regs.errInfo) = (0x00010306#32, 0x00000208#32) ∧ t.regs.variant.valid = false
      ∧ (readReg u .status, u.regs.errInfo) = (0x00011206#32, 0xFFFFFFFF#32) := by decide +kernel

/-- The state of vector A3: a V2x1 header whose triples collide. -/
def cgaState : State := derived .v2x1 1 false (sized 4 1 2 1 1 (header 5 0x40000010#32 0#32 0#32 (plain 0 48)))

theorem test_A3_palres_derived :
    let t := after (exec .palres cgaState)
    readReg t .palctl = 0x01050004#32 ∧ readReg t .cgadesc = 0x51#32
      ∧ (t.palram[0], t.palram[1], t.palram[3]) = (.written 0x0000AA#24, .written 0x00AAAA#24, .written 0xAAAAAA#24) := by
  decide +kernel

theorem test_A2_palres_explicit :
    let t := after (exec .palres
      (derived .v2x1 1 false (sized 4 1 2 1 1 (header 5 0x10000000#32 0x50403020#32 0x90807060#32 (plain 0 48)))))
    readReg t .palctl = 0x00040004#32 ∧ readReg t .cgadesc = 0x40#32
      ∧ (t.palram[1], t.palram[3]) = (.written 0x102030#24, .written 0x708090#24) := by decide +kernel

theorem test_D1_D10_rled :
    let s := put 0x1080 [0xC3#8, 0x07#8, 0x41#8] (derived .v8x1 4 false (sized 4 1 8 1 4 (plain 131 64)))
    let u := put 0x1080 [0xC4#8, 0x09#8] (derived .v8x1 3 true (sized 3 1 8 1 4 (plain 130 64)))
    report (after (exec .rled s)) = (0x00030002#32, 0#32, 4#32)
      ∧ outputs (after (exec .rled s)) 5 = [0x07#8, 0x07#8, 0x07#8, 0x41#8, 0x00#8]
      ∧ outputs (after (exec .rled u)) 4 = [0x09#8, 0x09#8, 0x09#8, 0x00#8] := by decide +kernel

/-- The state of vectors D4 and D5: a run that crosses a line end. -/
def straddling (p : StraddlePolicy) : State :=
  put 0x1080 [0xC4#8, 0x07#8, 0x41#8, 0x42#8]
    (derived .v8x1 2 false (sized 2 2 8 1 2 { plain 132 64 with cfg := { Config.default with straddle := p } }))

theorem test_D4_D5_rled_straddle :
    outputs (after (exec .rled (straddling .dropRest))) 4 = [0x07#8, 0x07#8, 0x41#8, 0x42#8]
      ∧ outputs (after (exec .rled (straddling .dropOne))) 4 = [0x07#8, 0x07#8, 0x07#8, 0x41#8] := by decide +kernel

theorem test_E1_rlee :
    let s := put 0x1000 [0xFF#8, 0x00#8, 0x00#8] (derived .v8x1 3 false (sized 3 1 8 1 3 (plain 3 64)))
    report (after (exec .rlee s)) = (0x00040002#32, 0#32, 4#32)
      ∧ outputs (after (exec .rlee s)) 4 = [0xC1#8, 0xFF#8, 0xC2#8, 0x00#8] := by decide +kernel

theorem test_E10_E11_rlee_errors :
    let t := after (exec .rlee (put 0x1000 [0xFF#8] (derived .v8x1 3 false (sized 3 1 8 1 3 (plain 3 3)))))
    let u := after (exec .rlee (derived .v8x1 3 false (sized 3 1 8 1 3 (plain 2 64))))
    (readReg t .status, t.regs.errInfo) = (0x00041406#32, 3#32) ∧ (readReg u .status, u.regs.errInfo) = (0x00041306#32, 3#32) := by
  decide +kernel

theorem test_B1_rleeb :
    let s := put 0x1000 [0x05#8, 0x05#8, 0x05#8, 0x06#8] (derived .v8x1 2 false (sized 2 2 8 1 2 (plain 4 64)))
    report (after (exec .rleeb s)) = (0x00050002#32, 0#32, 4#32)
      ∧ outputs (after (exec .rleeb s)) 4 = [0xC2#8, 0x05#8, 0x05#8, 0x06#8] := by decide +kernel

/-- The first entries of the default EGA_PALETTE. -/
def ega4 : List Rgb := [0x000000#24, 0x0000AA#24, 0x00AA00#24, 0x00AAAA#24]

theorem test_X3_pxdec_planar :
    let s := put 0x1000 [0xA0#8, 0x60#8] (coloured ega4 4 (derived .v1x2 1 false (sized 3 1 1 2 1 (plain 2 256))))
    report (after (exec .pxdec s)) = (0x00060002#32, 0#32, 12#32)
      ∧ outputs (after (exec .pxdec s)) 12 = [0x00#8, 0x00#8, 0xAA#8, 0xFF#8, 0x00#8, 0xAA#8, 0x00#8, 0xFF#8,
          0x00#8, 0xAA#8, 0xAA#8, 0xFF#8] := by decide +kernel

theorem test_X9_pxdec_true_colour :
    let s := put 0x1000 [1, 2, 3, 4, 5, 6, 7, 8, 9, 10, 11, 12] (derived .v8x3 2 false (sized 2 2 8 3 2 (plain 12 256)))
    outputs (after (exec .pxdec s)) 16 = [1, 3, 5, 0xFF, 2, 4, 6, 0xFF, 7, 9, 11, 0xFF, 8, 10, 12, 0xFF] := by decide +kernel

theorem test_Y8_pxenc :
    let s := put 0x1000 [0, 0, 0xAA, 0xFF, 0, 0xAA, 0, 0xFF, 0, 0xAA, 0xAA, 0xFF]
      (coloured ega4 4 (derived .v4x1 2 false (sized 3 1 4 1 2 (plain 12 256))))
    report (after (exec .pxenc s)) = (0x00070002#32, 0#32, 2#32) ∧ outputs (after (exec .pxenc s)) 2 = [0x12#8, 0x30#8] := by
  decide +kernel

theorem test_Y12_pxenc_unknown :
    let s := put 0x1000 [0, 0, 0xAA, 0xFF, 0, 0xAA, 0, 0xFF, 0x12, 0x34, 0x56, 0xFF]
      (coloured ega4 4 (derived .v4x1 2 false (sized 3 1 4 1 2 (plain 12 256))))
    readReg (after (exec .pxenc s)) .status = 0x00070706#32 ∧ (after (exec .pxenc s)).regs.errInfo = 2#32 := by decide +kernel

theorem test_S1_palser_derived :
    let t := after (exec .palser (after (exec .palres cgaState)))
    report t = (0x00080002#32, 0#32, 48#32) ∧ outputs t 48 = [0x10#8, 0x00#8, 0x00#8, 0x40#8] ++ List.replicate 44 0x00#8 := by
  decide +kernel

theorem test_S9_palser_overflow :
    let t := after (exec .palser (derived .v8x1 1 false (sized 1 1 8 1 1 (plain 0 816))))
    (readReg t .status, t.regs.errInfo) = (0x00081406#32, 0x331#32) := by decide +kernel

/-! ## Tokens, the host side, and the fetch -/

/-- A decode under way at the start of line 0 of a 4 x 1 image. -/
def decoding : State :=
  { pending .rled (derived .v8x1 4 false (sized 4 1 8 1 4 (plain 140 64))) with dec := some Cursor.start }

theorem test_run_writes_its_copies :
    let t := after (exec (.rleRun 3#6 0x07#8) decoding)
    outputs t 4 = [0x07#8, 0x07#8, 0x07#8, 0x00#8] ∧ t.dec = some ⟨130, 3, 3, 0⟩ := by decide +kernel

theorem test_escaped_literal_and_literal_write_one_copy :
    let t := after (exec (.rleEscapedLiteral 0xC7#8) decoding)
    let u := after (exec (.rleLiteral 0x41#8) decoding)
    outputs t 2 = [0xC7#8, 0x00#8] ∧ t.dec = some ⟨130, 1, 1, 0⟩ ∧ outputs u 2 = [0x41#8, 0x00#8] ∧ u.dec = some ⟨129, 1, 1, 0⟩ := by
  decide +kernel

theorem test_fetch_word_runs_the_instruction :
    readReg (after (step (State.reset.withFetchWord 32 0x00000001))) .status = 0x00010306#32
      ∧ (after (step (State.reset.withFetchWord 8 0xC5))).dec.map (·.ip) = some 130
      ∧ (after (step (State.reset.withFetchWord 8 0xBF))).dec.map (·.ip) = some 129 := by decide +kernel

theorem test_K13_busy_write :
    let t := hostWrite (pending .rlee (plain 4 8)) .srcLen 0#32
    t.regs.srcLen = 4#32 ∧ readReg t .status = 0x00000009#32 := by decide +kernel

theorem test_K16_acknowledge_and_K18_palctl :
    let s : State := { State.reset with regs := { Regs.reset with status := ⟨true, false, true, 0x00#8, 0x04#8⟩ } }
    readReg s .status = 0x0004000A#32 ∧ readReg (hostWrite s .status 0x8#32) .status = 0x00040002#32
      ∧ readReg (hostWrite State.reset .palctl 0x00070123#32) .palctl = 0x00000100#32 := by decide +kernel

theorem test_host_notation_of_programs_A_to_C :
    asmCmd Config.default .geom = .regWrite 0x000 32 0x00000001#32 ∧ asmAck Config.default = .regWrite 0x004 32 0x0000000E#32
      ∧ asmSetpal Config.default 1 0xFF#8 0x00#8 0x00#8 = .regWrite 0x404 32 0x00FF0000#32
      ∧ asmSethpal Config.default 0 0x40000010#32 = .regWrite 0x04C 32 0x40000010#32
      ∧ asmRd Config.default 0x03C = .regRead 0x03C 32 := by decide

theorem test_waitdone_lets_the_engine_move :
    let t := after (step (next .waitDone (pending .nop State.reset)))
    t.host = [.waitDone] ∧ readReg t .status = 0x00000002#32
      ∧ (after (step t)).host = [] ∧ (after (step t)).busData = 0x00000002#32 := by decide +kernel

/-! ## Witnesses: states that meet the hypotheses of the obligations -/

theorem undisturbed {i : Instr} {s : State} (h : spoiled i s = false ∧ s.race.outBytes = []) : Undisturbed i s := ⟨h.1, h.2⟩

theorem ready {s : State} (h : checkBoth s = none) : Ready s := (checkBoth_eq_none s).1 h

theorem fresh {s : State}
    (h : varsel s.regs.bpp s.regs.nplanes = some s.regs.variant.code ∧ 1 ≤ s.regs.width.toNat ∧ 1 ≤ s.regs.height.toNat
      ∧ s.regs.bpl.toNat = bytesPerLine s.regs.width s.regs.bpp
      ∧ s.regs.bplo.toNat = s.regs.bpl.toNat + s.regs.variant.notEven.toNat) : FreshGeometry s :=
  ⟨h.1, h.2.1, h.2.2.1, h.2.2.2.1, h.2.2.2.2⟩

theorem inv {s : State}
    (h : s.mem.wf ∧ s.mem.below s.addrTop ∧ s.regs.palctl.palLen ≤ 256#9 ∧ s.regs.status.errCode ∈ producedCodes
      ∧ (s.pending ≠ none → s.regs.status.done = false ∧ s.regs.status.err = false)
      ∧ (s.pending = none → s.race = Race.clean) ∧ (∀ a ∈ s.race.outBytes, a < s.addrTop)
      ∧ (s.dec ≠ none → s.pending = some (commandWord .rled))) : MachineInv s :=
  ⟨h.1, h.2.1, h.2.2.1, h.2.2.2.1, h.2.2.2.2.1, h.2.2.2.2.2.1, h.2.2.2.2.2.2.1, h.2.2.2.2.2.2.2⟩

/-- A 1 x 1 image of a variant with `b` bits and `p` planes: every such image has one byte a plane-line. -/
def dot (v : Variant) (b p : BitVec 8) (len cap : Word) : State := derived v 1 false (sized 1 1 b p 1 (plain len cap))

/-- HZD set. -/
def hazardous (s : State) : State := { s with regs := { s.regs with status := { s.regs.status with hzd := true } } }

/-- A busy-time write has spoiled the pending command. -/
def spoilt (s : State) : State := { s with race := { s.race with tainted := true } }

theorem witness_DecodeOfEncodeIsTheInstruction :
    (WellFormed (.rleRun 63#6 0xFF#8) = true ∧ encode (.rleRun 63#6 0xFF#8) = .token [0xFF#8, 0xFF#8])
      ∧ WellFormed (.rleRun 0#6 0x00#8) = true ∧ WellFormed (.illegal 0x00000009#32) = true := by decide

theorem witness_EncodeOfDecodedIsTheSource :
    decodeToken [0xC1#8, 0xC0#8, 0x07#8] = .ok (.rleEscapedLiteral 0xC0#8, [0x07#8]) := by decide

theorem witness_TokenStandsForItsCopies :
    0xC0#8 &&& 0xC0#8 = 0xC0#8 ∧ 0xFF#8 &&& 0xC0#8 = 0xC0#8 ∧ 0xBF#8 &&& 0xC0#8 ≠ 0xC0#8 ∧ 0x00#8 &&& 0xC0#8 ≠ 0xC0#8 := by decide

theorem witness_ResetsLeaveTheResetState :
    (∀ k, Reg.palctl ≠ .palram k) ∧ State.reset.pending = none
      ∧ (pending .rlee (plain 4 8)).pending = some 0x00000004#32 ∧ usesOutput (decodeCommand 0x00000004#32) = true
      ∧ 0x8007 < (plain 4 8).regs.dstAddr.toNat + (plain 4 8).regs.dstCap.toNat ∧ 0x8007 < (plain 4 8).addrTop
      ∧ (pending .geom (plain 4 8)).pending = some 0x00000001#32 ∧ usesOutput (decodeCommand 0x00000001#32) = false :=
  ⟨by intro k; simp, by decide +kernel⟩

theorem witness_EveryStepKeepsTheInvariant :
    MachineInv (pending .pxdec (dot .v1x1 1 1 1 4)) ∧ ∃ t, step (pending .pxdec (dot .v1x1 1 1 1 4)) = .next t :=
  ⟨inv (by decide +kernel), _, rfl⟩

theorem witness_ValidGeometryStaysFresh :
    (∃ s t, MachineInv s ∧ step s = .next t ∧ s.pending = some 0x00000001#32 ∧ spoiled .geom s = false
        ∧ s.regs.variant.valid = false ∧ t.regs.variant.valid = true)
      ∧ ∃ s t, MachineInv s ∧ step s = .next t ∧ s.pending ≠ some 0x00000001#32 ∧ FreshGeometry s
        ∧ t.regs.variant.valid = true :=
  ⟨⟨pending .geom (sized 8 2 1 1 1 State.reset), _, inv (by decide +kernel), rfl, by decide +kernel⟩,
    ⟨pending .nop (dot .v8x3 8 3 0 0), _, inv (by decide +kernel), rfl, by decide +kernel, fresh (by decide +kernel),
      by decide +kernel⟩⟩

theorem witness_StepRunsThePendingCommand :
    ((pending .nop State.reset).pending = some 0#32 ∧ (pending .nop State.reset).dec = none
        ∧ (pending .nop State.reset).host = [])
      ∧ State.reset.host = [] ∧ State.reset.pending = none
      ∧ (∀ e ∈ [HostEvent.engine, .regWrite 0x7FC 32 0#32, .regRead 0x800 32, .memWrite 0xFFFFFFFF 0x41#8, .memRead 0, .hardReset,
            .waitDone], (next e State.reset).host = [e] ∧ (next e State.reset).pending = none
          ∧ (next e State.reset).regs.status.done = false)
      ∧ ((next .waitDone (pending .geom State.reset)).pending = some 1#32
        ∧ (next .waitDone (pending .geom State.reset)).dec = none
        ∧ (next .waitDone (pending .geom State.reset)).regs.status.done = false)
      ∧ (after (exec .nop State.reset)).regs.status.done = true := by
  decide +kernel

theorem witness_StepRunsTheBodyToken :
    decoding.pending = some (commandWord .rled) ∧ decoding.dec = some Cursor.start ∧ decoding.host = []
      ∧ Cursor.start.ln < decoding.regs.height.toNat * decoding.regs.nplanes.toNat
      ∧ decodeToken ((List.range (decoding.regs.srcLen.toNat - Cursor.start.ip)).map fun k =>
          srcByte decoding (Cursor.start.ip + k)) = .ok (.rleLiteral 0x00#8, List.replicate 11 0x00#8) := by decide +kernel

theorem witness_NoStepChangesTheConfiguration : ∃ t, step (next .hardReset (pending .rlee (dot .v8x1 8 1 1 2))) = .next t :=
  ⟨_, rfl⟩

theorem witness_HazardFlagIsSticky :
    (∃ s t, step s = .next t ∧ s.regs.status.hzd = true ∧ t.regs.status.hzd = false
        ∧ s.host = [.regWrite 0x004 32 0x00000008#32])
      ∧ (∃ s t, step s = .next t ∧ s.regs.status.hzd = true ∧ t.regs.status.hzd = false
        ∧ s.host = [.regWrite 0x008 32 0x00000002#32] ∧ s.busy = true)
      ∧ ∃ s t, step s = .next t ∧ s.regs.status.hzd = true ∧ t.regs.status.hzd = false ∧ s.host = [.hardReset] :=
  ⟨⟨next (.regWrite 0x004 32 0x00000008#32) (hazardous State.reset), _, rfl, by decide +kernel⟩,
    ⟨next (.regWrite 0x008 32 0x00000002#32) (hazardous (pending .rlee State.reset)), _, rfl, by decide +kernel⟩,
    ⟨next .hardReset (hazardous State.reset), _, rfl, by decide +kernel⟩⟩

theorem witness_OnlyHostAndPalresWritePalram :
    (∃ s t, MachineInv s ∧ step s = .next t ∧ t.palram[255] ≠ s.palram[255] ∧ s.host = [.regWrite 0x7FC 32 0x00FFFFFF#32])
      ∧ (∃ s t, MachineInv s ∧ step s = .next t ∧ t.palram[0] ≠ s.palram[0] ∧ s.pending = some 0x00000002#32)
      ∧ ∃ s t, MachineInv s ∧ step s = .next t ∧ t.palram[0] ≠ s.palram[0] ∧ s.host = [.hardReset] :=
  ⟨⟨next (.regWrite 0x7FC 32 0x00FFFFFF#32) State.reset, _, inv (by decide +kernel), rfl, by decide +kernel⟩,
    ⟨pending .palres (dot .v1x1 1 1 0 0), _, inv (by decide +kernel), rfl, by decide +kernel⟩,
    ⟨next .hardReset (coloured ega4 4 State.reset), _, inv (by decide +kernel), rfl, by decide +kernel⟩⟩

theorem witness_RegisterWindowIsWordAddressed :
    regOfAccess Config.default 0x07C 32 = some .reserved ∧ regOfAccess Config.default 0x3FC 32 = some .reserved
      ∧ regOfAccess Config.default 0x400 32 = some (.palram 0) ∧ regOfAccess Config.default 0x7FC 32 = some (.palram 255)
      ∧ regOfAccess Config.default 0x078 32 = some (.hpal 11) ∧ regOfAccess Config.default 0x800 32 = none
      ∧ regOfAccess Config.default 0x002 32 = none ∧ regOfAccess Config.default 0x004 16 = none := by decide +kernel

theorem witness_ReadsHaveNoSideEffect :
    regOfIndex 0 = some .cmd ∧ regOfIndex 511 = some (.palram 255) ∧ regOfIndex 255 = some .reserved := by decide

theorem witness_HostWriteChangesOnlyItsRegister :
    State.reset.busy = false ∧ Reg.width ∉ [Reg.cmd, .status, .ctrl] ∧ Reg.width ≠ .palctl ∧ Reg.width ∈ geometryInputs
      ∧ Reg.palram 255 ∉ [Reg.cmd, .status, .ctrl] ∧ Reg.palctl ∉ [Reg.cmd, .status, .ctrl]
      ∧ (0xFFFFFFFD#32).getLsbD 1 = false ∧ (0xFFFFFFFD#32).getLsbD 0 = true ∧ (0x00000000#32).getLsbD 1 = false := by decide

/-- CMD, STATUS, PALCTL, HPAL and VERSION writes need an idle block only. -/
theorem witness_CmdWriteStartsACommand : (dot .v1x1 1 1 0 0).busy = false := by decide

theorem witness_AcknowledgeClearsTheWrittenFlags : State.reset.busy = false ∧ (0x0000000E#32).getLsbD 1 = true := by decide

theorem witness_GeometryWriteClearsValid :
    (dot .v1x1 1 1 0 0).busy = false ∧ ∀ r ∈ [Reg.width, .height, .bpp, .nplanes, .bplo], r ∈ geometryInputs := by decide

theorem witness_PalctlWriteStoresLegalValues : (coloured ega4 4 State.reset).busy = false := by decide +kernel

theorem witness_HpalBytesAreLittleEndian :
    State.reset.busy = false ∧ 47 / 4 = (11 : Fin 12).val ∧ 0 / 4 = (0 : Fin 12).val ∧ 47 < 48 := by decide

theorem witness_SoftResetAbandonsThePendingCommand :
    (0x00000002#32).getLsbD 1 = true ∧ State.reset.pending = none
      ∧ (pending .rlee (plain 4 8)).pending = some 0x00000004#32 ∧ usesOutput (decodeCommand 0x00000004#32) = true
      ∧ 0x8007 < (plain 4 8).regs.dstAddr.toNat + (plain 4 8).regs.dstCap.toNat ∧ 0x8007 < (plain 4 8).addrTop := by decide +kernel

/-- Another agent has written byte 0x1003 while a command was pending. -/
def racedInput (s : State) : State := { s with race := ⟨false, [0x1003], []⟩ }

/-- A V8x1 image, its regions [0x1000, 0x1004) and [0x8000, 0x8008), and a device whose one byte is `a`. -/
def windowed (a : Nat) : State := { dot .v8x1 8 1 4 8 with cfg := { Config.default with devices := [⟨a, 1⟩] } }

theorem witness_BusyWriteIsAHazard :
    ((pending .rlee (plain 4 8)).busy = true ∧ Reg.cmd ≠ .ctrl ∧ Reg.cmd ≠ .reserved)
      ∧ (spoilt (pending .rlee (plain 4 8))).race.tainted = true
      ∧ (0x1003 ∈ (racedInput (dot .v8x1 8 1 4 8)).race.inBytes ∧ spoiled .rlee (racedInput (dot .v8x1 8 1 4 8)) = true)
      ∧ (usesInput .rlee (windowed 0x1003) = true ∧ (windowed 0x1003).input.holds 0x1003 = true
        ∧ (windowed 0x1003).isDevice 0x1003 = true ∧ spoiled .rlee (windowed 0x1003) = true)
      ∧ (usesOutput .rlee = true ∧ (windowed 0x8007).output.holds 0x8007 = true ∧ (windowed 0x8007).isDevice 0x8007 = true
        ∧ spoiled .rlee (windowed 0x8007) = true)
      ∧ (∀ a ∈ [0x0FFF, 0x1004, 0x7FFF, 0x8008], spoiled .rlee (windowed a) = false)
      ∧ (∀ i ∈ [Instr.geom, .palres, .rlee, .illegal 9#32], i.isCommand = true ∧ spoiled i (spoilt (dot .v2x1 2 1 4 8)) = true)
      ∧ 3 < paletteCount (spoilt (dot .v2x1 2 1 4 8)) ∧ ¬ 4 < paletteCount (spoilt (dot .v2x1 2 1 4 8))
      ∧ (dot .v2x1 2 1 4 8).regs.variant.code = .v2x1 ∧ (dot .v8x1 8 1 4 8).regs.variant.code ≠ .v2x1 := by decide +kernel

theorem witness_RacesLeaveValuesUnspecified :
    (0xFFFFFFFF < (windowed 0x8007).addrTop ∧ (windowed 0x8007).isDevice 0xFFFFFFFF = false
        ∧ 0x8007 < (windowed 0x8007).addrTop ∧ (windowed 0x8007).isDevice 0x8007 = true
        ∧ (windowed 0x8007).addrTop ≤ 0x100000000)
      ∧ (∃ t, memoryWrite 0x1003 0x41#8 State.reset = .next t ∧ State.reset.pending = none)
      ∧ (∃ t, memoryWrite 0x1004 0x41#8 (pending .rlee (plain 4 8)) = .next t ∧ (plain 4 8).input.holds 0x1004 = false
        ∧ (plain 4 8).output.holds 0x1004 = false)
      ∧ (∃ t u, memoryWrite 0x1003 0x41#8 (pending .rlee (plain 4 8)) = .next t
        ∧ usesInput .rlee (pending .rlee (plain 4 8)) = true ∧ (plain 4 8).input.holds 0x1003 = true ∧ exec .rlee t = .next u
        ∧ usesOutput .rlee = true ∧ (plain 4 8).output.holds 0x8007 = true ∧ 0x8007 < (plain 4 8).addrTop)
      ∧ (∃ t, memoryRead 0x8008 (pending .rlee (plain 4 8)) = .next t ∧ (plain 4 8).output.holds 0x8008 = false)
      ∧ (∃ t, memoryRead 0x8007 (pending .rlee (plain 4 8)) = .next t ∧ usesOutput .rlee = true
        ∧ (plain 4 8).output.holds 0x8007 = true)
      ∧ ∃ t, exec .rlee { plain 4 8 with race := ⟨false, [], [0x8007]⟩ } = .next t ∧ (plain 4 8).output.holds 0x8007 = true
        ∧ 0x8007 < (plain 4 8).addrTop
        ∧ spoiled .rlee { plain 4 8 with race := ⟨false, [], [0x8007]⟩ } = false ∧ 0x8006 ∉ [0x8007] :=
  ⟨by decide +kernel, ⟨_, rfl, rfl⟩, ⟨_, rfl, by decide +kernel⟩, ⟨_, _, rfl, by decide +kernel, by decide +kernel, rfl, by decide +kernel⟩,
    ⟨_, rfl, by decide +kernel⟩, ⟨_, rfl, by decide +kernel⟩, ⟨_, rfl, by decide +kernel⟩⟩

theorem witness_InterruptFollowsCompletionAndAcknowledge :
    (∃ t, Instr.nop.isCommand = true ∧ exec .nop { State.reset with regs := { Regs.reset with irqEn := true } } = .next t)
      ∧ (0x00000001#32).getLsbD 1 = false ∧ (0x0000000E#32).getLsbD 1 = true ∧ State.reset.busy = false :=
  ⟨⟨_, rfl, rfl⟩, by decide⟩

theorem witness_EveryCommandCompletes :
    ∀ i ∈ [Instr.nop, .geom, .palres, .rled, .rlee, .rleeb, .pxdec, .pxenc, .palser, .illegal 9#32], i.isCommand = true := by decide

theorem witness_ErrorLeavesTheRestUnchanged :
    (∃ t, Undisturbed .rlee (plain 4 8) ∧ exec .rlee (plain 4 8) = .next t ∧ t.regs.status.err = true ∧ usesOutput .rlee = true)
      ∧ ∃ t, Undisturbed .geom State.reset ∧ exec .geom State.reset = .next t ∧ t.regs.status.err = true :=
  ⟨⟨_, undisturbed (by decide +kernel), rfl, by decide +kernel⟩, ⟨_, undisturbed (by decide +kernel), rfl, by decide +kernel⟩⟩

theorem witness_EngineWritesOnlyItsOutputRegion :
    (∃ t, exec .pxdec (spoilt (dot .v1x1 1 1 1 4)) = .next t ∧ 0x8004 ∉ (spoilt (dot .v1x1 1 1 1 4)).race.outBytes
        ∧ (dot .v1x1 1 1 1 4).regs.dstAddr.toNat + (dot .v1x1 1 1 1 4).regs.dstCap.toNat ≤ 0x8004)
      ∧ ∃ t, exec .palres (dot .v1x1 1 1 1 4) = .next t ∧ usesOutput .palres = false ∧ (dot .v1x1 1 1 1 4).race.outBytes = [] :=
  ⟨⟨_, rfl, by decide +kernel⟩, ⟨_, rfl, by decide +kernel⟩⟩

theorem witness_UnconfiguredCommandsRaiseNotConfigured :
    (∀ i ∈ [Instr.palres, .rled, .rlee, .rleeb, .pxdec, .pxenc, .palser],
        (plain 4 8).regs.variant.valid = false ∧ spoiled i (plain 4 8) = false ∧ (plain 4 8).race.outBytes = [])
      ∧ ∃ t, exec .nop (plain 4 8) = .next t :=
  ⟨by decide +kernel, _, rfl⟩

/-- A V8x1 image whose input region ends one byte past the space. -/
def tooHigh : State := { dot .v8x1 8 1 2 2 with regs := { (dot .v8x1 8 1 2 2).regs with srcAddr := 0xFFFFFFFF#32 } }

/-- A V8x1 image whose regions share the byte 0x8001. -/
def overlapping : State := { dot .v8x1 8 1 2 2 with regs := { (dot .v8x1 8 1 2 2).regs with srcAddr := 0x8001#32 } }

theorem witness_RegionChecksRaiseTheirErrors :
    (Undisturbed .palres tooHigh ∧ tooHigh.regs.variant.valid = true ∧ usesInput .palres tooHigh = true
        ∧ tooHigh.addrTop < tooHigh.regs.srcAddr.toNat + tooHigh.regs.srcLen.toNat)
      ∧ Undisturbed .rlee overlapping ∧ usesInput .rlee overlapping = true ∧ usesOutput .rlee = true
        ∧ overlapping.regs.variant.valid = true
        ∧ overlapping.regs.srcAddr.toNat + overlapping.regs.srcLen.toNat ≤ overlapping.addrTop
        ∧ overlapping.regs.dstAddr.toNat + overlapping.regs.dstCap.toNat ≤ overlapping.addrTop
        ∧ overlapping.input.holds 0x8001 = true ∧ overlapping.output.holds 0x8001 = true :=
  ⟨⟨undisturbed (by decide +kernel), by decide +kernel⟩, undisturbed (by decide +kernel), by decide +kernel⟩

theorem witness_SizeChecksRaiseTheirErrors :
    (Ready (dot .v8x1 8 1 0 0) ∧ Undisturbed .rled (dot .v8x1 8 1 0 0) ∧ Undisturbed .rlee (dot .v8x1 8 1 0 0)
        ∧ Undisturbed .rleeb (dot .v8x1 8 1 0 0) ∧ Undisturbed .pxdec (dot .v8x1 8 1 0 0)
        ∧ Undisturbed .pxenc (dot .v8x1 8 1 0 0)
        ∧ (dot .v8x1 8 1 0 0).regs.height.toNat * (dot .v8x1 8 1 0 0).regs.nplanes.toNat * (dot .v8x1 8 1 0 0).regs.bpl.toNat = 1)
      ∧ (Ready (dot .v8x1 8 1 1 3) ∧ Undisturbed .pxdec (dot .v8x1 8 1 1 3))
      ∧ (Ready (dot .v8x1 8 1 4 0) ∧ Undisturbed .pxenc (dot .v8x1 8 1 4 0))
      ∧ (Undisturbed .palser (dot .v8x1 8 1 0 816) ∧ (dot .v8x1 8 1 0 816).regs.dstCap.toNat < 817)
      ∧ Undisturbed .palser (dot .v1x1 1 1 0 47) ∧ (dot .v1x1 1 1 0 47).regs.dstCap.toNat < 48 :=
  ⟨⟨ready (by decide +kernel), undisturbed (by decide +kernel), undisturbed (by decide +kernel), undisturbed (by decide +kernel),
      undisturbed (by decide +kernel), undisturbed (by decide +kernel), by decide +kernel⟩,
    ⟨ready (by decide +kernel), undisturbed (by decide +kernel)⟩, ⟨ready (by decide +kernel), undisturbed (by decide +kernel)⟩,
    ⟨undisturbed (by decide +kernel), by decide +kernel⟩, undisturbed (by decide +kernel), by decide +kernel⟩

theorem witness_NopOnlyCompletes : Undisturbed .nop (pending .nop State.reset) := undisturbed (by decide +kernel)

theorem witness_IllegalCommandReportsItsWord :
    legalCommand 0x00000009#32 = false ∧ legalCommand 0xFFFFFFFF#32 = false
      ∧ Undisturbed (.illegal 0x00000009#32) State.reset :=
  ⟨by decide, by decide, undisturbed (by decide +kernel)⟩

theorem witness_GeomDerivesTheGeometry :
    ∀ g ∈ [(sized 3 1 4 1 3 State.reset, Variant.v4x1, 2, true), (sized 65535 1 8 3 65535 State.reset, .v8x3, 65535, false),
        (sized 1 1 1 1 2 State.reset, .v1x1, 1, true)],
      spoiled .geom g.1 = false ∧ g.1.race.outBytes = []
        ∧ (g.1.regs.bpp.toNat, g.1.regs.nplanes.toNat, g.2.1) ∈ variantTable
        ∧ 1 ≤ g.1.regs.width.toNat ∧ 1 ≤ g.1.regs.height.toNat
        ∧ 8 * g.2.2.1 < g.1.regs.width.toNat * g.1.regs.bpp.toNat + 8
        ∧ g.1.regs.width.toNat * g.1.regs.bpp.toNat ≤ 8 * g.2.2.1
        ∧ g.1.regs.bplo.toNat = g.2.2.1 + g.2.2.2.toNat := by decide +kernel

theorem witness_GeomRefusesOtherGeometries :
    (∀ v, (8, 2, v) ∉ variantTable) ∧ (1, 1, Variant.v1x1) ∈ variantTable
      ∧ (sized 0 1 1 1 1 State.reset).regs.width.toNat = 0 ∧ (sized 1 0 1 1 1 State.reset).regs.height.toNat = 0
      ∧ (∀ d ∈ [((3 : Nat), (2 : Int)), (0, -1)], d.2 = (d.1 : Int) - ((8 * 1 + 7) / 8 : Nat) ∧ d.2 ≠ 0 ∧ d.2 ≠ 1)
      ∧ Undisturbed .geom (sized 8 1 1 1 0 State.reset) :=
  ⟨fun v => by cases v <;> decide, by decide, by decide, by decide, by decide, undisturbed (by decide +kernel)⟩

theorem witness_PalresMonochromeAndTrueColour :
    (Undisturbed .palres (dot .v1x1 1 1 0 0) ∧ (dot .v1x1 1 1 0 0).regs.variant = ⟨.v1x1, false, true⟩)
      ∧ Undisturbed .palres (dot .v8x3 8 3 0 0) ∧ (dot .v8x3 8 3 0 0).regs.variant = ⟨.v8x3, false, true⟩ :=
  ⟨⟨undisturbed (by decide +kernel), by decide⟩, undisturbed (by decide +kernel), by decide⟩

/-- Both branches are taken: test_A2_palres_explicit, test_A3_palres_derived. -/
theorem witness_PalresCgaComposite :
    Undisturbed .palres cgaState ∧ cgaState.regs.variant = ⟨.v2x1, false, true⟩
      ∧ ∃ e : Nat → Rgb, ∀ i, e i = hpalByte cgaState.regs (3 * i) ++ hpalByte cgaState.regs (3 * i + 1)
          ++ hpalByte cgaState.regs (3 * i + 2) :=
  ⟨undisturbed (by decide +kernel), by decide, _, fun _ => rfl⟩

theorem witness_PalresPlanarVariants :
    ∀ s ∈ [dot .v1x2 1 2 0 0, dot .v1x3 1 3 0 0, header 3 0 0 0 (dot .v1x4 1 4 0 0)],
      spoiled .palres s = false ∧ s.race.outBytes = [] ∧ s.regs.variant.valid = true
        ∧ (s.regs.nplanes.toNat, s.regs.variant.code) ∈ [(2, Variant.v1x2), (3, .v1x3), (4, .v1x4)]
        ∧ (s.regs.version ∈ s.cfg.noPaletteVersions ↔ s.regs.version = 3#8) := by decide +kernel

theorem witness_PalresNibblePacked :
    Undisturbed .palres (header 3 0 0 0 (dot .v4x1 4 1 0 0)) ∧ (dot .v4x1 4 1 0 0).regs.variant = ⟨.v4x1, false, true⟩ :=
  ⟨undisturbed (by decide +kernel), by decide⟩

theorem witness_PalresReadsTheTrailer :
    (Undisturbed .palres tooHigh ∧ tooHigh.regs.variant.code = .v8x1
        ∧ tooHigh.addrTop < tooHigh.regs.srcAddr.toNat + tooHigh.regs.srcLen.toNat)
      ∧ (Undisturbed .palres (dot .v8x1 8 1 768 0) ∧ (dot .v8x1 8 1 768 0).regs.srcLen.toNat < 769)
      ∧ inputByte (dot .v8x1 8 1 769 0) (769 - 769) ≠ 0x0C#8
      ∧ Undisturbed .palres (put 0x1000 [0x0C#8] (dot .v8x1 8 1 769 0))
      ∧ inputByte (put 0x1000 [0x0C#8] (dot .v8x1 8 1 769 0)) (769 - 769) = 0x0C#8 :=
  ⟨⟨undisturbed (by decide +kernel), by decide +kernel⟩, ⟨undisturbed (by decide +kernel), by decide +kernel⟩, by decide +kernel,
    undisturbed (by decide +kernel), by decide +kernel⟩

theorem witness_PalserWritesTheImage :
    (∀ s ∈ [coloured ega4 4 (dot .v4x1 4 1 0 48), coloured ega4 17 (dot .v4x1 4 1 0 48), after (exec .palres cgaState)],
      spoiled .palser s = false ∧ s.race.outBytes = [] ∧ s.regs.variant.valid = true
        ∧ 48 = (if s.regs.variant.code = .v8x1 then 817 else 48) ∧ 48 ≤ s.regs.dstCap.toNat
        ∧ s.regs.dstAddr.toNat + s.regs.dstCap.toNat ≤ s.addrTop)
      ∧ (after (exec .palres cgaState)).regs.palctl.path = .cgaDerived
      ∧ HoldsColour (coloured ega4 4 (dot .v4x1 4 1 0 48)) 3 0x00AAAA#24
      ∧ Undisturbed .palser (coloured ega4 4 (dot .v8x1 8 1 0 817)) ∧ 817 ≤ (dot .v8x1 8 1 0 817).regs.dstCap.toNat :=
  ⟨by decide +kernel, by decide +kernel, ⟨by decide, by decide +kernel⟩, undisturbed (by decide +kernel), by decide +kernel⟩

theorem witness_CgaPaletteSurvivesSerialisation :
    ∃ s a b u v, Undisturbed .palres s ∧ s.regs.variant.valid = true ∧ s.regs.variant.code = .v2x1
      ∧ exec .palres s = .next a ∧ a.regs.palctl.path = .cgaDerived
      ∧ (48 ≤ s.regs.dstCap.toNat ∧ s.regs.dstAddr.toNat + s.regs.dstCap.toNat ≤ s.addrTop)
      ∧ Undisturbed .palser a ∧ exec .palser a = .next b
      ∧ u.cfg = s.cfg ∧ Undisturbed .palres u ∧ u.regs.variant.valid = true ∧ u.regs.variant.code = .v2x1
      ∧ (∀ k, k < 48 → hpalByte u.regs k = outputByte b k) ∧ exec .palres u = .next v :=
  ⟨cgaState, _, _, cgaState, _, undisturbed (by decide +kernel), by decide, by decide, rfl, by decide +kernel, by decide +kernel,
    undisturbed (by decide +kernel), rfl, rfl, undisturbed (by decide +kernel), by decide, by decide, by decide +kernel, rfl⟩

/-- The same state serves RLEE and RLEEB; with `cap` 0 the one token does not fit. -/
theorem witness_RleeEncodesOneLine :
    (Ready (dot .v8x1 8 1 1 1) ∧ Undisturbed .rlee (dot .v8x1 8 1 1 1)
        ∧ (dot .v8x1 8 1 1 1).regs.bpl.toNat ≤ (dot .v8x1 8 1 1 1).regs.srcLen.toNat
        ∧ encodeLine ((List.range (dot .v8x1 8 1 1 1).regs.bpl.toNat).map (inputByte (dot .v8x1 8 1 1 1))) = [0x00#8])
      ∧ Ready (dot .v8x1 8 1 1 0) ∧ Undisturbed .rlee (dot .v8x1 8 1 1 0) :=
  ⟨⟨ready (by decide +kernel), undisturbed (by decide +kernel), by decide +kernel⟩, ready (by decide +kernel),
    undisturbed (by decide +kernel)⟩

theorem witness_RleebEncodesEveryLine :
    (Ready (dot .v8x3 8 3 3 3) ∧ Undisturbed .rleeb (dot .v8x3 8 3 3 3)
        ∧ (dot .v8x3 8 3 3 3).regs.height.toNat * (dot .v8x3 8 3 3 3).regs.nplanes.toNat * (dot .v8x3 8 3 3 3).regs.bpl.toNat
          ≤ (dot .v8x3 8 3 3 3).regs.srcLen.toNat)
      ∧ Ready (dot .v8x3 8 3 3 2) ∧ Undisturbed .rleeb (dot .v8x3 8 3 3 2) :=
  ⟨⟨ready (by decide +kernel), undisturbed (by decide +kernel), by decide +kernel⟩, ready (by decide +kernel),
    undisturbed (by decide +kernel)⟩

/-- Vector D5 as a decode under way: DROP_ONE, and a run of 4 that crosses the end of a line of 2. -/
def cutDecode : State := { straddling .dropOne with dec := some Cursor.start }

/-- Vector D5: the run writes two copies, drops one and writes one more, at the start of the next line. -/
theorem test_D5_run_cut_by_drop_one :
    let t := after (exec (.rleRun 4#6 0x07#8) cutDecode)
    outputs t 4 = [0x07#8, 0x07#8, 0x07#8, 0x00#8] ∧ t.dec = some ⟨130, 3, 1, 1⟩ := by decide +kernel

theorem witness_TokensActOnADecodeUnderWay :
    (∀ n ∈ [0, 1, 4, 63], n < 64 ∧ decoding.dec = some Cursor.start
        ∧ (Instr.rleRun (BitVec.ofNat 6 n) 0x07#8, 2, n) ∈ [(Instr.rleRun (BitVec.ofNat 6 n) 0x07#8, 2, n),
            (.rleEscapedLiteral 0x07#8, 2, 1), (.rleLiteral 0x07#8, 1, 1)]
        ∧ Cursor.start.ln < decoding.regs.height.toNat * decoding.regs.nplanes.toNat
        ∧ Cursor.start.lc < decoding.regs.bplo.toNat ∧ Cursor.start.o + n ≤ decoding.regs.dstCap.toNat
        ∧ decoding.regs.dstAddr.toNat + decoding.regs.dstCap.toNat ≤ decoding.addrTop ∧ decoding.cfg.straddle = .dropRest)
      ∧ (cutDecode.dec = some Cursor.start ∧ tokenEffect (lineGeometry cutDecode) 2 4 0x07#8 Cursor.start
          = ([0x07#8, 0x07#8, 0x07#8], ⟨130, 3, 1, 1⟩)
        ∧ Cursor.start.o + 3 ≤ cutDecode.regs.dstCap.toNat
        ∧ cutDecode.regs.dstAddr.toNat + cutDecode.regs.dstCap.toNat ≤ cutDecode.addrTop)
      ∧ (∀ n ∈ [0, 3, 4], (⟨128, 0, 0, 0⟩ : Cursor).ln < (⟨4, true, 1, .dropOne⟩ : LineGeometry).lines ∧ 0 + n ≤ 4)
      ∧ (⟨4, true, 1, .dropOne⟩ : LineGeometry).lines ≤ (⟨130, 3, 0, 1⟩ : Cursor).ln
      ∧ (⟨4, true, 1, .dropOne⟩ : LineGeometry).policy = .dropOne ∧ 3 = 4 - 1 ∧ 3 < 63 ∧ State.reset.dec = none := by
  decide +kernel

/-- A 1 x 1 V8x1 image with a body of one zero byte. -/
theorem rledRuns_dot : RledRuns (dot .v8x1 8 1 129 1) :=
  ⟨ready (by decide +kernel), undisturbed (by decide +kernel), fresh (by decide +kernel), by decide +kernel⟩

theorem witness_RledCopiesLiteralsAndDropsPadding :
    RledRuns (dot .v8x1 8 1 129 1)
      ∧ 128 + (dot .v8x1 8 1 129 1).regs.height.toNat * (dot .v8x1 8 1 129 1).regs.nplanes.toNat
          * (dot .v8x1 8 1 129 1).regs.bplo.toNat ≤ (dot .v8x1 8 1 129 1).regs.srcLen.toNat
      ∧ ∀ k, k < (dot .v8x1 8 1 129 1).regs.height.toNat * (dot .v8x1 8 1 129 1).regs.nplanes.toNat
          * (dot .v8x1 8 1 129 1).regs.bplo.toNat → inputByte (dot .v8x1 8 1 129 1) (128 + k) &&& 0xC0#8 ≠ 0xC0#8 :=
  ⟨rledRuns_dot, by decide +kernel⟩

theorem witness_RledWritesExactlyTheBitmap :
    (∃ t, RledRuns (dot .v8x1 8 1 129 1) ∧ exec .rled (dot .v8x1 8 1 129 1) = .next t ∧ t.regs.status.err = false)
      ∧ (∃ t, RledRuns (dot .v8x1 8 1 128 1) ∧ (dot .v8x1 8 1 128 1).regs.srcLen.toNat ≤ 128
        ∧ exec .rled (dot .v8x1 8 1 128 1) = .next t ∧ t.regs.status.err = true ∧ t.regs.errInfo = 128#32)
      ∧ ∃ t, RledRuns (put 0x1080 [0xC5#8] (dot .v8x1 8 1 129 1)) ∧ exec .rled (put 0x1080 [0xC5#8] (dot .v8x1 8 1 129 1)) = .next t
        ∧ t.regs.status.err = true ∧ t.regs.errInfo = 129#32 :=
  ⟨⟨_, rledRuns_dot, rfl, by decide +kernel⟩,
    ⟨_, ⟨ready (by decide +kernel), undisturbed (by decide +kernel), fresh (by decide +kernel), by decide +kernel⟩,
      by decide +kernel, rfl, by decide +kernel⟩,
    ⟨_, ⟨ready (by decide +kernel), undisturbed (by decide +kernel), fresh (by decide +kernel), by decide +kernel⟩, rfl,
      by decide +kernel⟩⟩

theorem witness_RledOfRleebIsTheBitmap :
    ∃ s t u n, Ready s ∧ Undisturbed .rleeb s ∧ FreshGeometry s
      ∧ s.regs.height.toNat * s.regs.nplanes.toNat * s.regs.bpl.toNat ≤ s.regs.srcLen.toNat
      ∧ exec .rleeb s = .next t ∧ t.regs.status.err = false ∧ n = t.regs.result.toNat
      ∧ RledRuns u ∧ u.regs.height = s.regs.height ∧ u.regs.nplanes = s.regs.nplanes ∧ u.regs.bpl = s.regs.bpl
      ∧ u.regs.bplo = u.regs.bpl ∧ 128 + n ≤ u.regs.srcLen.toNat ∧ ∀ k, k < n → inputByte u (128 + k) = outputByte t k :=
  ⟨dot .v8x1 8 1 1 2, _, dot .v8x1 8 1 129 1, 1, ready (by decide +kernel), undisturbed (by decide +kernel),
    fresh (by decide +kernel), by decide +kernel, rfl, by decide +kernel, by decide +kernel, rledRuns_dot, by decide, by decide,
    by decide, by decide, by decide +kernel, by decide +kernel⟩

theorem witness_RledEqualsItsTokensOneByOne :
    ∃ s t, RledRuns s ∧ s.host = [] ∧ s.pending = some (commandWord .rled) ∧ s.dec = none ∧ step s = .next t :=
  ⟨pending .rled (dot .v8x1 8 1 129 1), _,
    ⟨ready (by decide +kernel), undisturbed (by decide +kernel), fresh (by decide +kernel), by decide +kernel⟩, rfl, rfl, rfl, rfl⟩

theorem pxdecRuns {s : State}
    (h : checkBoth s = none ∧ (spoiled .pxdec s = false ∧ s.race.outBytes = [])
      ∧ (varsel s.regs.bpp s.regs.nplanes = some s.regs.variant.code ∧ 1 ≤ s.regs.width.toNat ∧ 1 ≤ s.regs.height.toNat
        ∧ s.regs.bpl.toNat = bytesPerLine s.regs.width s.regs.bpp
        ∧ s.regs.bplo.toNat = s.regs.bpl.toNat + s.regs.variant.notEven.toNat)
      ∧ s.regs.height.toNat * s.regs.nplanes.toNat * s.regs.bpl.toNat ≤ s.regs.srcLen.toNat
      ∧ s.regs.width.toNat * s.regs.height.toNat * 4 ≤ s.regs.dstCap.toNat) : PxdecRuns s :=
  ⟨ready h.1, undisturbed h.2.1, fresh h.2.2.1, h.2.2.2.1, h.2.2.2.2⟩

theorem pxencRuns {s : State}
    (h : checkBoth s = none ∧ (spoiled .pxenc s = false ∧ s.race.outBytes = [])
      ∧ (varsel s.regs.bpp s.regs.nplanes = some s.regs.variant.code ∧ 1 ≤ s.regs.width.toNat ∧ 1 ≤ s.regs.height.toNat
        ∧ s.regs.bpl.toNat = bytesPerLine s.regs.width s.regs.bpp
        ∧ s.regs.bplo.toNat = s.regs.bpl.toNat + s.regs.variant.notEven.toNat)
      ∧ s.regs.width.toNat * s.regs.height.toNat * 4 ≤ s.regs.srcLen.toNat
      ∧ s.regs.height.toNat * s.regs.nplanes.toNat * s.regs.bpl.toNat ≤ s.regs.dstCap.toNat) : PxencRuns s :=
  ⟨ready h.1, undisturbed h.2.1, fresh h.2.2.1, h.2.2.2.1, h.2.2.2.2⟩

theorem witness_PxdecMonochromeAndTrueColour :
    PxdecRuns (dot .v1x1 1 1 1 4) ∧ (dot .v1x1 1 1 1 4).regs.variant.code = .v1x1 ∧ PxdecRuns (dot .v8x3 8 3 3 4)
      ∧ (dot .v8x3 8 3 3 4).regs.variant.code = .v8x3 ∧ InImage (dot .v8x3 8 3 3 4) 0 0 :=
  ⟨pxdecRuns (by decide +kernel), rfl, pxdecRuns (by decide +kernel), rfl, by decide, by decide⟩

theorem witness_PxdecPackedPalette :
    ∀ s ∈ [coloured ega4 4 (dot .v2x1 2 1 1 4), coloured ega4 4 (dot .v4x1 4 1 1 4), coloured ega4 4 (dot .v8x1 8 1 1 4)],
      PxdecRuns s ∧ HoldsColour s 0 0x000000#24 ∧ InImage s 0 0
        ∧ ((inputByte s 0).extractLsb' 6 2).toNat = 0 ∧ ((inputByte s 0).extractLsb' 4 4).toNat = 0 ∧ (inputByte s 0).toNat = 0 := by
  intro s hs
  simp only [List.mem_cons, List.not_mem_nil, or_false] at hs
  obtain rfl | rfl | rfl := hs
  all_goals
    exact ⟨pxdecRuns (by decide +kernel), ⟨by decide, by decide +kernel⟩, ⟨by decide, by decide⟩, by decide +kernel⟩

theorem witness_PxdecPlanar :
    ∀ s ∈ [coloured ega4 4 (dot .v1x2 1 2 2 4), coloured ega4 4 (dot .v1x3 1 3 3 4), coloured ega4 4 (dot .v1x4 1 4 4 4)],
      PxdecRuns s ∧ s.regs.variant.code ∈ [Variant.v1x2, .v1x3, .v1x4] ∧ HoldsColour s 0 0x000000#24 ∧ InImage s 0 0
        ∧ 0 < 2 ^ s.regs.nplanes.toNat
        ∧ ∀ p, p < s.regs.nplanes.toNat → (0 : Nat).testBit p = (inputByte s p).getLsbD 7 := by
  intro s hs
  simp only [List.mem_cons, List.not_mem_nil, or_false] at hs
  obtain rfl | rfl | rfl := hs
  all_goals
    exact ⟨pxdecRuns (by decide +kernel), by decide, ⟨by decide, by decide +kernel⟩, ⟨by decide, by decide⟩, by decide +kernel⟩

theorem inImage_one {s : State} (hw : s.regs.width = 1#16) (hh : s.regs.height = 1#16) {x y : Nat} (h : InImage s x y) :
    x = 0 ∧ y = 0 := by
  have h1 := h.1
  have h2 := h.2
  rw [hw] at h1
  rw [hh] at h2
  exact ⟨by simpa using h1, by simpa using h2⟩

theorem activeWritten_one {s : State} (hn : s.regs.palctl.palLen = 1#9) (h0 : ∃ c, s.palram[0] = .written c) : ActiveWritten s := by
  intro k hk hl
  rw [hn] at hl
  obtain rfl : k = 0 := by simpa using hl
  exact h0

/-- A 1 x 1 black pixel and a palette that is black only. -/
def blackDot : State := coloured [0x000000#24] 1 (dot .v4x1 4 1 4 1)

theorem dictionary_blackDot : DictionaryIndex blackDot 0x000000#24 0 := by
  refine ⟨by decide +kernel, ⟨by decide, by decide +kernel⟩, fun j hj _ => ?_⟩
  exact Nat.zero_le j

theorem witness_PxencWritesTheIndices :
    (PxencRuns (dot .v1x1 1 1 4 1) ∧ (dot .v1x1 1 1 4 1).regs.variant.code = .v1x1
        ∧ ∀ x y, InImage (dot .v1x1 1 1 4 1) x y → inputPixel (dot .v1x1 1 1 4 1) x y = 0x000000#24)
      ∧ PxencRuns blackDot ∧ blackDot.regs.variant.code ≠ .v1x1 ∧ blackDot.regs.variant.code ≠ .v8x3 ∧ ActiveWritten blackDot
        ∧ blackDot.regs.palctl.palLen ≤ 256#9
        ∧ ∀ x y, InImage blackDot x y → DictionaryIndex blackDot (inputPixel blackDot x y) 0
          ∧ 0 < 2 ^ (blackDot.regs.bpp.toNat * blackDot.regs.nplanes.toNat) := by
  refine ⟨⟨pxencRuns (by decide +kernel), rfl, fun x y h => ?_⟩, pxencRuns (by decide +kernel), by decide, by decide,
    activeWritten_one rfl ⟨0x000000#24, by decide +kernel⟩, by decide +kernel, fun x y h => ?_⟩
  · obtain ⟨rfl, rfl⟩ := inImage_one rfl rfl h
    decide +kernel
  · obtain ⟨rfl, rfl⟩ := inImage_one rfl rfl h
    have : inputPixel blackDot 0 0 = 0x000000#24 := by decide +kernel
    rw [this]
    exact ⟨dictionary_blackDot, by decide +kernel⟩

theorem witness_PxencTrueColour :
    PxencRuns (dot .v8x3 8 3 4 3) ∧ (dot .v8x3 8 3 4 3).regs.variant.code = .v8x3 ∧ InImage (dot .v8x3 8 3 4 3) 0 0 :=
  ⟨pxencRuns (by decide +kernel), rfl, by decide, by decide⟩

/-- A 1 x 1 grey pixel. -/
def greyDot (v : Variant) (b : BitVec 8) : State := put 0x1000 [0x80#8, 0x80#8, 0x80#8] (coloured [0x000000#24] 1 (dot v b 1 4 1))

theorem greyDot_entry : (greyDot .v4x1 4).palram[0] ≠ .written (inputPixel (greyDot .v4x1 4) 0 0) := by decide +kernel

theorem witness_PxencRefusesUnknownColours :
    (PxencRuns (greyDot .v1x1 1) ∧ (greyDot .v1x1 1).regs.variant.code = .v1x1 ∧ InImage (greyDot .v1x1 1) 0 0
        ∧ inputPixel (greyDot .v1x1 1) 0 0 ≠ 0x000000#24 ∧ inputPixel (greyDot .v1x1 1) 0 0 ≠ 0xFFFFFF#24)
      ∧ PxencRuns (greyDot .v4x1 4) ∧ ActiveWritten (greyDot .v4x1 4) ∧ (greyDot .v4x1 4).regs.palctl.palLen ≤ 256#9
        ∧ InImage (greyDot .v4x1 4) 0 0 ∧ ∀ k, ¬ DictionaryIndex (greyDot .v4x1 4) (inputPixel (greyDot .v4x1 4) 0 0) k := by
  refine ⟨⟨pxencRuns (by decide +kernel), rfl, ⟨by decide, by decide⟩, by decide +kernel⟩, pxencRuns (by decide +kernel),
    activeWritten_one rfl ⟨0x000000#24, by decide +kernel⟩, by decide +kernel, ⟨by decide, by decide⟩, fun k h => ?_⟩
  obtain ⟨hk, ⟨_, hc⟩, _⟩ := h
  have hn : (greyDot .v4x1 4).regs.palctl.palLen.toNat = 1 := by decide +kernel
  obtain rfl : k = 0 := by omega
  exact greyDot_entry hc

/-- A 1 x 1 black pixel with alpha 255. -/
def opaqueDot : State := put 0x1003 [0xFF#8] blackDot

theorem witness_PxdecOfPxencIsThePixelBuffer :
    ∃ s t u, PxencRuns s ∧ s.regs.variant.code ≠ .v1x1 ∧ s.regs.variant.code ≠ .v8x3 ∧ ActiveWritten s
      ∧ s.regs.palctl.palLen.toNat ≤ 2 ^ (s.regs.bpp.toNat * s.regs.nplanes.toNat)
      ∧ (∀ x y, InImage s x y → inputByte s (pbaddr s.regs x y + 3) = 0xFF#8
        ∧ ∃ k, k < s.regs.palctl.palLen.toNat ∧ HoldsColour s k (inputPixel s x y))
      ∧ exec .pxenc s = .next t ∧ PxdecRuns u ∧ u.regs.width = s.regs.width ∧ u.regs.height = s.regs.height
      ∧ u.regs.bpp = s.regs.bpp ∧ u.regs.nplanes = s.regs.nplanes ∧ u.palram = t.palram
      ∧ ∀ k, k < s.regs.height.toNat * s.regs.nplanes.toNat * s.regs.bpl.toNat → inputByte u k = outputByte t k := by
  refine ⟨opaqueDot, _, coloured [0x000000#24] 1 (dot .v4x1 4 1 1 4), pxencRuns (by decide +kernel), by decide, by decide,
    activeWritten_one rfl ⟨0x000000#24, by decide +kernel⟩, by decide +kernel, fun x y h => ?_, rfl, pxdecRuns (by decide +kernel),
    by decide, by decide, by decide, by decide, by decide +kernel, by decide +kernel⟩
  obtain ⟨rfl, rfl⟩ := inImage_one rfl rfl h
  exact ⟨by decide +kernel, 0, by decide +kernel, by decide, by decide +kernel⟩

/-- The same for the two variants with no palette: a black pixel on V1x1, a grey one on V8x3. -/
theorem witness_PxdecOfPxencIsThePixelBuffer_direct :
    (∃ s t u, PxencRuns s ∧ s.regs.variant.code = .v1x1
        ∧ (∀ x y, InImage s x y → inputByte s (pbaddr s.regs x y + 3) = 0xFF#8 ∧ inputPixel s x y = 0x000000#24)
        ∧ exec .pxenc s = .next t ∧ PxdecRuns u ∧ u.regs.width = s.regs.width ∧ u.regs.height = s.regs.height
        ∧ u.regs.bpp = s.regs.bpp ∧ u.regs.nplanes = s.regs.nplanes ∧ u.palram = t.palram
        ∧ ∀ k, k < s.regs.height.toNat * s.regs.nplanes.toNat * s.regs.bpl.toNat → inputByte u k = outputByte t k)
      ∧ ∃ s t u, PxencRuns s ∧ s.regs.variant.code = .v8x3
        ∧ (∀ x y, InImage s x y → inputByte s (pbaddr s.regs x y + 3) = 0xFF#8)
        ∧ exec .pxenc s = .next t ∧ PxdecRuns u ∧ u.regs.width = s.regs.width ∧ u.regs.height = s.regs.height
        ∧ u.regs.bpp = s.regs.bpp ∧ u.regs.nplanes = s.regs.nplanes ∧ u.palram = t.palram
        ∧ ∀ k, k < s.regs.height.toNat * s.regs.nplanes.toNat * s.regs.bpl.toNat → inputByte u k = outputByte t k := by
  refine ⟨⟨put 0x1003 [0xFF#8] (dot .v1x1 1 1 4 1), _, dot .v1x1 1 1 1 4, pxencRuns (by decide +kernel), rfl, fun x y h => ?_, rfl,
      pxdecRuns (by decide +kernel), by decide, by decide, by decide, by decide, by decide +kernel, by decide +kernel⟩,
    put 0x1000 [0x80#8, 0x81#8, 0x82#8, 0xFF#8] (dot .v8x3 8 3 4 3), _, put 0x1000 [0x80#8, 0x81#8, 0x82#8] (dot .v8x3 8 3 3 4),
    pxencRuns (by decide +kernel), rfl, fun x y h => ?_, rfl, pxdecRuns (by decide +kernel), by decide, by decide, by decide,
    by decide, by decide +kernel, by decide +kernel⟩
  · obtain ⟨rfl, rfl⟩ := inImage_one rfl rfl h
    exact ⟨by decide +kernel, by decide +kernel⟩
  · obtain ⟨rfl, rfl⟩ := inImage_one rfl rfl h
    decide +kernel

end Sys2Proof.Tests
end

section
/-! PROOFS. The family of 10_state.md: the configuration, the register window, the resets, the reserved bits. -/

namespace Sys2Proof.Machine

/-! ## No step changes the configuration -/

theorem writeReg_cfg (s : State) (r : Reg) (w : Word) : (writeReg s r w).cfg = s.cfg := by
  cases r with
  | ctrl =>
    show (writeCtrl w s).cfg = s.cfg
    unfold writeCtrl
    split <;> rfl
  | _ => rfl

theorem hostWrite_cfg (s : State) (r : Reg) (w : Word) : (hostWrite s r w).cfg = s.cfg := by
  rcases hostWrite_cases s r w with ⟨-, -, h⟩ | ⟨-, -, h⟩ | ⟨-, h⟩ | ⟨-, -, -, h⟩ | ⟨-, -, -, h⟩ <;> rw [h]
  · exact softReset_cfg s
  · exact hazard_cfg s
  · exact writeReg_cfg s r w

theorem EngineMove.cfg_eq {s t : State} (h : EngineMove s t) : t.cfg = s.cfg := by
  cases h with
  | idle _ ht => rw [ht]
  | command w _ _ ht => rw [ht, (complete_completion (perform_outcome s (decodeCommand_isCommand w))).cfg]
  | token _ _ _ _ _ _ _ ht => rw [ht, tokenResult]
  | finished _ c _ _ ht => rw [ht, decodeFinish, (complete_completion (decodeFinish_outcome s c)).cfg]
  | exhausted _ _ off _ _ ht => rw [ht, decodeExhausted, (complete_completion (decodeExhausted_outcome s off)).cfg]

/-- Settles O12: each way a step goes on keeps `cfg`. -/
theorem noStepChangesTheConfiguration : Obligations.NoStepChangesTheConfiguration := by
  intro s t h
  cases step_cases h with
  | turn _ hm => exact hm.cfg_eq
  | engine _ _ hm => exact hm.cfg_eq
  | waitTurn _ _ _ hm => exact hm.cfg_eq
  | regWrite _ _ _ _ _ _ _ ht => rw [ht, hostWrite_cfg]
  | regRead _ _ _ _ _ _ ht => rw [ht, hostRead_cfg]
  | waitOver _ _ _ ht => rw [ht, hostRead_cfg]
  | memWrite _ _ _ _ _ ht => rw [ht]
  | memRead _ _ _ _ ht => rw [ht]; split <;> rfl
  | hardReset _ _ ht => rw [ht, hardReset_cfg]

/-! ## The register window -/

/-- The aligned word at index `k` of the window. -/
theorem regOfAccess_word (c : Config) (k : Nat) : regOfAccess c (c.regBase + 4 * k) 32 = regOfIndex k := by
  simp [regOfAccess]

/-- The access at an offset of the map names the word whose index is a quarter of it. -/
theorem regOfAccess_offset (c : Config) {off k : Nat} {r : Reg} (ho : off = 4 * k) (hr : regOfIndex k = some r) :
    regOfAccess c (c.regBase + off) 32 = some r := by
  rw [ho, regOfAccess_word, hr]

theorem regOfIndex_hpal (k : Fin 12) : regOfIndex (19 + k.val) = some (.hpal k) := by
  rw [regOfIndex_high (by omega), dif_pos (by omega)]
  simp

theorem regOfIndex_reserved {k : Nat} (h1 : 31 ≤ k) (h2 : k < 256) : regOfIndex k = some .reserved := by
  rw [regOfIndex_high (by omega), dif_neg (by omega), dif_neg (by omega), if_pos h2]

theorem regOfIndex_palram (i : Fin 256) : regOfIndex (256 + i.val) = some (.palram i) := by
  rw [regOfIndex_high (by omega), dif_neg (by omega), dif_pos (by omega)]
  simp

/-- An access names no word of the window exactly when it is not an aligned 32-bit access to one of the 512 words. -/
theorem regOfAccess_eq_none (c : Config) (addr bits : Nat) :
    regOfAccess c addr bits = none ↔ ¬ (bits = 32 ∧ ∃ k, k < 512 ∧ addr = c.regBase + 4 * k) := by
  unfold regOfAccess
  split
  next h =>
    rw [regOfIndex_none]
    constructor
    · rintro hk ⟨-, k, hlt, rfl⟩
      omega
    · intro hn
      by_contra hlt
      exact hn ⟨h.1, (addr - c.regBase) / 4, by omega, by omega⟩
  next h =>
    refine iff_of_true rfl ?_
    rintro ⟨hb, k, -, rfl⟩
    exact h ⟨hb, by omega, by omega⟩

theorem busWrite_refused_iff (s : State) (addr bits : Nat) (w : Word) :
    busWrite addr bits w s = .refused .badRegisterAccess ↔ regOfAccess s.cfg addr bits = none := by
  unfold busWrite
  split <;> simp [*]

theorem busRead_refused_iff (s : State) (addr bits : Nat) :
    busRead addr bits s = .refused .badRegisterAccess ↔ regOfAccess s.cfg addr bits = none := by
  unfold busRead
  split <;> simp [*]

/-- Settles O15: the map is that of `regOfIndex` at a quarter of the offset, and `regOfAccess_eq_none` says what is refused. -/
theorem registerWindowIsWordAddressed : Obligations.RegisterWindowIsWordAddressed := by
  refine ⟨fun c => ⟨fun p hp => ?_, fun k => ?_, fun j h1 h2 => ?_, fun i => ?_⟩,
    fun s addr bits => ⟨fun w => rfl, fun w => ?_, ?_⟩⟩
  · have named : p.1 = 4 * (p.1 / 4) ∧ regOfIndex (p.1 / 4) = some p.2 := by
      revert p
      decide
    exact regOfAccess_offset c named.1 named.2
  · exact regOfAccess_offset c (by omega) (regOfIndex_hpal k)
  · exact regOfAccess_offset c rfl (regOfIndex_reserved (by omega) (by omega))
  · exact regOfAccess_offset c (by omega) (regOfIndex_palram i)
  · rw [busWrite_refused_iff, regOfAccess_eq_none]
  · rw [busRead_refused_iff, regOfAccess_eq_none]

/-! ## The resets -/

/-- With the registers at their reset values and nothing pending, the host reads 0 everywhere but in PALRAM (10_state.md R36). -/
theorem readReg_of_reset {s : State} (hr : s.regs = Regs.reset) (hp : s.pending = none) {r : Reg}
    (h : ∀ k, r ≠ .palram k) : readReg s r = 0#32 := by
  cases r with
  | palram k => exact absurd rfl (h k)
  | status =>
    rw [readReg, hr, (busy_eq_false s).2 hp]
    decide
  | hpal k => simp [readReg, hr, Regs.reset]
  | cmd | reserved => rfl
  | _ =>
    simp only [readReg, hr]
    decide

theorem irq_of_reset {s : State} (hr : s.regs = Regs.reset) : s.irq = false := by
  rw [State.irq, hr]
  rfl

/-- The memory a reset leaves with a command pending is the one that losing the command's outputs leaves (45_control.md R113). -/
theorem abandonedMem_pending {s : State} {c : Word} (h : s.pending = some c) :
    abandonedMem s = (loseOutputs (decodeCommand c) s s).mem := by
  simp [abandonedMem, h]

theorem abandonedMem_idle {s : State} (h : s.pending = none) : abandonedMem s = s.mem := by
  simp [abandonedMem, h]

/-- What memory reads as after the pending command is abandoned. -/
theorem abandonedMem_read {s : State} {c : Word} (h : s.pending = some c) (a : Nat) :
    (abandonedMem s).read a =
      if usesOutput (decodeCommand c) = true ∧ s.regs.dstAddr.toNat ≤ a
        ∧ a < s.regs.dstAddr.toNat + s.regs.dstCap.toNat ∧ a < s.addrTop
      then Config.free 8 .memByte s.draws a else s.mem.read a := by
  rw [abandonedMem_pending h, loseOutputs_read a (fun _ _ => rfl) (fun _ => rfl)]

theorem palRead_unwritten {s : State} {i : Nat} (site : Nat) (h : i < 256) (hu : s.palram[i] = .unwritten) :
    palRead s site i = Config.free 24 .palRead s.draws site := by
  simp [palRead, h, hu]

/-- Settles O6, by what each reset leaves in `regs`, `palram`, `pending` and `mem`. -/
theorem resetsLeaveTheResetState : Obligations.ResetsLeaveTheResetState := by
  refine ⟨fun s r h => ⟨readReg_of_reset rfl rfl h, readReg_of_reset rfl rfl h⟩,
    fun s => ⟨rfl, rfl, irq_of_reset rfl, irq_of_reset rfl⟩, fun s k h => ⟨?_, rfl⟩, fun s k => ?_, fun s => ⟨rfl, rfl⟩,
    fun s hp a => ?_, fun s c hp a ha => ?_, fun r h => readReg_of_reset rfl rfl h⟩
  · simp
  · rw [readReg, palRead_unwritten k.val k.isLt (by simp)]
  · rw [hardReset_mem, abandonedMem_idle hp]
  · rw [hardReset_mem, abandonedMem_read hp]
    simp [ha]

/-! ## Reserved bits read 0 -/

/-- A field at bits `k` to `k + n - 1` of a word has no bit in common with a mask that is 0 there. -/
theorem field_and_mask {n : Nat} (x : BitVec n) (k : Nat) {m : Word} (h : ∀ i < n, m.getLsbD (k + i) = false) :
    x.setWidth 32 <<< k &&& m = 0#32 := by
  apply BitVec.eq_of_getLsbD_eq
  intro j hj
  by_cases hin : k ≤ j ∧ j < k + n
  · have hm : m.getLsbD j = false := by
      simpa [Nat.add_sub_cancel' hin.1] using h (j - k) (by omega)
    simp [hm]
  · by_cases hk : j < k
    · simp [hk]
    · simp [BitVec.getLsbD_of_ge x (j - k) (by omega)]

/-- A field at the low end of a word. -/
theorem low_field_and_mask {n : Nat} (x : BitVec n) {m : Word} (h : ∀ i < n, m.getLsbD i = false) :
    x.setWidth 32 &&& m = 0#32 := by
  simpa using field_and_mask x 0 (m := m) (by simpa using h)

theorem flagBit_and_mask (b : Bool) (k : Nat) {m : Word} (h : m.getLsbD k = false) : flagBit b k &&& m = 0#32 := by
  cases b with
  | false => simp [flagBit]
  | true => simpa [flagBit] using field_and_mask 1#1 k (m := m) (by simpa using h)

/-- Every bit that a field table marks 0 reads as 0 (10_state.md R17). -/
theorem readReg_and_zeroBits (s : State) (r : Reg) : readReg s r &&& zeroBits r = 0#32 := by
  cases r with
  | status =>
    simp only [readReg, statusWord, zeroBits, BitVec.and_or_distrib_right]
    rw [flagBit_and_mask _ 0 rfl, flagBit_and_mask _ 1 rfl, flagBit_and_mask _ 2 rfl, flagBit_and_mask _ 3 rfl,
      field_and_mask _ 8 (by decide), field_and_mask _ 16 (by decide)]
    rfl
  | ctrl => exact flagBit_and_mask _ 0 rfl
  | variant =>
    simp only [readReg, variantWord, zeroBits, BitVec.and_or_distrib_right]
    rw [low_field_and_mask _ (by decide), flagBit_and_mask _ 8 rfl, flagBit_and_mask _ 31 rfl]
    rfl
  | palctl =>
    simp only [readReg, palctlWord, zeroBits, BitVec.and_or_distrib_right]
    rw [low_field_and_mask _ (by decide), field_and_mask _ 16 (by decide), flagBit_and_mask _ 24 rfl]
    rfl
  | cgadesc =>
    simp only [readReg, cgadescWord, zeroBits, BitVec.and_or_distrib_right]
    rw [low_field_and_mask _ (by decide), flagBit_and_mask _ 4 rfl, flagBit_and_mask _ 5 rfl, flagBit_and_mask _ 6 rfl]
    rfl
  | width | height | bplo | bpl | bpp | nplanes | version | palram =>
    simp only [readReg, zeroBits]
    exact low_field_and_mask _ (by decide)
  | cmd | srcAddr | srcLen | dstAddr | dstCap | result | errInfo | hpal => exact BitVec.and_zero
  | reserved => exact BitVec.zero_and

/-! ## Reserved bits ignore writes -/

/-- Clearing the bits of a mask in a word leaves every bit that the mask leaves out; so for a field below. -/
theorem getLsbD_clear (w : Word) {m : Word} {k : Nat} (h : m.getLsbD k = false) :
    (w &&& ~~~m).getLsbD k = w.getLsbD k := by
  by_cases hk : k < 32
  · rw [BitVec.getLsbD_and, BitVec.getLsbD_not, h]
    simp [hk]
  · simp [BitVec.getLsbD_of_ge w k (by omega)]

theorem extractLsb'_clear (w : Word) {m : Word} {k n : Nat} (h : ∀ i < n, m.getLsbD (k + i) = false) :
    (w &&& ~~~m).extractLsb' k n = w.extractLsb' k n := by
  apply BitVec.eq_of_getLsbD_eq
  intro j hj
  simp only [BitVec.getLsbD_extractLsb', getLsbD_clear w (h j hj)]

theorem setWidth_clear (w : Word) {m : Word} {n : Nat} (h : ∀ i < n, m.getLsbD i = false) :
    (w &&& ~~~m).setWidth n = w.setWidth n := by
  apply BitVec.eq_of_getLsbD_eq
  intro j hj
  simp only [BitVec.getLsbD_setWidth, getLsbD_clear w (h j hj)]

theorem writeCtrl_clear (w : Word) (s : State) : writeCtrl (w &&& ~~~zeroBits .ctrl) s = writeCtrl w s := by
  simp only [writeCtrl, getLsbD_clear w (m := zeroBits .ctrl) (k := 0) rfl,
    getLsbD_clear w (m := zeroBits .ctrl) (k := 1) rfl]

theorem statusAck_clear (t : Status) (w : Word) : statusAck t (w &&& ~~~zeroBits .status) = statusAck t w := by
  simp only [statusAck, getLsbD_clear w (m := zeroBits .status) (k := 1) rfl,
    getLsbD_clear w (m := zeroBits .status) (k := 2) rfl, getLsbD_clear w (m := zeroBits .status) (k := 3) rfl]

theorem palctlWrite_clear (p : PalCtl) (w : Word) : palctlWrite p (w &&& ~~~zeroBits .palctl) = palctlWrite p w := by
  simp only [palctlWrite, extractLsb'_clear w (m := zeroBits .palctl) (k := 0) (n := 9) (by decide),
    extractLsb'_clear w (m := zeroBits .palctl) (k := 16) (n := 3) (by decide)]

theorem cgadescWrite_clear (w : Word) : cgadescWrite (w &&& ~~~zeroBits .cgadesc) = cgadescWrite w := by
  simp only [cgadescWrite, extractLsb'_clear w (m := zeroBits .cgadesc) (k := 0) (n := 4) (by decide),
    getLsbD_clear w (m := zeroBits .cgadesc) (k := 4) rfl, getLsbD_clear w (m := zeroBits .cgadesc) (k := 5) rfl,
    getLsbD_clear w (m := zeroBits .cgadesc) (k := 6) rfl]

/-- A write while BUSY = 0 has the effect of the write with zeros in the bits marked 0 (10_state.md R17). -/
theorem writeReg_clear (s : State) (r : Reg) (w : Word) : writeReg s r (w &&& ~~~zeroBits r) = writeReg s r w := by
  cases r with
  | status => simp only [writeReg, acknowledge, statusAck_clear]
  | ctrl => exact writeCtrl_clear w s
  | palctl => simp only [writeReg, palctlWrite_clear]
  | cgadesc => simp only [writeReg, cgadescWrite_clear]
  | width | height | bplo | bpp | nplanes | version | palram =>
    simp only [writeReg, zeroBits]
    rw [setWidth_clear w (by decide)]
  | cmd | srcAddr | srcLen | dstAddr | dstCap | hpal =>
    rw [zeroBits, BitVec.not_zero, BitVec.and_allOnes]
  | bpl | variant | result | errInfo | reserved => rfl

/-- A write at any time has that effect: while BUSY = 1 only CTRL looks at the word. -/
theorem hostWrite_clear (s : State) (r : Reg) (w : Word) : hostWrite s r (w &&& ~~~zeroBits r) = hostWrite s r w := by
  cases hb : s.busy with
  | false => rw [hostWrite_idle hb, hostWrite_idle hb, writeReg_clear]
  | true =>
    by_cases hc : r = .ctrl
    · subst hc
      rw [hostWrite_ctrl, hostWrite_ctrl, writeCtrl_clear]
    · by_cases hr : r = .reserved
      · subst hr
        rw [hostWrite_reserved, hostWrite_reserved]
      · rw [hostWrite_busy hb hc hr, hostWrite_busy hb hc hr]

/-- Settles O17, by the places of the fields in the words read and written. -/
theorem reservedBitsReadZeroAndIgnoreWrites : Obligations.ReservedBitsReadZeroAndIgnoreWrites :=
  fun s r => ⟨readReg_and_zeroBits s r, hostWrite_reserved s, fun w => (hostWrite_clear s r w).symm⟩

end Sys2Proof.Machine
end

section
/-! PROOFS. The family of 20_memory.md: the checks of the two regions, and the commands that make them. -/

namespace Sys2Proof.Machine

/-! ## When the checks of the regions fail -/

theorem checkInput_outside {s : State} (h : s.addrTop < s.regs.srcAddr.toNat + s.regs.srcLen.toNat) :
    checkInput s = some ⟨.addressRange, 0⟩ :=
  if_neg (Nat.not_le.2 h)

theorem checkOutput_outside {s : State} (h : s.addrTop < s.regs.dstAddr.toNat + s.regs.dstCap.toNat) :
    checkOutput s = some ⟨.addressRange, 0⟩ :=
  if_neg (Nat.not_le.2 h)

theorem checkOverlap_shared {s : State} {a : Nat} (hi : s.input.holds a = true) (ho : s.output.holds a = true) :
    checkOverlap s = some ⟨.bufferOverlap, 0⟩ :=
  if_pos ((Region.meets_iff _ _).2 ⟨a, ho, hi⟩)

/-- Either region past the top of memory fails the checks of a command that uses both, the same way (20_memory.md R41). -/
theorem checkBoth_outside {s : State} (hv : s.regs.variant.valid = true)
    (h : s.addrTop < s.regs.srcAddr.toNat + s.regs.srcLen.toNat
      ∨ s.addrTop < s.regs.dstAddr.toNat + s.regs.dstCap.toNat) :
    checkBoth s = some ⟨.addressRange, 0⟩ := by
  rw [checkBoth, (checkValid_eq_none s).2 hv, Option.none_or]
  by_cases hi : s.addrTop < s.regs.srcAddr.toNat + s.regs.srcLen.toNat
  · rw [checkInput_outside hi, Option.some_or]
  · rw [(checkInput_eq_none s).2 (Nat.not_lt.1 hi), checkOutput_outside (h.resolve_left hi), Option.none_or,
      Option.some_or]

/-- A shared address fails them once both regions are inside (20_memory.md R42). -/
theorem checkBoth_shared {s : State} {a : Nat} (hv : s.regs.variant.valid = true)
    (hsrc : s.regs.srcAddr.toNat + s.regs.srcLen.toNat ≤ s.addrTop)
    (hdst : s.regs.dstAddr.toNat + s.regs.dstCap.toNat ≤ s.addrTop)
    (hi : s.input.holds a = true) (ho : s.output.holds a = true) : checkBoth s = some ⟨.bufferOverlap, 0⟩ := by
  rw [checkBoth, (checkValid_eq_none s).2 hv, (checkInput_eq_none s).2 hsrc, (checkOutput_eq_none s).2 hdst,
    checkOverlap_shared hi ho]
  rfl

/-! ## What a command's rule makes of a failed check -/

theorem isCommand_of_usesInput {i : Instr} {s : State} (h : usesInput i s = true) : i.isCommand = true := by
  cases i with
  | rleRun | rleEscapedLiteral | rleLiteral => cases h
  | _ => rfl

theorem isCommand_of_usesOutput {i : Instr} (h : usesOutput i = true) : i.isCommand = true := by
  cases i with
  | rleRun | rleEscapedLiteral | rleLiteral => cases h
  | _ => rfl

/-- A command that uses both regions raises what its common checks raise. -/
theorem perform_of_checkBoth {i : Instr} {s : State} {e : Raised} (hi : usesInput i s = true) (ho : usesOutput i = true)
    (h : checkBoth s = some e) : perform i s = .error e := by
  cases i with
  | rled => simp only [perform, performRled, h]
  | rlee => simp only [perform, performRlee, h]
  | rleeb => simp only [perform, performRleeb, h]
  | pxdec => simp only [perform, performPxdec, h]
  | pxenc => simp only [perform, performPxenc, h]
  | palres => cases ho
  | _ => cases hi

/-- PALRES checks its input region only for V8x1, whose palette is in the file (42_palette_mux.md R85). -/
theorem performPalres_of_checkInput {s : State} {e : Raised} (hv : s.regs.variant.valid = true)
    (hc : s.regs.variant.code = .v8x1) (h : checkInput s = some e) : performPalres s = .error e := by
  simp only [performPalres, (checkValid_eq_none s).2 hv, hc, palresTrailer, h]

theorem performPalser_of_checkOutput {s : State} {e : Raised} (hv : s.regs.variant.valid = true)
    (h : checkOutput s = some e) : performPalser s = .error e := by
  simp only [performPalser, (checkValid_eq_none s).2 hv, h, Option.none_or]

/-- A configured command raises AddressRange(0) when a region that it uses ends past the top of memory. -/
theorem perform_outside {i : Instr} {s : State} (hv : s.regs.variant.valid = true)
    (h : (usesInput i s = true ∧ s.addrTop < s.regs.srcAddr.toNat + s.regs.srcLen.toNat)
      ∨ (usesOutput i = true ∧ s.addrTop < s.regs.dstAddr.toNat + s.regs.dstCap.toNat)) :
    perform i s = .error ⟨.addressRange, 0⟩ := by
  cases i with
  | rled | rlee | rleeb | pxdec | pxenc =>
    exact perform_of_checkBoth rfl rfl (checkBoth_outside hv (h.imp And.right And.right))
  | palres =>
    rcases h with ⟨hu, hi⟩ | ⟨hu, -⟩
    · exact performPalres_of_checkInput hv (beq_iff_eq.1 hu) (checkInput_outside hi)
    · cases hu
  | palser =>
    rcases h with ⟨hu, -⟩ | ⟨-, ho⟩
    · cases hu
    · exact performPalser_of_checkOutput hv (checkOutput_outside ho)
  | _ => rcases h with ⟨hu, -⟩ | ⟨hu, -⟩ <;> cases hu

/-- Settles O33: the rule of each command that uses a region raises its failed check, and an undisturbed command ends with
the error its rule raises. -/
theorem regionChecksRaiseTheirErrors : Obligations.RegionChecksRaiseTheirErrors := by
  refine ⟨fun s i hu hv h => ?_, fun s i a hu hi ho hv hsrc hdst hia hoa => ?_⟩
  · have hc : i.isCommand = true := h.elim (isCommand_of_usesInput ·.1) (isCommand_of_usesOutput ·.1)
    exact exec_error_undisturbed hc hu (perform_outside hv h)
  · exact exec_error_undisturbed (isCommand_of_usesInput hi) hu
      (perform_of_checkBoth hi ho (checkBoth_shared hv hsrc hdst hia hoa))

end Sys2Proof.Machine
end

section
/-! PROOFS. The family of 30_encoding.md: the row a command word selects, and the copies a body token stands for. -/

namespace Sys2Proof.Machine

/-! ## Command words -/

/-- Every word that is not one of the nine commands falls to the illegal row (30_encoding.md R55). -/
theorem decodeCommand_illegal {w : Word} (h : 8 < w.toNat) : decodeCommand w = .illegal w := by
  unfold decodeCommand
  split
  case h_10 => rfl
  all_goals omega

/-- Bits 31:8 of a word are zero exactly when the word is below 0x100. -/
theorem high_bits_eq_zero_iff (w : Word) : w.extractLsb' 8 24 = 0#24 ↔ w.toNat < 256 := by
  rw [← BitVec.toNat_inj, BitVec.extractLsb'_toNat, Nat.shiftRight_eq_div_pow, BitVec.toNat_ofNat]
  have := w.isLt
  omega

/-- Bits 7:0 of a word whose bits 31:8 are zero are the whole word. -/
theorem low_byte_toNat {w : Word} (h : w.extractLsb' 8 24 = 0#24) : (w.extractLsb' 0 8).toNat = w.toNat := by
  rw [BitVec.extractLsb'_toNat, Nat.shiftRight_zero, Nat.mod_eq_of_lt ((high_bits_eq_zero_iff w).1 h)]

/-- Settles O1: with bits 31:8 zero the low byte is the word, and any other word is past the nine commands. -/
theorem commandWordSelectsItsRow : Obligations.CommandWordSelectsItsRow := by
  intro w
  by_cases h : w.extractLsb' 8 24 = 0#24
  · rw [if_pos h, low_byte_toNat h]
    rfl
  · have hw : 256 ≤ w.toNat := Nat.not_lt.1 (mt (high_bits_eq_zero_iff w).2 h)
    rw [if_neg h, decodeCommand_illegal (by omega)]

/-! ## Body tokens -/

theorem isRunMarker_iff (b : Byte) : isRunMarker b = true ↔ b &&& 0xC0#8 = 0xC0#8 :=
  beq_iff_eq

/-- The count field is the control byte's value under the mask 0x3F (30_encoding.md R58, R59). -/
theorem runCount_toNat (b : Byte) : (runCount b).toNat = (b &&& 0x3F#8).toNat := by
  rw [runCount, BitVec.toNat_setWidth, BitVec.toNat_and]
  exact (Nat.and_two_pow_sub_one_eq_mod b.toNat 6).symm

/-- A run marker and the byte after it are one token of the marker's count, in the run row or, for a count of 1, in the
escaped-literal row (30_encoding.md R58, R60, log 9). -/
theorem decodeToken_run {b : Byte} (hb : isRunMarker b = true) (v : Byte) (rest : List Byte) :
    ∃ i, decodeToken (b :: v :: rest) = .ok (i, rest)
      ∧ ∀ g c, decodedEffect g i c = tokenEffect g 2 (runCount b).toNat v c := by
  by_cases hn : runCount b = 1#6
  · exact ⟨.rleEscapedLiteral v, (if_pos hb).trans (if_pos hn), fun g c => by rw [hn]; rfl⟩
  · exact ⟨.rleRun (runCount b) v, (if_pos hb).trans (if_neg hn), fun _ _ => rfl⟩

/-- Any other byte is a literal, whatever follows it (30_encoding.md R58). -/
theorem decodeToken_literal {b : Byte} (hb : isRunMarker b ≠ true) (rest : List Byte) :
    decodeToken (b :: rest) = .ok (.rleLiteral b, rest) :=
  if_neg hb

/-- Settles O5, by the two kinds of control byte. -/
theorem tokenStandsForItsCopies : Obligations.TokenStandsForItsCopies := by
  refine fun b g c => ⟨fun hb v rest => ?_, fun hb rest => ?_⟩
  · obtain ⟨i, hi, effect⟩ := decodeToken_run ((isRunMarker_iff b).2 hb) v rest
    exact ⟨i, hi, by rw [effect, runCount_toNat]⟩
  · exact ⟨.rleLiteral b, decodeToken_literal (mt (isRunMarker_iff b).1 hb) rest, rfl⟩

end Sys2Proof.Machine
end

section
/-! PROOFS. The family of 42_palette_mux.md: what PALRES leaves of the palette on each variant. -/

namespace Sys2Proof.Machine

/-! ## What a PALRES without error leaves -/

/-- What PALRES leaves when it writes the `n` entries `entry`: the completion, PALRAM, PALCTL, CGADESC holding `d`, RESULT 0
and nothing else (42_palette_mux.md R79). -/
structure PaletteSet (s t : State) (n : Nat) (entry : Nat → Rgb) (path : PalPath) (dup : Bool) (d : CgaDesc) : Prop where
  completed : CompletedOk .palres s t
  inputs : KeepsInputs s t
  geometry : KeepsGeometry s t
  memory : KeepsMemory s t
  written : ∀ k (h : k < 256), k < n → t.palram[k] = .written (entry k)
  kept : ∀ k (h : k < 256), n ≤ k → t.palram[k] = s.palram[k]
  palctl : t.regs.palctl = ⟨BitVec.ofNat 9 n, path, dup⟩
  cgadesc : t.regs.cgadesc = d
  result : t.regs.result = 0#32

/-- An undisturbed PALRES whose rule ends in `setPalette`, CGADESC holding `d`, leaves that palette and nothing else. -/
theorem exec_palres_setPalette {s : State} {n : Nat} {entry : Nat → Rgb} {path : PalPath} {dup : Bool} (d : CgaDesc)
    (hu : Undisturbed .palres s)
    (hp : performPalres s = .ok (setPalette { s with regs := { s.regs with cgadesc := d } } n entry path dup)) :
    ∃ t, exec .palres s = .next t ∧ PaletteSet s t n entry path dup d := by
  obtain ⟨he, hc⟩ := exec_ok_undisturbed (i := .palres) rfl hu hp
  exact ⟨_, he, {
    completed := hc
    inputs := by constructor <;> rfl
    geometry := ⟨rfl, rfl⟩
    memory := fun _ => rfl
    written := fun k h hk => (palramWrite_get _ _ _ k h).trans (if_pos hk)
    kept := fun k h hk => (palramWrite_get _ _ _ k h).trans (if_neg (Nat.not_lt.2 hk))
    palctl := rfl
    cgadesc := rfl
    result := rfl }⟩

/-! ## Fixed palettes and the header's -/

/-- Settles O39: on both variants the rule is `setPalette`, of two entries and of none. -/
theorem palresMonochromeAndTrueColour : Obligations.PalresMonochromeAndTrueColour := by
  refine fun s hu hv => ⟨fun hc => ?_, fun hc => ?_⟩
  · have hp : performPalres s = .ok (palresMono s) := by simp only [performPalres, (checkValid_eq_none s).2 hv, hc]
    obtain ⟨t, he, ht⟩ := exec_palres_setPalette s.regs.cgadesc hu hp
    exact ⟨t, he, ht.completed, ht.inputs, ht.geometry, ht.memory, ht.written 0 (by decide) (by decide),
      ht.written 1 (by decide) (by decide), ht.kept, ht.palctl, ht.cgadesc, ht.result⟩
  · have hp : performPalres s = .ok (palresNone s) := by simp only [performPalres, (checkValid_eq_none s).2 hv, hc]
    obtain ⟨t, he, ht⟩ := exec_palres_setPalette s.regs.cgadesc hu hp
    exact ⟨t, he, ht.completed, ht.inputs, ht.geometry, ht.memory, fun k h => ht.kept k h (Nat.zero_le k), ht.palctl,
      ht.cgadesc, ht.result⟩

/-- Settles O42: the rule of V4x1 does not read VERSION. -/
theorem palresNibblePacked : Obligations.PalresNibblePacked := by
  intro s hu hv hc
  have hp : performPalres s = .ok (palresNibble s) := by simp only [performPalres, (checkValid_eq_none s).2 hv, hc]
  obtain ⟨t, he, ht⟩ := exec_palres_setPalette s.regs.cgadesc hu hp
  exact ⟨t, he, ht.completed, ht.inputs, ht.geometry, ht.memory, ht.written, ht.kept, ht.palctl, ht.cgadesc, ht.result⟩

/-! ## The planar variants -/

/-- An index below 16 names an entry of EGA_PALETTE (10_state.md R15). -/
theorem egaEntry_of_lt (c : Config) {k : Nat} (h : k < 16) : egaEntry c k = c.ega[k] := by
  simp [egaEntry, h]

/-- On a planar variant with its own number of planes PALRES takes the planar rule and writes 2^NPLANES entries, at most
16 (42_palette_mux.md R82, R83). -/
theorem performPalres_planar {s : State} (hv : s.regs.variant.valid = true)
    (h : (s.regs.nplanes.toNat, s.regs.variant.code) ∈ [(2, Variant.v1x2), (3, .v1x3), (4, .v1x4)]) :
    performPalres s = .ok (palresPlanar s) ∧ paletteCount s = 2 ^ s.regs.nplanes.toNat ∧ paletteCount s ≤ 16 := by
  simp only [List.mem_cons, Prod.mk.injEq, List.not_mem_nil, or_false] at h
  obtain ⟨hn, hc⟩ | ⟨hn, hc⟩ | ⟨hn, hc⟩ := h <;>
    simp [performPalres, (checkValid_eq_none s).2 hv, paletteCount, hn, hc]

/-- Settles O41, by whether VERSION is in NO_PALETTE_VERSIONS. -/
theorem palresPlanarVariants : Obligations.PalresPlanarVariants := by
  intro s hu hv h
  obtain ⟨hp, hcount, hle⟩ := performPalres_planar hv h
  have hlen : (BitVec.ofNat 9 (paletteCount s)).toNat = 2 ^ s.regs.nplanes.toNat := by
    rw [BitVec.toNat_ofNat, ← hcount]
    omega
  by_cases hver : s.regs.version ∈ s.cfg.noPaletteVersions
  · rw [palresPlanar, if_pos (List.contains_iff_mem.2 hver)] at hp
    obtain ⟨t, he, ht⟩ := exec_palres_setPalette s.regs.cgadesc hu hp
    refine ⟨t, he, ht.completed, ht.inputs, ht.geometry, ht.memory, by rw [ht.palctl, hlen], by rw [ht.palctl],
      ht.cgadesc, ht.result, fun _ => ⟨by rw [ht.palctl], fun k h hk => ?_⟩, fun hn => absurd hver hn, hcount ▸ ht.kept⟩
    rw [ht.written k (by omega) (hcount ▸ hk), egaEntry_of_lt s.cfg h]
  · rw [palresPlanar, if_neg (mt List.contains_iff_mem.1 hver)] at hp
    obtain ⟨t, he, ht⟩ := exec_palres_setPalette s.regs.cgadesc hu hp
    exact ⟨t, he, ht.completed, ht.inputs, ht.geometry, ht.memory, by rw [ht.palctl, hlen], by rw [ht.palctl],
      ht.cgadesc, ht.result, fun hm => absurd hm hver, fun _ => ⟨by rw [ht.palctl], hcount ▸ ht.written⟩,
      hcount ▸ ht.kept⟩

/-! ## The trailing palette -/

/-- On V8x1 the rule of PALRES is the trailer's (42_palette_mux.md R85). -/
theorem performPalres_v8x1 {s : State} (hv : s.regs.variant.valid = true) (hc : s.regs.variant.code = .v8x1) :
    performPalres s = palresTrailer s := by
  simp only [performPalres, (checkValid_eq_none s).2 hv, hc]

/-- A file shorter than the trailer (42_palette_mux.md R85). -/
theorem palresTrailer_short {s : State} (hin : s.regs.srcAddr.toNat + s.regs.srcLen.toNat ≤ s.addrTop)
    (hl : s.regs.srcLen.toNat < 769) : palresTrailer s = .error ⟨.paletteSizeMismatch, s.regs.srcLen.toNat⟩ := by
  simp only [palresTrailer, (checkInput_eq_none s).2 hin]
  exact if_pos hl

/-- A trailer whose first byte is not the marker (42_palette_mux.md R85). -/
theorem palresTrailer_unmarked {s : State} (hin : s.regs.srcAddr.toNat + s.regs.srcLen.toNat ≤ s.addrTop)
    (hl : 769 ≤ s.regs.srcLen.toNat) (hm : srcByte s (s.regs.srcLen.toNat - 769) ≠ 0x0C#8) :
    palresTrailer s = .error ⟨.paletteMarkerMissing, (srcByte s (s.regs.srcLen.toNat - 769)).toNat⟩ := by
  simp only [palresTrailer, (checkInput_eq_none s).2 hin]
  exact (if_neg (Nat.not_lt.2 hl)).trans (if_pos hm)

/-- A trailer behind its marker gives all 256 entries (42_palette_mux.md R85). -/
theorem palresTrailer_marked {s : State} (hin : s.regs.srcAddr.toNat + s.regs.srcLen.toNat ≤ s.addrTop)
    (hl : 769 ≤ s.regs.srcLen.toNat) (hm : srcByte s (s.regs.srcLen.toNat - 769) = 0x0C#8) :
    palresTrailer s = .ok (setPalette s 256
      (fun i => rgbOf (srcByte s (s.regs.srcLen.toNat - 768 + 3 * i)) (srcByte s (s.regs.srcLen.toNat - 768 + 3 * i + 1))
        (srcByte s (s.regs.srcLen.toNat - 768 + 3 * i + 2))) .explicitTrailer false) := by
  simp only [palresTrailer, (checkInput_eq_none s).2 hin]
  exact (if_neg (Nat.not_lt.2 hl)).trans (if_neg (not_not_intro hm))

/-- Settles O43: the checks of the trailer's rule in their order; every byte it reads lies in the file, so it is the one
memory holds. -/
theorem palresReadsTheTrailer : Obligations.PalresReadsTheTrailer := by
  intro s hu hv hc
  have rule := performPalres_v8x1 hv hc
  have fails {e : Raised} (h : palresTrailer s = .error e) : EndsWithError .palres s e :=
    exec_error_undisturbed rfl hu (rule.trans h)
  have byte {off : Nat} (h : off < s.regs.srcLen.toNat) : srcByte s off = inputByte s off :=
    srcByte_undisturbed hu (beq_iff_eq.2 hc) h
  refine ⟨fun hout => ?_, fun hin hl => fails (palresTrailer_short hin hl), fun hin hl => ?_⟩
  · exact exec_error_undisturbed rfl hu (performPalres_of_checkInput hv hc (checkInput_outside hout))
  rw [← byte (off := s.regs.srcLen.toNat - 769) (by omega)]
  refine ⟨fun hm => fails (palresTrailer_unmarked hin hl hm), fun hm => ?_⟩
  obtain ⟨t, he, ht⟩ := exec_palres_setPalette s.regs.cgadesc hu (rule.trans (palresTrailer_marked hin hl hm))
  refine ⟨t, he, ht.completed, ht.inputs, ht.geometry, ht.memory, fun k h => ?_, ht.palctl, ht.cgadesc, ht.result⟩
  rw [ht.written k h h, rgbOf, byte (by omega), byte (by omega), byte (by omega)]

end Sys2Proof.Machine
end

section
/-! PROOFS. The family of 43_geometry.md: what GEOM derives from a supported geometry. -/

namespace Sys2Proof.Machine

/-- The variant selection is the source's table (43_geometry.md R89). -/
theorem varsel_eq_some_iff (b p : BitVec 8) (v : Variant) :
    varsel b p = some v ↔ (b.toNat, p.toNat, v) ∈ variantTable := by
  constructor
  · intro h
    unfold varsel at h
    split at h <;> cases h <;> simp [variantTable, *]
  · intro h
    simp only [variantTable, List.mem_cons, Prod.mk.injEq, List.not_mem_nil, or_false] at h
    obtain ⟨hb, hp, rfl⟩ | ⟨hb, hp, rfl⟩ | ⟨hb, hp, rfl⟩ | ⟨hb, hp, rfl⟩ | ⟨hb, hp, rfl⟩ | ⟨hb, hp, rfl⟩ | ⟨hb, hp, rfl⟩
      | ⟨hb, hp, rfl⟩ := h <;> simp [varsel, hb, hp]

/-- The derived bytes per line round up (43_geometry.md R90). -/
theorem bytesPerLine_eq {w : BitVec 16} {b : BitVec 8} {n : Nat} (hlt : 8 * n < w.toNat * b.toNat + 8)
    (hle : w.toNat * b.toNat ≤ 8 * n) : bytesPerLine w b = n := by
  unfold bytesPerLine
  omega

/-- A line that is longer by `d` than its derived bytes has that slack (43_geometry.md R91). -/
theorem lineSlack_eq {bplo : BitVec 16} {n d : Nat} (h : bplo.toNat = n + d) : lineSlack bplo n = d := by
  unfold lineSlack
  omega

/-- The state that GEOM's rule leaves when it derives `bpl` bytes per line and the variant `v` (43_geometry.md R94). -/
def deriveGeometry (s : State) (bpl : Nat) (v : Variant) (notEven : Bool) : State :=
  { s with regs := { s.regs with bpl := BitVec.ofNat 16 bpl, variant := ⟨v, notEven, true⟩, result := 0#32 } }

/-- On a supported pair, an image that is not empty and a slack of 0 or 1, GEOM's rule raises no error
(43_geometry.md R92). -/
theorem performGeom_supported {s : State} {v : Variant} {d : Bool} (hv : varsel s.regs.bpp s.regs.nplanes = some v)
    (hw : 1 ≤ s.regs.width.toNat) (hh : 1 ≤ s.regs.height.toNat)
    (hd : lineSlack s.regs.bplo (bytesPerLine s.regs.width s.regs.bpp) = d.toNat) :
    performGeom s = .ok (deriveGeometry s (bytesPerLine s.regs.width s.regs.bpp) v d) := by
  have image : ¬ (s.regs.width = 0#16 ∨ s.regs.height = 0#16) := by bv_omega
  simp only [performGeom, hv, if_neg image, hd]
  cases d <;> rfl

/-- Settles O37: the rule derives the geometry, and an undisturbed GEOM leaves it and the bookkeeping. BPL is not truncated,
because the 16-bit BPLO is at least as large. -/
theorem geomDerivesTheGeometry : Obligations.GeomDerivesTheGeometry := by
  intro s v n d hu hrow hw hh hlt hle hbplo
  have hn : bytesPerLine s.regs.width s.regs.bpp = n := bytesPerLine_eq hlt hle
  have hp : performGeom s = .ok (deriveGeometry s n v d) :=
    hn ▸ performGeom_supported ((varsel_eq_some_iff _ _ _).2 hrow) hw hh (hn ▸ lineSlack_eq hbplo)
  obtain ⟨he, hc⟩ := exec_ok_undisturbed (i := .geom) rfl hu hp
  have fits : n < 2 ^ 16 := by
    have := s.regs.bplo.isLt
    omega
  exact ⟨_, he, hc, Nat.mod_eq_of_lt fits, rfl, rfl, by constructor <;> rfl, ⟨rfl, rfl, rfl⟩, fun _ => rfl⟩

end Sys2Proof.Machine
end

section
/-! PROOFS. The family of 44_plane_transposer.md: what PXDEC writes on each variant, and PXENC on V8x3. -/

namespace Sys2Proof.Machine

/-! ## Places in the two pixel layouts -/

/-- Place `x` of row `y` in rows of `w` places: its number lies below `h` rows. -/
theorem rowMajor_lt {x y w h : Nat} (hx : x < w) (hy : y < h) : y * w + x < h * w :=
  Nat.mul_comm w y ▸ Nat.mul_add_lt_mul_of_lt_of_lt hy hx

/-- The row is the quotient of that number by the width; `Nat.mul_add_mod_of_lt` says that the place is the remainder. -/
theorem rowMajor_div {x w : Nat} (hx : x < w) (y : Nat) : (y * w + x) / w = y := by
  rw [Nat.mul_comm, Nat.mul_add_div (by omega), Nat.div_eq_of_lt hx, Nat.add_zero]

theorem dbaddr_lt {s : State} {p y j : Nat} (hp : p < s.regs.nplanes.toNat) (hy : y < s.regs.height.toNat)
    (hj : j < s.regs.bpl.toNat) : dbaddr s.regs p y j < bitmapSize s.regs :=
  rowMajor_lt hj (rowMajor_lt hp hy)

theorem pbaddr_lt {s : State} {x y : Nat} (h : InImage s x y) : pbaddr s.regs x y + 3 < pixelBufferSize s.regs := by
  have := rowMajor_lt h.1 h.2
  rw [pbaddr, pixelBufferSize, Nat.mul_comm s.regs.width.toNat]
  omega

/-- Bytes 0 to 2 of a pixel of the PixelBuffer are its channels (30_encoding.md R62). -/
theorem pixelBufferByte_channel {s : State} {x y j : Nat} (hx : x < s.regs.width.toNat) (hj : j < 3) :
    pixelBufferByte s (pbaddr s.regs x y + j) = channel (decPixel s x y) j := by
  have hmod : (pbaddr s.regs x y + j) % 4 = j := by unfold pbaddr; omega
  have hdiv : (pbaddr s.regs x y + j) / 4 = y * s.regs.width.toNat + x := by unfold pbaddr; omega
  rw [pixelBufferByte, hmod, hdiv, Nat.mul_add_mod_of_lt hx, rowMajor_div hx, if_neg (by omega)]

/-- Byte 3 is the alpha. -/
theorem pixelBufferByte_alpha (s : State) (x y : Nat) : pixelBufferByte s (pbaddr s.regs x y + 3) = 0xFF#8 :=
  if_pos (by unfold pbaddr; omega)

/-- Byte `j` of a plane-line of the DecodedBitmap is the encoder's byte of that place (30_encoding.md R61). -/
theorem bitmapByte_dbaddr {s : State} {p j : Nat} (hp : p < s.regs.nplanes.toNat) (hj : j < s.regs.bpl.toNat) (y : Nat) :
    bitmapByte s (dbaddr s.regs p y j) = encByte s p y j := by
  simp only [bitmapByte, dbaddr, rowMajor_div hj, rowMajor_div hp, Nat.mul_add_mod_of_lt hj, Nat.mul_add_mod_of_lt hp]

/-! ## Commands that fill the start of their output region -/

/-- An undisturbed command whose rule writes `n` bytes at the start of its output region, their number to RESULT and nothing
else leaves just that and the bookkeeping. -/
theorem exec_fill {i : Instr} {s : State} {n : Nat} {f : Nat → Byte} (hi : i.isCommand = true) (hu : Undisturbed i s)
    (hn : n ≤ s.regs.dstCap.toNat)
    (hp : perform i s = .ok { s with
      mem := s.mem.fill s.regs.dstAddr.toNat n f
      regs := { s.regs with result := wordOf .result s.draws n } }) :
    ∃ t, exec i s = .next t ∧ CompletedOk i s t ∧ KeepsAllButOutput s t n ∧ t.regs.result = BitVec.ofNat 32 n
      ∧ ∀ k, k < n → t.mem.read (s.regs.dstAddr.toNat + k) = f k := by
  obtain ⟨he, hc⟩ := exec_ok_undisturbed hi hu hp
  have fits : n < 2 ^ 32 := Nat.lt_of_le_of_lt hn s.regs.dstCap.isLt
  refine ⟨_, he, hc, ⟨by constructor <;> rfl, ⟨rfl, rfl⟩, ⟨rfl, rfl, rfl⟩, fun a ha => ?_⟩, wordOf_fits fits, fun k hk => ?_⟩
  · exact Memory.read_fill_outside _ _ ha
  · exact Memory.read_fill_inside _ _ hk

/-! ## PXDEC -/

/-- PXDEC past its checks writes the PixelBuffer (44_plane_transposer.md R96). -/
theorem perform_pxdec {s : State} (hr : PxdecRuns s) : perform .pxdec s = .ok { s with
    mem := s.mem.fill s.regs.dstAddr.toNat (pixelBufferSize s.regs) (pixelBufferByte s)
    regs := { s.regs with result := wordOf .result s.draws (pixelBufferSize s.regs) } } := by
  show performPxdec s = _
  rw [performPxdec, (checkBoth_eq_none s).2 hr.ready]
  exact (if_neg (Nat.not_lt.2 hr.input)).trans (if_neg (Nat.not_lt.2 hr.output))

/-- PXDEC writes the pixels that dec_pixel gives: it meets every description of their colours. -/
theorem pxdecWrites_of_decPixel {s : State} {colour : Nat → Nat → Rgb → Prop} (hr : PxdecRuns s)
    (h : ∀ x y c, InImage s x y → colour x y c → decPixel s x y = c) : PxdecWrites s colour := by
  obtain ⟨t, he, hc, hk, hres, hread⟩ := exec_fill rfl hr.undisturbed hr.output (perform_pxdec hr)
  refine ⟨t, he, hc, hk, hres, fun x y c hin hcol => ?_⟩
  have inside := pbaddr_lt hin
  have chan {j : Nat} (hj : j < 3) : t.mem.read (s.regs.dstAddr.toNat + pbaddr s.regs x y + j) = channel c j := by
    have : pbaddr s.regs x y + j < pixelBufferSize s.regs := by omega
    rw [Nat.add_assoc, hread _ this, pixelBufferByte_channel hin.1 hj, h x y c hin hcol]
  refine ⟨chan (j := 0) (by decide), chan (j := 1) (by decide), chan (j := 2) (by decide), ?_⟩
  rw [Nat.add_assoc, hread _ inside, pixelBufferByte_alpha]

/-! ## Samples -/

/-- BPP and NPLANES of a fresh geometry are those of its variant's row (43_geometry.md R89). -/
theorem FreshGeometry.row {s : State} {v : Variant} (h : FreshGeometry s) (hv : s.regs.variant.code = v) :
    (s.regs.bpp.toNat, s.regs.nplanes.toNat, v) ∈ variantTable :=
  hv ▸ (varsel_eq_some_iff _ _ _).1 h.code

/-- The byte of a pixel's sample lies in its plane-line (43_geometry.md R90). -/
theorem FreshGeometry.sampleByte_lt {s : State} (h : FreshGeometry s) {x : Nat} (hx : x < s.regs.width.toNat) :
    x / pixelsPerByte s.regs < s.regs.bpl.toNat := by
  rw [h.bpl, bytesPerLine, pixelsPerByte, varsel_bits h.code]
  cases s.regs.variant.code <;> simp only [variantBits] <;> omega

/-- With eight bits per pixel a plane-line has a byte for each pixel. -/
theorem FreshGeometry.pixelByte_lt {s : State} (h : FreshGeometry s) (hb : s.regs.bpp.toNat = 8) {x : Nat}
    (hx : x < s.regs.width.toNat) : x < s.regs.bpl.toNat := by
  simpa [pixelsPerByte, hb] using h.sampleByte_lt hx

/-- A plane-line of a single-plane variant is a row. -/
theorem dbaddr_single_plane {r : Regs} (hn : r.nplanes.toNat = 1) (y j : Nat) : dbaddr r 0 y j = y * r.bpl.toNat + j := by
  rw [dbaddr, hn, Nat.mul_one, Nat.add_zero]

/-- A byte of the bitmap that PXDEC reads is the one memory holds. -/
theorem srcByte_bitmap {s : State} (hr : PxdecRuns s) {p y j : Nat} (hp : p < s.regs.nplanes.toNat)
    (hy : y < s.regs.height.toNat) (hj : j < s.regs.bpl.toNat) :
    srcByte s (dbaddr s.regs p y j) = inputByte s (dbaddr s.regs p y j) :=
  srcByte_undisturbed hr.undisturbed rfl (Nat.lt_of_lt_of_le (dbaddr_lt hp hy hj) hr.input)

/-- The sample of a pixel is the group of BPP bits at its place in its byte (44_plane_transposer.md R95). -/
theorem field_eq_extract {s : State} (hr : PxdecRuns s) {p x y : Nat} (hp : p < s.regs.nplanes.toNat) (hin : InImage s x y) :
    field s p y x = ((inputByte s (dbaddr s.regs p y (x / pixelsPerByte s.regs))).extractLsb' (pixelShift s.regs x)
      s.regs.bpp.toNat).toNat := by
  rw [field_agrees hr.geometry.layoutAgrees, srcByte_bitmap hr hp hin.2 (hr.geometry.sampleByte_lt hin.1),
    Nat.and_two_pow_sub_one_eq_mod, BitVec.extractLsb'_toNat]

/-- A group of one bit is that bit. -/
theorem extract_one_toNat (b : Byte) (k : Nat) : (b.extractLsb' k 1).toNat = (b.getLsbD k).toNat := by
  rw [BitVec.extractLsb'_toNat, Nat.shiftRight_eq_div_pow, ← BitVec.testBit_toNat, Nat.toNat_testBit, Nat.pow_one]

section
variable {s : State} (hr : PxdecRuns s) {p x y : Nat} (hp : p < s.regs.nplanes.toNat) (hin : InImage s x y)
include hr hp hin

/-- With one bit per pixel the sample is a bit of the byte, the leftmost pixel's the most significant (30_encoding.md R63). -/
theorem field_one_bit (hb : s.regs.bpp.toNat = 1) :
    field s p y x = ((inputByte s (dbaddr s.regs p y (x / 8))).getLsbD (7 - x % 8)).toNat := by
  have shift : pixelShift s.regs x = 7 - x % 8 := by simp [pixelShift, pixelsPerByte, hb]
  rw [field_eq_extract hr hp hin, shift, hb, extract_one_toNat, pixelsPerByte, hb]

/-- With two bits per pixel there are four samples in a byte (30_encoding.md R63). -/
theorem field_two_bits (hb : s.regs.bpp.toNat = 2) :
    field s p y x = ((inputByte s (dbaddr s.regs p y (x / 4))).extractLsb' (6 - 2 * (x % 4)) 2).toNat := by
  have shift : pixelShift s.regs x = 6 - 2 * (x % 4) := by
    simp only [pixelShift, pixelsPerByte, hb]
    omega
  rw [field_eq_extract hr hp hin, shift, hb, pixelsPerByte, hb]

/-- With four bits per pixel an even pixel has the high half of its byte, an odd one the low half (30_encoding.md R63). -/
theorem field_four_bits (hb : s.regs.bpp.toNat = 4) :
    field s p y x = (if x % 2 = 0 then (inputByte s (dbaddr s.regs p y (x / 2))).extractLsb' 4 4
      else (inputByte s (dbaddr s.regs p y (x / 2))).extractLsb' 0 4).toNat := by
  have shift : pixelShift s.regs x = if x % 2 = 0 then 4 else 0 := by
    simp only [pixelShift, pixelsPerByte, hb]
    split <;> omega
  rw [field_eq_extract hr hp hin, shift, hb, pixelsPerByte, hb]
  split <;> rfl

end

/-- A read of a written entry of PALRAM gives its colour. -/
theorem palRead_holdsColour {s : State} {k : Nat} {c : Rgb} (h : HoldsColour s k c) (site : Nat) : palRead s site k = c := by
  obtain ⟨hk, hc⟩ := h
  simp [palRead, hk, hc]

/-! ## Single-plane variants and true colour -/

/-- Settles O54: one bit per pixel on V1x1, a byte per channel on V8x3. -/
theorem pxdecMonochromeAndTrueColour : Obligations.PxdecMonochromeAndTrueColour := by
  refine fun s hr => ⟨fun hc => pxdecWrites_of_decPixel hr fun x y c hin hcol => ?_,
    fun hc => pxdecWrites_of_decPixel hr fun x y c hin hcol => ?_⟩
  · obtain ⟨hb, hn⟩ : s.regs.bpp.toNat = 1 ∧ s.regs.nplanes.toNat = 1 := by
      simpa [variantTable] using hr.geometry.row hc
    simp only [decPixel, hc, hcol, field_one_bit hr (p := 0) (by omega) hin hb, dbaddr_single_plane hn, Bool.toNat_eq_one]
  · obtain ⟨hb, hn⟩ : s.regs.bpp.toNat = 8 ∧ s.regs.nplanes.toNat = 3 := by
      simpa [variantTable] using hr.geometry.row hc
    have byte {p : Nat} (hp : p < 3) :
        srcByte s (dbaddr s.regs p y x) = inputByte s ((y * 3 + p) * s.regs.bpl.toNat + x) := by
      rw [srcByte_bitmap hr (by omega) hin.2 (hr.geometry.pixelByte_lt hb hin.1), dbaddr, hn]
    simp only [decPixel, hc, hcol, rgbOf, byte (p := 0) (by decide), byte (p := 1) (by decide), byte (p := 2) (by decide)]

/-- Settles O55: the sample of the single plane is the index. -/
theorem pxdecPackedPalette : Obligations.PxdecPackedPalette := by
  refine fun s hr => ⟨fun hc => pxdecWrites_of_decPixel hr fun x y c hin hcol => ?_,
    fun hc => pxdecWrites_of_decPixel hr fun x y c hin hcol => ?_,
    fun hc => pxdecWrites_of_decPixel hr fun x y c hin hcol => ?_⟩
  · obtain ⟨hb, hn⟩ : s.regs.bpp.toNat = 2 ∧ s.regs.nplanes.toNat = 1 := by
      simpa [variantTable] using hr.geometry.row hc
    simp only [decPixel, hc, field_two_bits hr (p := 0) (by omega) hin hb, dbaddr_single_plane hn]
    exact palRead_holdsColour hcol _
  · obtain ⟨hb, hn⟩ : s.regs.bpp.toNat = 4 ∧ s.regs.nplanes.toNat = 1 := by
      simpa [variantTable] using hr.geometry.row hc
    simp only [decPixel, hc, field_four_bits hr (p := 0) (by omega) hin hb, dbaddr_single_plane hn]
    exact palRead_holdsColour hcol _
  · obtain ⟨hb, hn⟩ : s.regs.bpp.toNat = 8 ∧ s.regs.nplanes.toNat = 1 := by
      simpa [variantTable] using hr.geometry.row hc
    have index : srcByte s (dbaddr s.regs 0 y x) = inputByte s (y * s.regs.bpl.toNat + x) := by
      rw [srcByte_bitmap hr (by omega) hin.2 (hr.geometry.pixelByte_lt hb hin.1), dbaddr_single_plane hn]
    simp only [decPixel, hc, index]
    exact palRead_holdsColour hcol _

/-! ## The planar index -/

/-- The low `n` bits of a number are the sum of its bits at their places. -/
theorem sum_testBit_shiftLeft (i n : Nat) :
    ((List.range n).map fun p => (i.testBit p).toNat <<< p).sum = i % 2 ^ n := by
  induction n with
  | zero => simp [Nat.mod_one]
  | succ n ih =>
    rw [List.range_succ, List.map_append, List.sum_append, ih, List.map_singleton, List.sum_singleton, Nat.shiftLeft_eq,
      Nat.toNat_testBit, Nat.mod_pow_succ, Nat.mul_comm]

/-- The planar index is the number whose bits are the samples of the planes (44_plane_transposer.md R99). -/
theorem planarIndex_eq {s : State} {x y i : Nat} (hi : i < 2 ^ s.regs.nplanes.toNat)
    (h : ∀ p, p < s.regs.nplanes.toNat → field s p y x = (i.testBit p).toNat) : planarIndex s x y = i := by
  have samples : (List.range s.regs.nplanes.toNat).map (fun p => field s p y x <<< p)
      = (List.range s.regs.nplanes.toNat).map fun p => (i.testBit p).toNat <<< p :=
    List.map_congr_left fun p hp => by rw [h p (List.mem_range.1 hp)]
  rw [planarIndex, samples, sum_testBit_shiftLeft, Nat.mod_eq_of_lt hi]

/-- On a planar variant a pixel is the entry of PALRAM that the planes index (44_plane_transposer.md R99). -/
theorem decPixel_planar {s : State} (hv : s.regs.variant.code ∈ [Variant.v1x2, .v1x3, .v1x4]) (x y : Nat) :
    decPixel s x y = palRead s (y * s.regs.width.toNat + x) (planarIndex s x y) := by
  simp only [List.mem_cons, List.not_mem_nil, or_false] at hv
  obtain hc | hc | hc := hv <;> simp only [decPixel, hc]

/-- Each plane of a planar variant has one bit per pixel (43_geometry.md R89). -/
theorem variantBits_planar {v : Variant} (hv : v ∈ [Variant.v1x2, .v1x3, .v1x4]) : variantBits v = 1 := by
  revert v
  decide

/-- Settles O56: the sample of plane p is bit p of the index, so `planarIndex` is that index. -/
theorem pxdecPlanar : Obligations.PxdecPlanar := by
  refine fun s hr hv => pxdecWrites_of_decPixel hr fun x y c hin => ?_
  rintro ⟨i, hcol, hi, bits⟩
  have hb : s.regs.bpp.toNat = 1 := (varsel_bits hr.geometry.code).trans (variantBits_planar hv)
  have index : planarIndex s x y = i := planarIndex_eq hi fun p hp => by
    rw [bits p hp, field_one_bit hr hp hin hb, dbaddr]
  rw [decPixel_planar hv, index, palRead_holdsColour hcol]

/-! ## PXENC -/

/-- PXENC past its checks, every colour having an index, writes the DecodedBitmap (44_plane_transposer.md R103). -/
theorem perform_pxenc {s : State} (hr : PxencRuns s) (hk : firstUnknownPixel s = none) : perform .pxenc s = .ok { s with
    mem := s.mem.fill s.regs.dstAddr.toNat (bitmapSize s.regs) (bitmapByte s)
    regs := { s.regs with result := wordOf .result s.draws (bitmapSize s.regs) } } := by
  show performPxenc s = _
  rw [performPxenc, (checkBoth_eq_none s).2 hr.ready, hk]
  exact (if_neg (Nat.not_lt.2 hr.input)).trans (if_neg (Nat.not_lt.2 hr.output))

/-- V8x3 refuses no colour (44_plane_transposer.md R106). -/
theorem firstUnknownPixel_trueColour {s : State} (hc : s.regs.variant.code = .v8x3) : firstUnknownPixel s = none := by
  simp [firstUnknownPixel, pixelIndex, encIndex, hc]

/-- A byte of the PixelBuffer that PXENC reads is the one memory holds. -/
theorem srcByte_pixelBuffer {s : State} (hr : PxencRuns s) {x y j : Nat} (hin : InImage s x y) (hj : j < 4) :
    srcByte s (pbaddr s.regs x y + j) = inputByte s (pbaddr s.regs x y + j) := by
  have inside : pbaddr s.regs x y + 3 < s.regs.srcLen.toNat := Nat.lt_of_lt_of_le (pbaddr_lt hin) hr.input
  exact srcByte_undisturbed hr.undisturbed rfl (by omega)

/-- Settles O58: channel p of a pixel is the byte of plane p. -/
theorem pxencTrueColour : Obligations.PxencTrueColour := by
  intro s hr hc
  obtain ⟨hb, hn⟩ : s.regs.bpp.toNat = 8 ∧ s.regs.nplanes.toNat = 3 := by
    simpa [variantTable] using hr.geometry.row hc
  obtain ⟨t, he, hco, hk, hres, hread⟩ :=
    exec_fill rfl hr.undisturbed hr.output (perform_pxenc hr (firstUnknownPixel_trueColour hc))
  refine ⟨t, he, hco, hk, hres, fun x y p hin hp => ?_⟩
  have hx : x < s.regs.bpl.toNat := hr.geometry.pixelByte_lt hb hin.1
  have hpn : p < s.regs.nplanes.toNat := by omega
  calc outputByte t ((y * 3 + p) * s.regs.bpl.toNat + x)
      = t.mem.read (s.regs.dstAddr.toNat + dbaddr s.regs p y x) := by rw [outputByte, hk.inputs.dstAddr, dbaddr, hn]
    _ = bitmapByte s (dbaddr s.regs p y x) := hread _ (dbaddr_lt hpn hin.2 hx)
    _ = encByte s p y x := bitmapByte_dbaddr hpn hx y
    _ = srcByte s (pbaddr s.regs x y + p) := by simp only [encByte, hc, hp, hin.1, and_self, if_true]
    _ = inputByte s (pbaddr s.regs x y + p) := srcByte_pixelBuffer hr hin (by omega)

end Sys2Proof.Machine
end

section
/-! PROOFS. The family of 45_control.md: NOP, the acknowledge and the soft reset. -/

namespace Sys2Proof.Machine

/-! ## The soft reset -/

/-- A CTRL write with bit 1 set is a soft reset, busy or not (45_control.md R110, R113). -/
theorem hostWrite_ctrl_reset (s : State) {w : Word} (hw : w.getLsbD 1 = true) : hostWrite s .ctrl w = softReset s := by
  rw [hostWrite_ctrl, writeCtrl, if_pos hw]

/-- Settles O25: the write is a soft reset, and its memory is that of the abandoned command. -/
theorem softResetAbandonsThePendingCommand : Obligations.SoftResetAbandonsThePendingCommand := by
  intro s w hw
  rw [hostWrite_ctrl_reset s hw]
  refine ⟨rfl, rfl, irq_of_reset rfl, rfl, rfl, abandonedMem_idle, fun c hc a ha => ?_⟩
  rw [softReset_mem, abandonedMem_read hc]
  simp [ha]

/-! ## The acknowledge -/

/-- An acknowledge of DONE deasserts the interrupt, whatever IRQ_EN is (45_control.md R112, 60_exceptions.md R121). -/
theorem irq_acknowledge_done (s : State) {w : Word} (hw : w.getLsbD 1 = true) : (acknowledge w s).irq = false := by
  simp [State.irq, statusAck, hw]

/-- Settles O21: an idle write to STATUS is the acknowledge, which stores `statusAck`. -/
theorem acknowledgeClearsTheWrittenFlags : Obligations.AcknowledgeClearsTheWrittenFlags := by
  intro s w hs
  have ack : hostWrite s .status w = acknowledge w s := hostWrite_idle hs .status w
  exact ⟨statusAck s.regs.status w, ack, rfl, rfl, rfl, rfl, rfl, fun hw => ack ▸ irq_acknowledge_done s hw⟩

/-! ## NOP -/

/-- Settles O35: NOP's rule writes RESULT only, and an undisturbed completion adds the bookkeeping alone. -/
theorem nopOnlyCompletes : Obligations.NopOnlyCompletes := by
  intro s hu
  obtain ⟨he, hc⟩ := exec_ok_undisturbed (i := .nop) rfl hu rfl
  exact ⟨_, he, hc, by rw [hc.status]; rfl, rfl, by constructor <;> rfl, ⟨rfl, rfl⟩, ⟨rfl, rfl, rfl⟩, fun _ => rfl⟩

end Sys2Proof.Machine
end

section
/-! PROOFS. The family of 60_exceptions.md: the interrupt output, and what an error leaves. -/

namespace Sys2Proof.Machine

/-! ## The interrupt -/

/-- A flag's word has the flag at its own place and 0 at every other. -/
@[simp] theorem flagBit_getElem (b : Bool) (k : Nat) {j : Nat} (hj : j < 32) : (flagBit b k)[j] = (b && decide (j = k)) := by
  cases b with
  | false => simp [flagBit]
  | true =>
    have place : k ≤ j ∧ j - k = 0 ↔ j = k := by omega
    rw [Bool.eq_iff_iff]
    simpa [flagBit] using place

/-- IRQ_EN is bit 0 of CTRL (10_state.md R20). -/
theorem readReg_ctrl_irqEn (s : State) : (readReg s .ctrl).getLsbD 0 = s.regs.irqEn := by
  simp [readReg]

/-- DONE is bit 1 of STATUS: every other field lies elsewhere (10_state.md R19). -/
theorem readReg_status_done (s : State) : (readReg s .status).getLsbD 1 = s.regs.status.done := by
  simp [readReg, statusWord]

/-- Every completion sets DONE and keeps IRQ_EN, so the interrupt is IRQ_EN (60_exceptions.md R117, R121). -/
theorem irq_exec {i : Instr} {s t : State} (hi : i.isCommand = true) (he : exec i s = .next t) : t.irq = s.regs.irqEn := by
  rw [exec_command s hi] at he
  cases he
  have hc := complete_completion (perform_outcome s hi)
  rw [State.irq, hc.done, hc.inputs.irqEn, Bool.and_true]

/-- Settles O28: IRQ_EN and DONE after each event that asserts or deasserts the interrupt. -/
theorem interruptFollowsCompletionAndAcknowledge : Obligations.InterruptFollowsCompletionAndAcknowledge := by
  refine ⟨fun s => ?_, fun _ _ _ => irq_exec, fun s w hw => ?_, fun s w hs hw => ?_, fun s w hs => ?_,
    fun s => ⟨irq_of_reset rfl, irq_of_reset rfl⟩⟩
  · rw [readReg_ctrl_irqEn, readReg_status_done, State.irq]
  · rw [hostWrite_ctrl, writeCtrl, if_neg (Bool.eq_false_iff.1 hw), State.irq]
  · exact hostWrite_idle hs .status w ▸ irq_acknowledge_done s hw
  · rw [hostWrite_idle hs]
    exact Bool.and_false _

/-! ## Errors -/

/-- An undisturbed command that completes with ERR = 1 is one whose rule raises an error (60_exceptions.md R116, R117). -/
theorem perform_error_of_err {i : Instr} {s t : State} (hi : i.isCommand = true) (he : exec i s = .next t)
    (herr : t.regs.status.err = true) : ∃ e, perform i s = .error e := by
  rw [exec_command s hi] at he
  cases he
  have hc := complete_completion (perform_outcome s hi)
  cases hp : perform i s with
  | error e => exact ⟨e, rfl⟩
  | ok u =>
    obtain ⟨noErr, -, -⟩ := hc.ok u hp
    rw [noErr] at herr
    cases herr

/-- Settles O30: ERR = 1 says that the rule raised an error, and such an ending leaves what R119 says. -/
theorem errorLeavesTheRestUnchanged : Obligations.ErrorLeavesTheRestUnchanged := by
  intro s i t hi hu he herr
  obtain ⟨e, hp⟩ := perform_error_of_err hi he herr
  obtain ⟨u, hx, completed, leaves⟩ := exec_error_undisturbed hi hu hp
  cases he.symm.trans hx
  exact ⟨leaves, by rw [completed.status]⟩

end Sys2Proof.Machine
end

section
/-! PROOFS. The two directions of the encoding, 30_encoding.md sections 1 and 3. -/

namespace Sys2Proof.Machine

/-! ## Run markers -/

/-- A run marker is the only byte with both top bits set and its count (30_encoding.md R58, R59). -/
theorem isRunMarker_runMarker (n : BitVec 6) : isRunMarker (runMarker n) = true := by
  revert n
  decide

theorem runCount_runMarker (n : BitVec 6) : runCount (runMarker n) = n := by
  revert n
  decide

theorem runMarker_runCount {b : Byte} (hb : isRunMarker b = true) : runMarker (runCount b) = b := by
  revert b
  decide

/-! ## Decoding what was encoded -/

/-- A well-formed token decodes from its bytes, whatever follows them. -/
theorem decodeToken_encode {i : Instr} (hw : WellFormed i = true) {bytes : List Byte} (he : encode i = .token bytes)
    (rest : List Byte) : decodeToken (bytes ++ rest) = .ok (i, rest) := by
  cases i with
  | rleRun n v =>
    cases he
    have hn : runCount (runMarker n) ≠ 1#6 := by simpa [runCount_runMarker, WellFormed] using hw
    refine (if_pos (isRunMarker_runMarker n)).trans ((if_neg hn).trans ?_)
    rw [runCount_runMarker]
    rfl
  | rleEscapedLiteral v =>
    cases he
    rfl
  | rleLiteral v =>
    cases he
    refine decodeToken_literal (mt (isRunMarker_iff v).1 ?_) rest
    simpa [WellFormed] using hw
  | _ => cases he

/-- A well-formed command decodes from its word. -/
theorem decodeCommand_encode {i : Instr} (hw : WellFormed i = true) {w : Word} (he : encode i = .command w) :
    decodeCommand w = i := by
  cases i with
  | illegal v =>
    cases he
    refine decodeCommand_illegal ?_
    simpa [WellFormed, legalCommand] using hw
  | rleRun | rleEscapedLiteral | rleLiteral => cases he
  | _ =>
    cases he
    rfl

/-- Settles O2: commands through `decodeCommand_encode`, tokens through `decodeToken_encode`. -/
theorem decodeOfEncodeIsTheInstruction : Obligations.DecodeOfEncodeIsTheInstruction := by
  refine fun i hw => ⟨?_, fun bytes rest he => decodeToken_encode hw he rest⟩
  cases he : encode i with
  | command w => rw [decode, decodeCommand_encode hw he]
  | token bytes => simpa [decode] using decodeToken_encode hw he []

/-! ## Encoding what was decoded -/

/-- Every word is the encoding of the well-formed command it decodes to. -/
theorem encode_decodeCommand (w : Word) : WellFormed (decodeCommand w) = true ∧ encode (decodeCommand w) = .command w := by
  by_cases h : 8 < w.toNat
  · rw [decodeCommand_illegal h]
    exact ⟨by simpa [WellFormed, legalCommand] using h, rfl⟩
  · obtain ⟨n, rfl⟩ : ∃ n : Fin 9, w = BitVec.ofNat 32 n.val := ⟨⟨w.toNat, by omega⟩, by simp⟩
    revert n
    decide

/-- A decoded token is well-formed, and the string is its encoding and the rest. -/
theorem encode_decodeToken {bytes rest : List Byte} {i : Instr} (h : decodeToken bytes = .ok (i, rest)) :
    WellFormed i = true ∧ ∃ head, encode i = .token head ∧ bytes = head ++ rest := by
  cases bytes with
  | nil => cases h
  | cons b tail =>
    by_cases hb : isRunMarker b = true
    · cases tail with
      | nil => cases (if_pos hb).symm.trans h
      | cons v tail =>
        by_cases hn : runCount b = 1#6
        · cases ((if_pos hb).trans (if_pos hn)).symm.trans h
          refine ⟨rfl, [0xC1#8, v], rfl, ?_⟩
          rw [← runMarker_runCount hb, hn]
          rfl
        · cases ((if_pos hb).trans (if_neg hn)).symm.trans h
          refine ⟨by simpa [WellFormed] using hn, [runMarker (runCount b), v], rfl, ?_⟩
          rw [runMarker_runCount hb]
          rfl
    · cases (decodeToken_literal hb tail).symm.trans h
      refine ⟨?_, [b], rfl, rfl⟩
      simpa [WellFormed] using mt (isRunMarker_iff b).2 hb

/-- Settles O3, by the two decoders. -/
theorem encodeOfDecodedIsTheSource : Obligations.EncodeOfDecodedIsTheSource :=
  ⟨encode_decodeCommand, fun _ _ _ => encode_decodeToken⟩

/-- Settles O4, by running the decoders. -/
theorem writtenOutWordsDecode : Obligations.WrittenOutWordsDecode := by
  unfold Obligations.WrittenOutWordsDecode
  decide

end Sys2Proof.Machine
end

section
/-! PROOFS. What every step keeps: the machine invariant. -/

namespace Sys2Proof.Machine

/-! ## Completion keeps the invariant -/

/-- Losing the outputs of a command keeps memory canonical and inside the space. -/
theorem loseOutputs_wf {t : State} (i : Instr) (s : State) (h : t.mem.wf) : (loseOutputs i s t).mem.wf := by
  rw [loseOutputs_mem]
  split
  · exact Memory.wf_havoc _ _ _ h
  · exact h

theorem loseOutputs_below {s t : State} (i : Instr) (h : t.mem.below s.addrTop) :
    (loseOutputs i s t).mem.below s.addrTop := by
  rw [loseOutputs_mem]
  split
  · exact Memory.below_havoc _ h (outRoom_below s)
  · exact h

/-- A spoiled command leaves PAL_LEN at most 256 (10_state.md R28, log 15). -/
theorem spoilRegs_palLen {t : State} (i : Instr) (s : State) (h : t.regs.palctl.palLen ≤ 256#9) :
    (spoilRegs i s t).regs.palctl.palLen ≤ 256#9 := by
  cases i with
  | palres => exact clampPalLen_le _
  | _ => exact h

/-- What the invariant asks of memory and PAL_LEN, which a completion takes over from the effect of the command. -/
structure StorageInv (top : Nat) (t : State) : Prop where
  memWf : t.mem.wf
  memBelow : t.mem.below top
  palLen : t.regs.palctl.palLen ≤ 256#9

theorem MachineInv.storage {s : State} (h : MachineInv s) : StorageInv s.addrTop s :=
  ⟨h.memWf, h.memBelow, h.palLen⟩

theorem Effect.storage {i : Instr} {s t : State} (he : Effect i s t) (h : MachineInv s) : StorageInv s.addrTop t :=
  ⟨he.memWf h.memWf, he.memBelow h.memBelow, he.palLen h.palLen⟩

/-- The outputs and the registers of a spoiled command. -/
theorem StorageInv.spoil {s t : State} (h : StorageInv s.addrTop t) (i : Instr) :
    StorageInv s.addrTop (loseOutputs i s (spoilRegs i s t)) :=
  ⟨loseOutputs_wf i s (by rw [spoilRegs_mem]; exact h.memWf),
    loseOutputs_below i (by rw [spoilRegs_mem]; exact h.memBelow), spoilRegs_palLen i s h.palLen⟩

theorem complete_storage {i : Instr} {s : State} {o : Except Raised State} (ho : OutcomeOf i s o) (h : MachineInv s) :
    StorageInv s.addrTop (complete i s o) := by
  cases o with
  | ok t =>
    have ht : StorageInv s.addrTop t := Effect.storage ho h
    rw [complete_ok, completeOk]
    split
    · obtain ⟨hw, hb, hp⟩ := ht.spoil i
      exact ⟨hw, hb, hp⟩
    · exact ⟨Memory.wf_havocEach _ _ ht.memWf, Memory.below_havocEach _ _ ht.memBelow h.racedBelow, ht.palLen⟩
  | error e =>
    have ht : StorageInv s.addrTop { s with regs := failedRegs i s } :=
      ⟨h.memWf, h.memBelow, by rw [failedRegs_palctl]; exact h.palLen⟩
    rw [complete_error, completeErr]
    split
    · obtain ⟨hw, hb, hp⟩ := ht.spoil i
      exact ⟨hw, hb, hp⟩
    · exact ⟨loseOutputs_wf i s ht.memWf, loseOutputs_below i ht.memBelow, ht.palLen⟩

/-- The error code a completion leaves is one that is produced (60_exceptions.md R115). -/
theorem Completion.errCode_mem {i : Instr} {s t : State} {o : Except Raised State} (hc : Completion i s o t)
    (ho : OutcomeOf i s o) : t.regs.status.errCode ∈ producedCodes := by
  cases o with
  | ok u =>
    obtain ⟨-, code, -⟩ := hc.ok u rfl
    rw [code]
    decide
  | error e =>
    obtain ⟨-, code, -⟩ := hc.error e rfl
    rw [code]
    exact errCode_produced ho

theorem complete_inv {i : Instr} {s : State} {o : Except Raised State} (ho : OutcomeOf i s o) (h : MachineInv s) :
    MachineInv (complete i s o) := by
  have hc := complete_completion ho
  have hs := complete_storage ho h
  have top : (complete i s o).addrTop = s.addrTop := by rw [State.addrTop, hc.cfg, State.addrTop]
  exact {
    memWf := hs.memWf
    memBelow := top ▸ hs.memBelow
    palLen := hs.palLen
    errCode := hc.errCode_mem ho
    busyNotDone := fun hp => absurd hc.pending hp
    idleNoRace := fun _ => hc.race
    racedBelow := by simp [hc.race, Race.clean]
    cursorInRled := fun hd => absurd hc.dec hd }

/-! ## The engine's turn -/

/-- A token writes inside the bytes of the output region that exist. -/
theorem tokenResult_inv {s : State} {c : Cursor} (len n : Nat) (v : Byte) (hd : s.dec = some c) (h : MachineInv s) :
    MachineInv (tokenResult s c len n v) where
  memWf := Memory.wf_fill _ _ _ h.memWf
  memBelow := Memory.below_fill _ h.memBelow (by
    show _ ∨ _ ≤ s.addrTop
    have := outRoom_below s
    omega)
  palLen := h.palLen
  errCode := h.errCode
  busyNotDone := h.busyNotDone
  idleNoRace := h.idleNoRace
  racedBelow := h.racedBelow
  cursorInRled := fun _ => h.cursorInRled (by simp [hd])

theorem EngineMove.inv {s t : State} (hm : EngineMove s t) (h : MachineInv s) : MachineInv t := by
  cases hm with
  | idle _ ht => exact ht ▸ h
  | command w _ _ ht => exact ht ▸ complete_inv (perform_outcome s (decodeCommand_isCommand w)) h
  | token w c len n v _ hd ht => exact ht ▸ tokenResult_inv len n v hd h
  | finished _ c _ _ ht => exact ht ▸ complete_inv (decodeFinish_outcome s c) h
  | exhausted _ _ off _ _ ht => exact ht ▸ complete_inv (decodeExhausted_outcome s off) h

/-! ## Host accesses -/

/-- The invariant does not read the events to come. -/
theorem MachineInv.withHost {s : State} (h : MachineInv s) (l : List HostEvent) : MachineInv { s with host := l } :=
  ⟨h.memWf, h.memBelow, h.palLen, h.errCode, h.busyNotDone, h.idleNoRace, h.racedBelow, h.cursorInRled⟩

theorem MachineInv.hostRead {s : State} (h : MachineInv s) (r : Reg) : MachineInv (hostRead s r) :=
  ⟨h.memWf, h.memBelow, h.palLen, h.errCode, h.busyNotDone, h.idleNoRace, h.racedBelow, h.cursorInRled⟩

/-- No decode is under way while nothing is pending. -/
theorem MachineInv.idle_dec {s : State} (h : MachineInv s) (hp : s.pending = none) : s.dec = none := by
  by_contra hd
  exact absurd (hp.symm.trans (h.cursorInRled hd)) (by simp)

/-- An idle write that changes registers or PALRAM keeps the invariant when PAL_LEN and ERRCODE stay in their ranges. -/
theorem MachineInv.ofIdle {s : State} (h : MachineInv s) (hp : s.pending = none) {r : Regs} (p : Vector PalEntry 256)
    (hl : r.palctl.palLen ≤ 256#9) (hc : r.status.errCode = s.regs.status.errCode) :
    MachineInv { s with regs := r, palram := p } where
  memWf := h.memWf
  memBelow := h.memBelow
  palLen := hl
  errCode := by rw [hc]; exact h.errCode
  busyNotDone := fun hb => absurd hp hb
  idleNoRace := h.idleNoRace
  racedBelow := h.racedBelow
  cursorInRled := h.cursorInRled

theorem issueCommand_inv {s : State} (h : MachineInv s) (hp : s.pending = none) (w : Word) :
    MachineInv (issueCommand w s) where
  memWf := h.memWf
  memBelow := h.memBelow
  palLen := h.palLen
  errCode := h.errCode
  busyNotDone := fun _ => ⟨rfl, rfl⟩
  idleNoRace := fun _ => rfl
  racedBelow := by simp [Race.clean]
  cursorInRled := fun hd => absurd (h.idle_dec hp) hd

theorem hazard_inv {s : State} (h : MachineInv s) (hb : s.busy = true) : MachineInv (hazard s) where
  memWf := h.memWf
  memBelow := h.memBelow
  palLen := h.palLen
  errCode := h.errCode
  busyNotDone := h.busyNotDone
  idleNoRace := fun hp => by simp [(busy_eq_false s).2 hp] at hb
  racedBelow := h.racedBelow
  cursorInRled := h.cursorInRled

/-- An abandoned command leaves memory canonical and inside the space. -/
theorem abandonedMem_inv {s : State} (h : MachineInv s) : (abandonedMem s).wf ∧ (abandonedMem s).below s.addrTop := by
  cases hp : s.pending with
  | none => exact abandonedMem_idle hp ▸ ⟨h.memWf, h.memBelow⟩
  | some c => exact abandonedMem_pending hp ▸ ⟨loseOutputs_wf _ s h.memWf, loseOutputs_below _ h.memBelow⟩

/-- A reset leaves the registers at 0 and nothing pending, so only memory is to be shown. -/
theorem MachineInv.ofReset {t : State} (hw : t.mem.wf) (hb : t.mem.below t.addrTop) (hr : t.regs = Regs.reset)
    (hp : t.pending = none) (hd : t.dec = none) (hc : t.race = Race.clean) : MachineInv t where
  memWf := hw
  memBelow := hb
  palLen := by rw [hr]; decide
  errCode := by rw [hr]; decide
  busyNotDone := fun h => absurd hp h
  idleNoRace := fun _ => hc
  racedBelow := by simp [hc, Race.clean]
  cursorInRled := fun h => absurd hd h

theorem softReset_inv {s : State} (h : MachineInv s) : MachineInv (softReset s) :=
  .ofReset (abandonedMem_inv h).1 (abandonedMem_inv h).2 rfl rfl rfl rfl

theorem hardReset_inv {s : State} (h : MachineInv s) : MachineInv (hardReset s) :=
  .ofReset (abandonedMem_inv h).1 (abandonedMem_inv h).2 rfl rfl rfl rfl

theorem writeReg_inv {s : State} (h : MachineInv s) (hp : s.pending = none) {r : Reg} (hr : r ≠ .ctrl) (w : Word) :
    MachineInv (writeReg s r w) := by
  cases r with
  | ctrl => exact absurd rfl hr
  | cmd => exact issueCommand_inv h hp w
  | palctl => exact h.ofIdle hp s.palram (clampPalLen_le _) rfl
  | _ => exact h.ofIdle hp _ h.palLen rfl

theorem hostWrite_inv {s : State} (h : MachineInv s) (r : Reg) (w : Word) : MachineInv (hostWrite s r w) := by
  rcases hostWrite_cases s r w with ⟨-, -, e⟩ | ⟨-, -, e⟩ | ⟨-, e⟩ | ⟨-, -, hb, e⟩ | ⟨hc, -, hb, e⟩ <;> rw [e]
  · exact softReset_inv h
  · exact ⟨h.memWf, h.memBelow, h.palLen, h.errCode, h.busyNotDone, h.idleNoRace, h.racedBelow, h.cursorInRled⟩
  · exact h
  · exact hazard_inv h hb
  · exact writeReg_inv h ((busy_eq_false s).1 hb) hc w

/-! ## Memory accesses -/

theorem racesOutput_idle {s : State} (hp : s.pending = none) (a : Nat) : racesOutput s a = false := by
  simp [racesOutput, hp]

theorem racesInput_idle {s : State} (hp : s.pending = none) (a : Nat) : racesInput s a = false := by
  simp [racesInput, hp]

theorem mem_addAddress {l : List Nat} {a b : Nat} : b ∈ addAddress l a ↔ b = a ∨ b ∈ l := by
  unfold addAddress
  split
  next h =>
    have := List.contains_iff_mem.1 h
    constructor
    · exact .inr
    · rintro (rfl | hb)
      · exact this
      · exact hb
  next => exact List.mem_cons

/-- The record of a memory access at `a`: nothing while idle, and no address past the space. -/
theorem MachineInv.ofAccess {s t : State} {a : Nat} (h : MachineInv s) (ha : a < s.addrTop)
    (hw : t.mem.wf) (hb : t.mem.below s.addrTop) (hr : t.regs = s.regs) (hp : t.pending = s.pending) (hd : t.dec = s.dec)
    (hc : t.cfg = s.cfg) (hidle : s.pending = none → t.race = s.race)
    (hrec : ∀ b ∈ t.race.outBytes, b = a ∨ b ∈ s.race.outBytes) : MachineInv t := by
  have top : t.addrTop = s.addrTop := by rw [State.addrTop, hc, State.addrTop]
  exact {
    memWf := hw
    memBelow := top ▸ hb
    palLen := hr ▸ h.palLen
    errCode := hr ▸ h.errCode
    busyNotDone := by rw [hp, hr]; exact h.busyNotDone
    idleNoRace := fun hi => (hidle (hp ▸ hi)).trans (h.idleNoRace (hp ▸ hi))
    racedBelow := fun b hb => by
      rw [top]
      rcases hrec b hb with rfl | hb
      · exact ha
      · exact h.racedBelow b hb
    cursorInRled := by rw [hd, hp]; exact h.cursorInRled }

/-- Settles O8, by the ways a step goes on. -/
theorem everyStepKeepsTheInvariant : Obligations.EveryStepKeepsTheInvariant := by
  intro s t h hs
  cases step_cases hs with
  | turn _ hm => exact hm.inv h
  | engine rest _ hm => exact hm.inv (h.withHost rest)
  | waitTurn _ _ _ hm => exact hm.inv (h.hostRead _)
  | regWrite _ _ w rest r _ _ ht => exact ht ▸ hostWrite_inv (h.withHost rest) r w
  | regRead _ _ rest r _ _ ht => exact ht ▸ (h.withHost rest).hostRead r
  | waitOver rest _ _ ht => exact ht ▸ (h.withHost rest).hostRead _
  | hardReset rest _ ht => exact ht ▸ hardReset_inv (h.withHost rest)
  | memWrite a v rest _ ha ht =>
    subst ht
    refine h.ofAccess ha (Memory.wf_write _ _ h.memWf) (Memory.below_write _ h.memBelow ha) rfl rfl rfl rfl
      (fun hp => by simp [racesInput_idle hp, racesOutput_idle hp]) fun b hb => ?_
    dsimp only at hb
    split at hb
    · exact mem_addAddress.1 hb
    · exact .inr hb
  | memRead a rest _ ha ht =>
    subst ht
    cases hr : racesOutput s a with
    | false =>
      rw [if_neg Bool.false_ne_true]
      exact h.ofAccess ha h.memWf h.memBelow rfl rfl rfl rfl (fun _ => rfl) fun _ => .inr
    | true =>
      rw [if_pos rfl]
      exact h.ofAccess ha h.memWf h.memBelow rfl rfl rfl rfl (fun hp => by simp [racesOutput_idle hp] at hr)
        fun _ => mem_addAddress.1

/-- Settles O7: at reset memory lists nothing. -/
theorem resetStateMeetsTheInvariant : Obligations.ResetStateMeetsTheInvariant :=
  .ofReset State.reset_mem_wf (by decide) rfl rfl rfl rfl

end Sys2Proof.Machine
end

section
/-! PROOFS. What a step may change of HZD, of PALRAM and of the derived geometry. -/

namespace Sys2Proof.Machine

/-! ## Which command a turn of the engine completes -/

/-- A word that decodes to a command is the command's word (30_encoding.md R54). -/
theorem eq_of_decodeCommand {w v : Word} {i : Instr} (h : decodeCommand w = i) (hv : encode i = .command v) : w = v := by
  have hw := (encode_decodeCommand w).2
  rw [h, hv] at hw
  exact (Encoding.command.inj hw).symm

/-- A turn of the engine that ends a command or a decode is a completion: of the pending command, or of RLED with a decode
under way. Any other turn leaves registers and PALRAM alone. -/
theorem EngineMove.completes {s t : State} (h : EngineMove s t) :
    (t.regs = s.regs ∧ t.palram = s.palram)
      ∨ (∃ w, s.pending = some w ∧ t = complete (decodeCommand w) s (perform (decodeCommand w) s)
        ∧ Completion (decodeCommand w) s (perform (decodeCommand w) s) t)
      ∨ ∃ o, Completion .rled s o t := by
  cases h with
  | idle _ ht => exact .inl (ht ▸ ⟨rfl, rfl⟩)
  | token _ _ _ _ _ _ _ ht => exact .inl (ht ▸ ⟨rfl, rfl⟩)
  | command w hp _ ht =>
    exact .inr (.inl ⟨w, hp, ht, ht ▸ complete_completion (perform_outcome s (decodeCommand_isCommand w))⟩)
  | finished _ c _ _ ht => exact .inr (.inr ⟨_, by rw [ht]; exact complete_completion (decodeFinish_outcome s c)⟩)
  | exhausted _ _ off _ _ ht => exact .inr (.inr ⟨_, by rw [ht]; exact complete_completion (decodeExhausted_outcome s off)⟩)

/-! ## HZD -/

theorem EngineMove.hzd {s t : State} (h : EngineMove s t) : t.regs.status.hzd = s.regs.status.hzd := by
  rcases h.completes with ⟨hr, -⟩ | ⟨w, -, -, hc⟩ | ⟨o, hc⟩
  · rw [hr]
  · exact hc.hzd
  · exact hc.hzd

/-- An idle write to a register other than STATUS and CTRL keeps HZD. -/
theorem writeReg_hzd (s : State) {r : Reg} (hs : r ≠ .status) (hc : r ≠ .ctrl) (w : Word) :
    (writeReg s r w).regs.status.hzd = s.regs.status.hzd := by
  cases r with
  | status => exact absurd rfl hs
  | ctrl => exact absurd rfl hc
  | _ => rfl

/-- The host writes that clear HZD: an idle acknowledge with bit 3 set, and a soft reset (10_state.md R19, R32). -/
theorem hostWrite_clears_hzd {s : State} {r : Reg} {w : Word} (h1 : s.regs.status.hzd = true)
    (h2 : (hostWrite s r w).regs.status.hzd = false) :
    (r = .status ∧ s.busy = false ∧ w.getLsbD 3 = true) ∨ (r = .ctrl ∧ w.getLsbD 1 = true) := by
  rcases hostWrite_cases s r w with ⟨hr, hw, -⟩ | ⟨-, -, e⟩ | ⟨-, e⟩ | ⟨-, -, -, e⟩ | ⟨hc, -, hb, e⟩
  · exact .inr ⟨hr, hw⟩
  · simp [e, h1] at h2
  · simp [e, h1] at h2
  · simp [e] at h2
  · by_cases hs : r = .status
    · subst hs
      have h3 : (s.regs.status.hzd && !w.getLsbD 3) = false := by rwa [e] at h2
      exact .inl ⟨rfl, hb, by simpa [h1] using h3⟩
    · rw [e, writeReg_hzd s hs hc, h1] at h2
      cases h2

/-- Settles O13: only a host write that clears HZD and a hardware reset lower it. -/
theorem hazardFlagIsSticky : Obligations.HazardFlagIsSticky := by
  intro s t h h1 h2
  have kept (hk : t.regs.status.hzd = s.regs.status.hzd) : False := by simp [hk, h1] at h2
  cases step_cases h with
  | turn _ hm => exact (kept hm.hzd).elim
  | engine _ _ hm => exact (kept hm.hzd).elim
  | waitTurn _ _ _ hm => exact (kept hm.hzd).elim
  | regRead _ _ _ _ _ _ ht => exact (kept (ht ▸ rfl)).elim
  | waitOver _ _ _ ht => exact (kept (ht ▸ rfl)).elim
  | memWrite _ _ _ _ _ ht => exact (kept (ht ▸ rfl)).elim
  | memRead _ _ _ _ ht => exact (kept (by rw [ht]; split <;> rfl)).elim
  | hardReset rest hh _ => exact ⟨_, rest, hh, .inl rfl⟩
  | regWrite addr bits w rest r hh hr ht =>
    subst ht
    refine ⟨_, rest, hh, .inr ⟨addr, bits, w, rfl, ?_⟩⟩
    rcases hostWrite_clears_hzd (s := { s with host := rest }) h1 h2 with ⟨rfl, hb, hw⟩ | ⟨rfl, hw⟩
    · exact .inl ⟨hr, hb, hw⟩
    · exact .inr ⟨hr, hw⟩

/-! ## PALRAM -/

theorem EngineMove.palram {s t : State} (h : EngineMove s t) (hn : s.pending ≠ some 0x00000002#32) :
    t.palram = s.palram := by
  rcases h.completes with ⟨-, hp⟩ | ⟨w, hp, -, hc⟩ | ⟨o, hc⟩
  · exact hp
  · refine (hc.palette fun hi => hn ?_).palram
    rw [hp, eq_of_decodeCommand hi rfl]
  · exact (hc.palette (by simp)).palram

/-- The only host write that changes an entry of PALRAM is an idle write to its word. -/
theorem hostWrite_palram {s : State} {r : Reg} {w : Word} {k : Nat} (h : k < 256)
    (hk : (hostWrite s r w).palram[k] ≠ s.palram[k]) : r = .palram ⟨k, h⟩ ∧ s.busy = false := by
  rcases hostWrite_cases s r w with ⟨-, -, e⟩ | ⟨-, -, e⟩ | ⟨-, e⟩ | ⟨-, -, -, e⟩ | ⟨hc, -, hb, e⟩
  · exact absurd (by rw [e]; rfl) hk
  · exact absurd (by rw [e]) hk
  · exact absurd (by rw [e]) hk
  · exact absurd (by rw [e]; rfl) hk
  · refine ⟨?_, hb⟩
    cases r with
    | palram i =>
      by_contra hne
      have hik : i.val ≠ k := fun hik => hne (by simp [← hik])
      refine hk ?_
      rw [e]
      exact Vector.getElem_set_ne i.isLt h hik
    | ctrl => exact absurd rfl hc
    | _ => exact absurd (by rw [e]; rfl) hk

/-- Settles O14, by the ways a step goes on. -/
theorem onlyHostAndPalresWritePalram : Obligations.OnlyHostAndPalresWritePalram := by
  intro s t k h _ hs hk
  have kept (hp : t.palram = s.palram) : False := hk (by simp [hp])
  by_cases hn : s.pending = some 0x00000002#32
  · exact .inl hn
  refine .inr ?_
  cases step_cases hs with
  | turn _ hm => exact (kept (hm.palram hn)).elim
  | engine _ _ hm => exact (kept (hm.palram hn)).elim
  | waitTurn _ _ _ hm => exact (kept (hm.palram hn)).elim
  | regRead _ _ _ _ _ _ ht => exact (kept (ht ▸ rfl)).elim
  | waitOver _ _ _ ht => exact (kept (ht ▸ rfl)).elim
  | memWrite _ _ _ _ _ ht => exact (kept (ht ▸ rfl)).elim
  | memRead _ _ _ _ ht => exact (kept (by rw [ht]; split <;> rfl)).elim
  | hardReset rest hh _ => exact ⟨_, rest, hh, .inl rfl⟩
  | regWrite addr bits w rest r hh hr ht =>
    subst ht
    obtain ⟨rfl, hb⟩ := hostWrite_palram (s := { s with host := rest }) h hk
    exact ⟨_, rest, hh, .inr ⟨addr, bits, w, rfl, hr, hb⟩⟩

/-! ## The derived geometry -/

/-- The geometry inputs and the registers that GEOM derives from them are those of `s`. -/
structure SameGeometry (s t : State) : Prop where
  width : t.regs.width = s.regs.width
  height : t.regs.height = s.regs.height
  bpp : t.regs.bpp = s.regs.bpp
  nplanes : t.regs.nplanes = s.regs.nplanes
  bplo : t.regs.bplo = s.regs.bplo
  bpl : t.regs.bpl = s.regs.bpl
  variant : t.regs.variant = s.regs.variant

theorem SameGeometry.ofRegs {s t : State} (h : t.regs = s.regs) : SameGeometry s t := by
  constructor <;> rw [h]

theorem Completion.sameGeometry {i : Instr} {s t : State} {o : Except Raised State} (h : Completion i s o t)
    (hi : i ≠ .geom) : SameGeometry s t :=
  ⟨h.inputs.width, h.inputs.height, h.inputs.bpp, h.inputs.nplanes, h.inputs.bplo, (h.geometry hi).bpl,
    (h.geometry hi).variant⟩

theorem SameGeometry.fresh {s t : State} (h : SameGeometry s t) (hf : FreshGeometry s) : FreshGeometry t where
  code := by rw [h.bpp, h.nplanes, h.variant]; exact hf.code
  width := by rw [h.width]; exact hf.width
  height := by rw [h.height]; exact hf.height
  bpl := by rw [h.bpl, h.width, h.bpp]; exact hf.bpl
  bplo := by rw [h.bplo, h.bpl, h.variant]; exact hf.bplo

/-- What GEOM's rule has found when it raises no error (43_geometry.md R94). -/
theorem performGeom_ok {s t : State} (h : performGeom s = .ok t) : ∃ v d,
    t = deriveGeometry s (bytesPerLine s.regs.width s.regs.bpp) v d ∧ varsel s.regs.bpp s.regs.nplanes = some v
      ∧ 1 ≤ s.regs.width.toNat ∧ 1 ≤ s.regs.height.toNat
      ∧ s.regs.bplo.toNat = bytesPerLine s.regs.width s.regs.bpp + d.toNat := by
  unfold performGeom at h
  dsimp only at h
  split at h
  · cases h
  · rename_i v hv
    split at h
    · cases h
    · rename_i image
      split at h
      · cases h
      · rename_i slack
        cases h
        refine ⟨v, _, rfl, hv, by bv_omega, by bv_omega, ?_⟩
        unfold lineSlack at slack ⊢
        rcases (by omega : (s.regs.bplo.toNat : Int) - bytesPerLine s.regs.width s.regs.bpp = 0
          ∨ (s.regs.bplo.toNat : Int) - bytesPerLine s.regs.width s.regs.bpp = 1) with hd | hd <;> rw [hd] <;> simp <;> omega

/-- A derived geometry is fresh when the present inputs give it. -/
theorem deriveGeometry_fresh {s : State} {v : Variant} {d : Bool} (hv : varsel s.regs.bpp s.regs.nplanes = some v)
    (hw : 1 ≤ s.regs.width.toNat) (hh : 1 ≤ s.regs.height.toNat)
    (hl : s.regs.bplo.toNat = bytesPerLine s.regs.width s.regs.bpp + d.toNat) :
    FreshGeometry (deriveGeometry s (bytesPerLine s.regs.width s.regs.bpp) v d) := by
  have fits : (BitVec.ofNat 16 (bytesPerLine s.regs.width s.regs.bpp)).toNat = bytesPerLine s.regs.width s.regs.bpp := by
    have := s.regs.bplo.isLt
    exact Nat.mod_eq_of_lt (by omega)
  exact ⟨hv, hw, hh, fits, hl.trans (congrArg (· + d.toNat) fits.symm)⟩

/-- A GEOM that is not spoiled leaves VALID = 1 only beside a fresh geometry (43_geometry.md R94, 60_exceptions.md R119). -/
theorem complete_geom_fresh {s : State} (hs : spoiled .geom s = false)
    (hv : (complete .geom s (performGeom s)).regs.variant.valid = true) :
    FreshGeometry (complete .geom s (performGeom s)) := by
  cases hp : performGeom s with
  | error e => simp [hp, complete_error, completeErr, hs, failedRegs, freeVariant] at hv
  | ok t =>
    obtain ⟨v, d, rfl, hv, hw, hh, hl⟩ := performGeom_ok hp
    refine SameGeometry.fresh ?_ (deriveGeometry_fresh hv hw hh hl)
    rw [complete_ok, completeOk, hs]
    constructor <;> rfl

/-- A turn of the engine keeps the geometry, or completes a pending GEOM. -/
theorem EngineMove.geometry {s t : State} (h : EngineMove s t) :
    SameGeometry s t ∨ (s.pending = some 0x00000001#32
      ∧ (spoiled .geom s = false → t.regs.variant.valid = true → FreshGeometry t)) := by
  rcases h.completes with ⟨hr, -⟩ | ⟨w, hp, ht, hc⟩ | ⟨o, hc⟩
  · exact .inl (.ofRegs hr)
  · by_cases hg : decodeCommand w = .geom
    · rw [hg] at ht
      exact .inr ⟨by rw [hp, eq_of_decodeCommand hg rfl], fun hs hv => ht ▸ complete_geom_fresh hs (ht ▸ hv)⟩
    · exact .inl (hc.sameGeometry hg)
  · exact .inl (hc.sameGeometry (by simp))

/-- A host write clears VALID or leaves the geometry as it is (10_state.md R23). -/
theorem hostWrite_geometry (s : State) (r : Reg) (w : Word) :
    SameGeometry s (hostWrite s r w) ∨ (hostWrite s r w).regs.variant.valid = false := by
  rcases hostWrite_cases s r w with ⟨-, -, e⟩ | ⟨-, -, e⟩ | ⟨-, e⟩ | ⟨-, -, -, e⟩ | ⟨hc, -, -, e⟩ <;> rw [e]
  · exact .inr rfl
  · exact .inl (by constructor <;> rfl)
  · exact .inl (.ofRegs rfl)
  · exact .inl (by constructor <;> rfl)
  · cases r with
    | width | height | bpp | nplanes | bplo => exact .inr rfl
    | ctrl => exact absurd rfl hc
    | _ => exact .inl (by constructor <;> rfl)

/-- What a step does to the geometry. -/
theorem step_geometry {s t : State} (h : step s = .next t) :
    SameGeometry s t ∨ t.regs.variant.valid = false ∨ (s.pending = some 0x00000001#32
      ∧ (spoiled .geom s = false → t.regs.variant.valid = true → FreshGeometry t)) := by
  cases step_cases h with
  | turn _ hm => exact hm.geometry.imp id .inr
  | engine _ _ hm => exact hm.geometry.imp (fun k => ⟨k.1, k.2, k.3, k.4, k.5, k.6, k.7⟩) .inr
  | waitTurn _ _ _ hm => exact hm.geometry.imp (fun k => ⟨k.1, k.2, k.3, k.4, k.5, k.6, k.7⟩) .inr
  | regRead _ _ _ _ _ _ ht => exact .inl (.ofRegs (ht ▸ rfl))
  | waitOver _ _ _ ht => exact .inl (.ofRegs (ht ▸ rfl))
  | memWrite _ _ _ _ _ ht => exact .inl (.ofRegs (ht ▸ rfl))
  | memRead _ _ _ _ ht => exact .inl (.ofRegs (by rw [ht]; split <;> rfl))
  | hardReset _ _ ht => exact .inr (.inl (ht ▸ rfl))
  | regWrite _ _ w rest r _ _ ht =>
    subst ht
    exact (hostWrite_geometry { s with host := rest } r w).imp (fun k => ⟨k.1, k.2, k.3, k.4, k.5, k.6, k.7⟩) .inl

/-- Settles O9: the geometry stays, or VALID is 0, or a GEOM completed that found it fresh. -/
theorem validGeometryStaysFresh : Obligations.ValidGeometryStaysFresh := by
  intro s t _ h
  rcases step_geometry h with same | invalid | ⟨hp, fresh⟩
  · exact ⟨fun _ hf hv => same.fresh (hf (same.variant ▸ hv)), fun h0 h1 => by simp [same.variant, h0] at h1⟩
  · exact ⟨fun _ _ hv => by simp [invalid] at hv, fun _ hv => by simp [invalid] at hv⟩
  · exact ⟨fun hs _ hv => fresh (hs hp) hv, fun _ _ => hp⟩

/-! ## What one step runs -/

/-- The engine's turn with a command pending and no decode under way is exec of that command (60_exceptions.md R117). -/
theorem engineStep_command {s : State} {w : Word} (hp : s.pending = some w) (hd : s.dec = none) :
    engineStep s = exec (decodeCommand w) s := by
  simp only [engineStep, hp, hd]

theorem engineStep_idle {s : State} (hp : s.pending = none) : engineStep s = .next s := by
  simp only [engineStep, hp]

theorem engineStep_decode {s : State} {w : Word} {c : Cursor} (hp : s.pending = some w) (hd : s.dec = some c) :
    engineStep s = tokenStep s c := by
  simp only [engineStep, hp, hd]

theorem step_noEvent {s : State} (h : s.host = []) : step s = engineStep s := by
  simp only [step, h]

theorem step_event {s : State} {e : HostEvent} {rest : List HostEvent} (h : s.host = e :: rest) :
    step s = hostStep e rest s := by
  simp only [step, h]

/-- Settles O10, by the event at the head of the list. -/
theorem stepRunsThePendingCommand : Obligations.StepRunsThePendingCommand := by
  refine ⟨fun s w hp hd => ⟨fun hh => ?_, fun rest hh => ?_⟩, fun s hh hp => ?_, fun s e rest s' hh hs' => ?_⟩
  · rw [step_noEvent hh, engineStep_command hp hd]
  · rw [step_event hh]
    exact engineStep_command (s := { s with host := rest }) hp hd
  · rw [step_noEvent hh, engineStep_idle hp]
  · subst hs'
    rw [step_event hh]
    refine ⟨fun he hp => ?_, fun _ _ _ he => he ▸ rfl, fun _ _ he => he ▸ rfl, fun _ _ he => he ▸ rfl,
      fun _ he => he ▸ rfl, fun he => he ▸ rfl, fun he => ⟨fun hd => ?_, fun hd => ⟨fun hp => ?_, fun w hp hdec => ?_⟩⟩⟩
    · subst he
      exact engineStep_idle (s := { s with host := rest }) hp
    all_goals
      subst he
      simp only [hostStep, waitStep, hd, if_true, Bool.false_eq_true, if_false]
    · exact engineStep_idle hp
    · exact engineStep_command hp hdec

/-- A token that the bytes of the input region decode to lies in the first two of them (30_encoding.md R58). -/
theorem decodeToken_take_two {l rest : List Byte} {i : Instr} (h : decodeToken l = .ok (i, rest)) :
    ∃ rest', decodeToken (l.take 2) = .ok (i, rest') := by
  obtain ⟨hw, head, he, rfl⟩ := encode_decodeToken h
  obtain ⟨tail, ht⟩ : ∃ tail, (head ++ rest).take 2 = head ++ tail := by
    refine ⟨rest.take (2 - head.length), ?_⟩
    rw [List.take_append, List.take_of_length_le]
    cases i with
    | rleRun | rleEscapedLiteral | rleLiteral =>
      cases he
      simp
    | _ => cases he
  exact ⟨tail, ht ▸ decodeToken_encode hw he tail⟩

/-- The token that RLED fetches is the one all bytes from the input offset on decode to. -/
theorem fetchToken_eq {s : State} {ip : Nat} {i : Instr} {rest : List Byte}
    (h : decodeToken (srcBytes s ip (s.regs.srcLen.toNat - ip)) = .ok (i, rest)) : fetchToken s ip = .ok i := by
  obtain ⟨rest', h'⟩ := decodeToken_take_two h
  have bytes : (srcBytes s ip (s.regs.srcLen.toNat - ip)).take 2 = srcBytes s ip (min (s.regs.srcLen.toNat - ip) 2) := by
    rw [srcBytes, ← List.map_take, List.take_range, Nat.min_comm, srcBytes]
  rw [bytes] at h'
  simp only [fetchToken, h']

/-- Settles O11: with a line still to produce the token machine runs the token it fetches. -/
theorem stepRunsTheBodyToken : Obligations.StepRunsTheBodyToken := by
  intro s c w i rest hp hd hh hl ht
  have more : ¬ decodeDone s c = true := by simp [decodeDone, storedLines, hl]
  rw [step_noEvent hh, engineStep_decode hp hd, tokenStep, if_neg more, fetchToken_eq ht]

end Sys2Proof.Machine
end

section
/-! PROOFS. Host accesses: the fields of the words read, and what a write changes. -/

namespace Sys2Proof.Machine

/-! ## Fields of the words read -/

/-- A field reads back at its own place. -/
theorem extractLsb'_field {n k : Nat} (x : BitVec n) (h : k + n ≤ 32) :
    (x.setWidth 32 <<< k).extractLsb' k n = x := by
  apply BitVec.eq_of_getLsbD_eq
  intro j hj
  have hin : k + j < 32 := by omega
  simp [hj, hin]

/-- A field is 0 at a place that it does not share. -/
theorem extractLsb'_field_apart {m k : Nat} (x : BitVec m) {j n : Nat} (h : j + m ≤ k ∨ k + n ≤ j) :
    (x.setWidth 32 <<< j).extractLsb' k n = 0#n := by
  apply BitVec.eq_of_getLsbD_eq
  intro i hi
  rcases h with h | h
  · simp [BitVec.getLsbD_of_ge x (k + i - j) (by omega)]
  · simp [show k + i < j by omega]

theorem extractLsb'_low_field {n : Nat} (x : BitVec n) (h : n ≤ 32) : (x.setWidth 32).extractLsb' 0 n = x := by
  simpa using extractLsb'_field (k := 0) x (by omega)

theorem extractLsb'_low_field_apart {m k : Nat} (x : BitVec m) {n : Nat} (h : m ≤ k) :
    (x.setWidth 32).extractLsb' k n = 0#n := by
  simpa using extractLsb'_field_apart (j := 0) (n := n) x (.inl (by omega : 0 + m ≤ k))

theorem extractLsb'_flagBit_apart (b : Bool) {j k n : Nat} (h : j + 1 ≤ k ∨ k + n ≤ j) :
    (flagBit b j).extractLsb' k n = 0#n := by
  cases b with
  | false => simp [flagBit]
  | true => simpa [flagBit] using extractLsb'_field_apart 1#1 h

theorem readReg_status_errCode (s : State) : (readReg s .status).extractLsb' 8 8 = s.regs.status.errCode := by
  simp only [readReg, statusWord, BitVec.extractLsb'_or]
  rw [extractLsb'_flagBit_apart _ (by decide), extractLsb'_flagBit_apart _ (by decide),
    extractLsb'_flagBit_apart _ (by decide), extractLsb'_flagBit_apart _ (by decide), extractLsb'_field _ (by decide),
    extractLsb'_field_apart _ (by decide)]
  simp

theorem readReg_status_lastOp (s : State) : (readReg s .status).extractLsb' 16 8 = s.regs.status.lastOp := by
  simp only [readReg, statusWord, BitVec.extractLsb'_or]
  rw [extractLsb'_flagBit_apart _ (by decide), extractLsb'_flagBit_apart _ (by decide),
    extractLsb'_flagBit_apart _ (by decide), extractLsb'_flagBit_apart _ (by decide),
    extractLsb'_field_apart _ (by decide), extractLsb'_field _ (by decide)]
  simp

theorem readReg_variant_code (s : State) :
    (readReg s .variant).extractLsb' 0 4 = variantCode s.regs.variant.code := by
  simp only [readReg, variantWord, BitVec.extractLsb'_or]
  rw [extractLsb'_low_field _ (by decide), extractLsb'_flagBit_apart _ (by decide),
    extractLsb'_flagBit_apart _ (by decide)]
  simp

theorem readReg_palctl_palLen (s : State) : (readReg s .palctl).extractLsb' 0 9 = s.regs.palctl.palLen := by
  simp only [readReg, palctlWord, BitVec.extractLsb'_or]
  rw [extractLsb'_low_field _ (by decide), extractLsb'_field_apart _ (by decide),
    extractLsb'_flagBit_apart _ (by decide)]
  simp

theorem readReg_palctl_path (s : State) : (readReg s .palctl).extractLsb' 16 3 = pathCode s.regs.palctl.path := by
  simp only [readReg, palctlWord, BitVec.extractLsb'_or]
  rw [extractLsb'_low_field_apart _ (by decide), extractLsb'_field _ (by decide),
    extractLsb'_flagBit_apart _ (by decide)]
  simp

theorem readReg_cgadesc_bg (s : State) : (readReg s .cgadesc).extractLsb' 0 4 = s.regs.cgadesc.bg := by
  simp only [readReg, cgadescWord, BitVec.extractLsb'_or]
  rw [extractLsb'_low_field _ (by decide), extractLsb'_flagBit_apart _ (by decide),
    extractLsb'_flagBit_apart _ (by decide), extractLsb'_flagBit_apart _ (by decide)]
  simp

/-- Settles O16: each field reads back at its place, where every other field of its word is 0. -/
theorem registerWordsHoldTheirFields : Obligations.RegisterWordsHoldTheirFields := by
  intro s
  refine ⟨⟨?_, readReg_status_done s, ?_, ?_, readReg_status_errCode s, readReg_status_lastOp s⟩,
    ⟨readReg_ctrl_irqEn s, ?_⟩, ⟨readReg_variant_code s, ?_, ?_⟩, ⟨readReg_palctl_palLen s, readReg_palctl_path s, ?_⟩,
    readReg_cgadesc_bg s, ?_, ?_, ?_⟩ <;> simp [readReg, statusWord, variantWord, palctlWord, cgadescWord]

/-! ## Reads -/

/-- Settles O18: a read of a word of the window is `hostRead`. -/
theorem readsHaveNoSideEffect : Obligations.ReadsHaveNoSideEffect := by
  intro s k r hk
  have access : regOfAccess s.cfg (s.cfg.regBase + 4 * k) 32 = some r := (regOfAccess_word s.cfg k).trans hk
  exact ⟨hostRead s r, by simp only [busRead, access], rfl, rfl, rfl, rfl, rfl, rfl, rfl, rfl⟩

/-! ## What a written register reads as -/

/-- A word stored in a field at the low end of a register reads back under the field's mask. -/
theorem setWidth_store {n : Nat} (w : Word) {m : Word} (h : ∀ j < 32, m.getLsbD j = decide (j < n)) :
    (w.setWidth n).setWidth 32 = w &&& m := by
  apply BitVec.eq_of_getLsbD_eq
  intro j hj
  rw [BitVec.getLsbD_setWidth, BitVec.getLsbD_setWidth, BitVec.getLsbD_and, h j hj, decide_eq_true hj, Bool.true_and,
    Bool.and_comm]

/-- The bits of CGADESC that a write stores read back (10_state.md R29). -/
theorem cgadescWord_write (w : Word) : cgadescWord (cgadescWrite w) = w &&& 0x0000007F#32 := by
  have low : (w.extractLsb' 0 4).setWidth 32 = w &&& 0x0000000F#32 := by
    rw [show w.extractLsb' 0 4 = w.setWidth 4 from BitVec.eq_of_toNat_eq (by simp)]
    exact setWidth_store w (by decide)
  have flag (k : Nat) : flagBit (w.getLsbD k) k = w &&& 1#32 <<< k := by
    apply BitVec.eq_of_getLsbD_eq
    intro j hj
    by_cases h : j = k
    · subst h
      simp [hj]
    · have : ¬ (k ≤ j ∧ j - k = 0) := by omega
      simp [hj, h]
      omega
  simp only [cgadescWord, cgadescWrite, low, flag, ← BitVec.and_or_distrib_left]
  rfl

/-- The registers whose RW bits are all the bits that their field table does not mark 0. -/
theorem writableBits_eq_not_zeroBits {r : Reg} (h : writableBits r ≠ 0#32) (hp : r ≠ .palctl) (hc : r ≠ .ctrl) :
    writableBits r = ~~~zeroBits r := by
  cases r with
  | palctl => exact absurd rfl hp
  | ctrl => exact absurd rfl hc
  | cmd | status | bpl | variant | result | errInfo | reserved => exact absurd rfl h
  | hpal k => exact show 0xFFFFFFFF#32 = ~~~0x00000000#32 by decide
  | palram i => exact show 0x00FFFFFF#32 = ~~~0xFF000000#32 by decide
  | _ => decide

/-- The register an idle write stores into reads as the word under its RW bits. -/
theorem readReg_writeReg_same (s : State) {r : Reg} (h : writableBits r ≠ 0#32) (hp : r ≠ .palctl) (hc : r ≠ .ctrl)
    (w : Word) : readReg (writeReg s r w) r = w &&& writableBits r := by
  cases r with
  | palctl => exact absurd rfl hp
  | ctrl => exact absurd rfl hc
  | cmd | status | bpl | variant | result | errInfo | reserved => exact absurd rfl h
  | srcAddr | srcLen | dstAddr | dstCap => exact (BitVec.and_allOnes (x := w)).symm
  | hpal k => simpa [readReg, writeReg, writableBits] using (BitVec.and_allOnes (x := w)).symm
  | cgadesc => exact cgadescWord_write w
  | palram i =>
    rw [readReg, palRead_holdsColour (c := w.setWidth 24) ⟨i.isLt, by simp [writeReg]⟩]
    exact setWidth_store (m := 0x00FFFFFF#32) w (by decide)
  | width | height | bpp | nplanes | bplo | version => exact setWidth_store w (by decide)

/-- A write leaves every register that it does not store into, VALID apart. -/
theorem readReg_writeReg_other (s : State) {r q : Reg} (hr : r ∉ [Reg.cmd, .status, .ctrl]) (hq : q ≠ r)
    (hv : q = .variant → r ∉ geometryInputs) (w : Word) : readReg (writeReg s r w) q = readReg s q := by
  cases r with
  | cmd | status | ctrl => simp at hr
  | bpl | variant | result | errInfo | reserved => rfl
  | hpal i =>
    cases q with
    | hpal j =>
      have hij : i.val ≠ j.val := fun h => hq (by rw [Fin.ext h])
      simp [readReg, writeReg, hij]
    | _ => rfl
  | palram i =>
    cases q with
    | palram j =>
      have hij : i.val ≠ j.val := fun h => hq (by rw [Fin.ext h])
      simp [readReg, writeReg, palRead, hij]
    | _ => rfl
  | width | height | bpp | nplanes | bplo =>
    cases q with
    | variant => exact absurd (by decide) (hv rfl)
    | width | height | bpp | nplanes | bplo => first | rfl | exact absurd rfl hq
    | _ => rfl
  | _ =>
    cases q with
    | srcAddr | srcLen | dstAddr | dstCap | version | palctl | cgadesc => first | rfl | exact absurd rfl hq
    | _ => rfl

/-- VARIANT with VALID cleared reads with bit 31 clear (10_state.md R23, R25). -/
theorem variantWord_invalidate (v : VariantReg) : variantWord (invalidate v) = variantWord v &&& 0x7FFFFFFF#32 := by
  obtain ⟨c, n, b⟩ := v
  cases c <;> cases n <;> cases b <;> rfl

theorem writeReg_variant (s : State) {r : Reg} (h : r ∈ geometryInputs) (w : Word) :
    (writeReg s r w).regs.variant = invalidate s.regs.variant := by
  cases r with
  | width | height | bpp | nplanes | bplo => rfl
  | _ => simp [geometryInputs] at h

/-- A write to a register other than CMD, STATUS and CTRL touches registers and PALRAM alone. -/
theorem writeReg_frame (s : State) {r : Reg} (hr : r ∉ [Reg.cmd, .status, .ctrl]) (w : Word) :
    (writeReg s r w).pending = s.pending ∧ (writeReg s r w).mem = s.mem ∧ (writeReg s r w).race = s.race := by
  cases r with
  | cmd | status | ctrl => simp at hr
  | _ => exact ⟨rfl, rfl, rfl⟩

/-- Settles O19: the RW bits of the written register hold the word; its other bits are 0, or it is not stored into. -/
theorem hostWriteChangesOnlyItsRegister : Obligations.HostWriteChangesOnlyItsRegister := by
  refine ⟨fun s r w hb hr => ?_, fun s w hw => by rw [hostWrite_ctrl, writeCtrl, hw]; rfl⟩
  obtain ⟨hpend, hmem, hrace⟩ := writeReg_frame s hr w
  rw [hostWrite_idle hb]
  refine ⟨fun hp => ?_, fun q hq => ?_, hpend, hmem, hrace, writeReg_cfg s r w⟩
  · have hc : r ≠ .ctrl := fun h => hr (by simp [h])
    by_cases hz : writableBits r = 0#32
    · have ro : writeReg s r w = s := by
        cases r with
        | cmd | status => simp at hr
        | bpl | variant | result | errInfo | reserved => rfl
        | _ =>
          simp only [writableBits] at hz
          cases hz
      rw [ro, hz, BitVec.and_zero, BitVec.or_zero, BitVec.not_zero, BitVec.and_allOnes]
    · have bits : ~~~writableBits r = zeroBits r := by rw [writableBits_eq_not_zeroBits hz hp hc, BitVec.not_not]
      rw [readReg_writeReg_same s hz hp hc, bits, readReg_and_zeroBits, BitVec.zero_or]
  · split
    next h =>
      obtain ⟨rfl, hg⟩ := h
      rw [readReg, writeReg_variant s hg, variantWord_invalidate, readReg]
    next h => exact readReg_writeReg_other s hr hq (fun hv hg => h ⟨hv, hg⟩) w

/-! ## Registers with a rule of their own -/

/-- Settles O20: an idle write to CMD is `issueCommand`. -/
theorem cmdWriteStartsACommand : Obligations.CmdWriteStartsACommand := by
  intro s w hb
  rw [hostWrite_idle hb]
  exact ⟨rfl, rfl, rfl, rfl, rfl, rfl, rfl, rfl⟩

/-- Settles O22: the five inputs clear VALID, VERSION does not. -/
theorem geometryWriteClearsValid : Obligations.GeometryWriteClearsValid := by
  refine ⟨fun s w r hb hr => ?_, fun s w hb => ?_⟩
  · rw [hostWrite_idle hb]
    exact writeReg_variant s hr w
  · rw [hostWrite_idle hb]
    rfl

theorem clampPalLen_toNat (n : BitVec 9) : (clampPalLen n).toNat = min n.toNat 256 := by
  unfold clampPalLen
  split <;> bv_omega

/-- Path 7 is stored as 0 (10_state.md R28). -/
theorem pathCode_pathOfCode (c : BitVec 3) : pathCode (pathOfCode c) = if c = 7#3 then 0#3 else c := by
  revert c
  decide

/-- Settles O23: what `palctlWrite` stores, read back through PALCTL's fields. -/
theorem palctlWriteStoresLegalValues : Obligations.PalctlWriteStoresLegalValues := by
  intro s w hb
  rw [hostWrite_idle hb]
  exact ⟨clampPalLen_toNat _, (readReg_palctl_path _).trans (pathCode_pathOfCode _), rfl, rfl, rfl, rfl⟩

/-- Settles O24: byte k of the region is in word k div 4. -/
theorem hpalBytesAreLittleEndian : Obligations.HpalBytesAreLittleEndian := by
  intro s j w k hb hk
  rw [hostWrite_idle hb]
  have word : (s.regs.hpal.set j.val w)[k / 4]? = if k / 4 = j.val then some w else s.regs.hpal[k / 4]? := by
    rw [Vector.getElem?_set, eq_comm]
    simp [eq_comm]
  show (((s.regs.hpal.set j.val w)[k / 4]?).getD 0#32).extractLsb' _ 8 = _
  rw [word]
  split <;> rfl

end Sys2Proof.Machine
end

section
/-! PROOFS. Completion and errors: the bookkeeping of every command, what it may write, and the errors of its checks. -/

namespace Sys2Proof.Machine

/-! ## Every command completes -/

theorem exec_completion {i : Instr} (s : State) (hi : i.isCommand = true) :
    ∃ t, exec i s = .next t ∧ Completion i s (perform i s) t :=
  ⟨_, exec_command s hi, complete_completion (perform_outcome s hi)⟩

/-- The completion of a command that has gone on. -/
theorem completion_of_exec {i : Instr} {s t : State} (hi : i.isCommand = true) (h : exec i s = .next t) :
    Completion i s (perform i s) t := by
  obtain ⟨u, hu, hc⟩ := exec_completion s hi
  cases h.symm.trans hu
  exact hc

/-- LASTOP is bits 7:0 of the command word (60_exceptions.md R117). -/
theorem opcode_eq (i : Instr) : opcode i = (commandWord i).extractLsb' 0 8 :=
  BitVec.eq_of_toNat_eq (by simp [opcode])

theorem errCode_ne_zero (k : ErrKind) : errCode k ≠ 0x00#8 := by
  cases k <;> decide

/-- Settles O29: the completion of the rule's outcome, whichever it is. -/
theorem everyCommandCompletes : Obligations.EveryCommandCompletes := by
  intro s i hi
  obtain ⟨t, he, hc⟩ := exec_completion s hi
  have ho := perform_outcome s hi
  refine ⟨t, he, hc.pending, (busy_eq_false t).2 hc.pending, hc.done, hc.hzd, hc.lastOp.trans (opcode_eq i), fun h0 => ?_,
    fun h1 => ?_⟩
  · cases hp : perform i s with
    | ok u => exact (hc.ok u hp).2
    | error e => simp [(hc.error e hp).1] at h0
  · cases hp : perform i s with
    | ok u => simp [(hc.ok u hp).1] at h1
    | error e =>
      rw [(hc.error e hp).2.1]
      rw [hp] at ho
      exact ⟨errCode_produced ho, errCode_ne_zero e.kind⟩

/-- Settles O31: the bytes a command may change lie in its output region. -/
theorem engineWritesOnlyItsOutputRegion : Obligations.EngineWritesOnlyItsOutputRegion := by
  intro s i t hi he
  have hc := completion_of_exec hi he
  refine ⟨fun a ha hr => hc.outside a ?_ hr, fun hn hr a => by rw [hc.noOutput hn hr]⟩
  have := outRoom_le s
  omega

/-! ## NotConfigured -/

theorem checkValid_invalid {s : State} (h : s.regs.variant.valid = false) : checkValid s = some ⟨.notConfigured, 0⟩ := by
  simp [checkValid, h]

/-- With VALID = 0 the rule of every command but NOP and GEOM raises NotConfigured first (60_exceptions.md R118). -/
theorem perform_unconfigured {s : State} {i : Instr}
    (hi : i ∈ [Instr.palres, .rled, .rlee, .rleeb, .pxdec, .pxenc, .palser]) (h : s.regs.variant.valid = false) :
    perform i s = .error ⟨.notConfigured, 0⟩ := by
  have hv := checkValid_invalid h
  have hb : checkBoth s = some ⟨.notConfigured, 0⟩ := by rw [checkBoth, hv, Option.some_or]
  cases i with
  | palres => simp only [perform, performPalres, hv]
  | palser => simp only [perform, performPalser, hv, Option.some_or]
  | rled | rlee | rleeb | pxdec | pxenc => exact perform_of_checkBoth rfl rfl hb
  | _ => simp at hi

/-- Settles O32: the check comes first, and only GEOM's completion touches VARIANT. -/
theorem unconfiguredCommandsRaiseNotConfigured : Obligations.UnconfiguredCommandsRaiseNotConfigured := by
  refine ⟨fun s i hi hv hu => ?_, fun s i t hg he => ?_⟩
  · have hc : i.isCommand = true := by
      clear hu
      revert i
      decide
    exact exec_error_undisturbed hc hu (perform_unconfigured hi hv)
  · cases hi : i.isCommand with
    | true => rw [((completion_of_exec hi he).geometry hg).variant]
    | false =>
      obtain ⟨c, len, n, v, -, rfl⟩ := exec_token hi he
      rfl

/-! ## Sizes -/

section
variable {s : State} (hr : Ready s)
include hr

theorem perform_rled_small (h : s.regs.dstCap.toNat < bitmapSize s.regs) :
    perform .rled s = .error ⟨.destOverflow, bitmapSize s.regs⟩ := by
  simp only [perform, performRled, (checkBoth_eq_none s).2 hr]
  exact if_pos h

theorem perform_rlee_short (h : s.regs.srcLen.toNat < s.regs.bpl.toNat) :
    perform .rlee s = .error ⟨.inputExhausted, s.regs.bpl.toNat⟩ := by
  simp only [perform, performRlee, (checkBoth_eq_none s).2 hr]
  exact if_pos h

theorem perform_rleeb_short (h : s.regs.srcLen.toNat < bitmapSize s.regs) :
    perform .rleeb s = .error ⟨.inputExhausted, bitmapSize s.regs⟩ := by
  simp only [perform, performRleeb, (checkBoth_eq_none s).2 hr]
  exact if_pos h

theorem perform_pxdec_short (h : s.regs.srcLen.toNat < bitmapSize s.regs) :
    perform .pxdec s = .error ⟨.inputExhausted, bitmapSize s.regs⟩ := by
  simp only [perform, performPxdec, (checkBoth_eq_none s).2 hr, if_pos h]

theorem perform_pxdec_small (h : bitmapSize s.regs ≤ s.regs.srcLen.toNat)
    (h' : s.regs.dstCap.toNat < pixelBufferSize s.regs) :
    perform .pxdec s = .error ⟨.destOverflow, pixelBufferSize s.regs⟩ := by
  simp only [perform, performPxdec, (checkBoth_eq_none s).2 hr, if_neg (Nat.not_lt.2 h), if_pos h']

theorem perform_pxenc_short (h : s.regs.srcLen.toNat < pixelBufferSize s.regs) :
    perform .pxenc s = .error ⟨.inputExhausted, pixelBufferSize s.regs⟩ := by
  simp only [perform, performPxenc, (checkBoth_eq_none s).2 hr, if_pos h]

theorem perform_pxenc_small (h : pixelBufferSize s.regs ≤ s.regs.srcLen.toNat)
    (h' : s.regs.dstCap.toNat < bitmapSize s.regs) :
    perform .pxenc s = .error ⟨.destOverflow, bitmapSize s.regs⟩ := by
  simp only [perform, performPxenc, (checkBoth_eq_none s).2 hr, if_neg (Nat.not_lt.2 h), if_pos h']

end

theorem perform_palser_small {s : State} (hv : s.regs.variant.valid = true)
    (ho : s.regs.dstAddr.toNat + s.regs.dstCap.toNat ≤ s.addrTop) (h : s.regs.dstCap.toNat < palserSize s) :
    perform .palser s = .error ⟨.destOverflow, palserSize s⟩ := by
  simp only [perform, performPalser, (checkValid_eq_none s).2 hv, (checkOutput_eq_none s).2 ho, Option.or_none, if_pos h]

/-- Settles O34: the size checks of each rule in their order. -/
theorem sizeChecksRaiseTheirErrors : Obligations.SizeChecksRaiseTheirErrors := by
  rintro s _ _ rfl rfl
  refine ⟨fun hr => ⟨fun hu h => ?_, fun hu h => ?_, fun hu h => ?_, fun hu => ⟨fun h => ?_, fun h h' => ?_⟩,
    fun hu => ⟨fun h => ?_, fun h h' => ?_⟩⟩, ?_⟩
  · exact exec_error_undisturbed rfl hu (perform_rled_small hr h)
  · exact exec_error_undisturbed rfl hu (perform_rlee_short hr h)
  · exact exec_error_undisturbed rfl hu (perform_rleeb_short hr h)
  · exact exec_error_undisturbed rfl hu (perform_pxdec_short hr h)
  · exact exec_error_undisturbed rfl hu (perform_pxdec_small hr h h')
  · exact exec_error_undisturbed rfl hu (perform_pxenc_short hr h)
  · exact exec_error_undisturbed rfl hu (perform_pxenc_small hr h h')
  · rintro n hn hv ho hu h
    obtain rfl : n = palserSize s := hn
    exact exec_error_undisturbed rfl hu (perform_palser_small hv ho h)

/-! ## The illegal command -/

/-- Settles O36: the rule of the illegal row raises IllegalCommand with the whole word. -/
theorem illegalCommandReportsItsWord : Obligations.IllegalCommandReportsItsWord := by
  intro s w hw hu
  have illegal : 8 < w.toNat := by simpa [legalCommand] using hw
  obtain ⟨t, he, hc, hl⟩ := exec_error_undisturbed (i := .illegal w) (e := ⟨.illegalCommand, w.toNat⟩) rfl hu rfl
  rw [decodeCommand_illegal illegal]
  refine ⟨t, he, hc, by rw [hc.status]; rfl, ?_, ?_, hl.inputs, hl.geometry (by simp), hl.palette, hl.noOutput rfl⟩
  · rw [hc.status]
    exact opcode_eq (.illegal w)
  · rw [hc.errInfo w.isLt, BitVec.ofNat_toNat, BitVec.setWidth_eq]

/-! ## The geometries GEOM refuses -/

/-- Where the pair is in no row of the table GEOM raises UnsupportedFormat, whatever the sizes (43_geometry.md R89, R94). -/
theorem performGeom_unsupported {s : State} (h : varsel s.regs.bpp s.regs.nplanes = none) :
    performGeom s = .error ⟨.unsupportedFormat, s.regs.bpp.toNat + 256 * s.regs.nplanes.toNat⟩ := by
  have pair : s.regs.bpp.toNat ||| s.regs.nplanes.toNat <<< 8 = s.regs.bpp.toNat + 256 * s.regs.nplanes.toNat := by
    rw [Nat.or_comm, ← Nat.shiftLeft_add_eq_or_of_lt s.regs.bpp.isLt, Nat.shiftLeft_eq]
    omega
  simp only [performGeom, h, pair]

theorem performGeom_empty {s : State} {v : Variant} (hv : varsel s.regs.bpp s.regs.nplanes = some v)
    (h : s.regs.width.toNat = 0 ∨ s.regs.height.toNat = 0) : performGeom s = .error ⟨.geometryUnsupported, 0⟩ := by
  have image : s.regs.width = 0#16 ∨ s.regs.height = 0#16 := by bv_omega
  simp only [performGeom, hv, if_pos image]

theorem performGeom_slack {s : State} {v : Variant} {d : Int} (hv : varsel s.regs.bpp s.regs.nplanes = some v)
    (hw : s.regs.width.toNat ≠ 0) (hh : s.regs.height.toNat ≠ 0)
    (hd : d = lineSlack s.regs.bplo (bytesPerLine s.regs.width s.regs.bpp)) (h0 : d ≠ 0) (h1 : d ≠ 1) :
    performGeom s = .error ⟨.geometryUnsupported, (d % 2 ^ 32).toNat⟩ := by
  have image : ¬ (s.regs.width = 0#16 ∨ s.regs.height = 0#16) := by bv_omega
  simp only [performGeom, hv, if_neg image, ← hd]
  exact if_pos ⟨h0, h1⟩

/-- ERRINFO holds a signed difference in two's complement (43_geometry.md R94). -/
theorem ofNat_emod_two_pow (d : Int) : BitVec.ofNat 32 (d % 2 ^ 32).toNat = BitVec.ofInt 32 d := by
  apply BitVec.eq_of_toNat_eq
  rw [BitVec.toNat_ofInt, BitVec.toNat_ofNat]
  omega

/-- Settles O38: the checks of GEOM's rule in their order. -/
theorem geomRefusesOtherGeometries : Obligations.GeomRefusesOtherGeometries := by
  refine fun s hu => ⟨fun h => ?_, fun v hrow => ⟨fun h => ?_, fun hw hh d hd h0 h1 => ?_⟩⟩
  · have none : varsel s.regs.bpp s.regs.nplanes = none :=
      Option.eq_none_iff_forall_ne_some.2 fun v hv => h v ((varsel_eq_some_iff _ _ _).1 hv)
    exact exec_error_undisturbed (i := .geom) rfl hu (performGeom_unsupported none)
  · exact exec_error_undisturbed (i := .geom) rfl hu (performGeom_empty ((varsel_eq_some_iff _ _ _).2 hrow) h)
  · obtain ⟨t, he, hc, hl⟩ := exec_error_undisturbed (i := .geom) rfl hu
      (performGeom_slack ((varsel_eq_some_iff _ _ _).2 hrow) hw hh hd h0 h1)
    have fits : (d % 2 ^ 32).toNat < 2 ^ 32 := by omega
    exact ⟨t, he, hc, (hc.errInfo fits).trans (ofNat_emod_two_pow d), hl⟩

/-! ## Hazards -/

/-- Settles O26: the hazard of a busy-time write, what spoils a command, and the completion of a spoiled one. -/
theorem busyWriteIsAHazard : Obligations.BusyWriteIsAHazard := by
  refine ⟨fun s r w hb hc hr => ?_, spoiled_iff, fun s i hi hs => ?_⟩
  · rw [hostWrite_busy hb hc hr]
    exact ⟨rfl, rfl, rfl, rfl, rfl⟩
  · obtain ⟨t, u, oc, he, ht, hc, -, -, hpal, hcga, hread⟩ := exec_spoiled hi hs
    refine ⟨t, he, hc.pending, hc.done, hc.hzd, hc.lastOp, by rw [ht]; rfl, fun a ha => ?_, hc.inputs, hc.geometry,
      hc.palette, fun hg => ?_, fun hp => ?_⟩
    · rw [hread a]
      simp [ha]
    · subst hg
      rw [ht]
      exact ⟨rfl, rfl⟩
    · subst hp
      rw [ht]
      refine ⟨fun k h => (palramWrite_get _ _ _ k h).trans ?_, rfl, ?_⟩
      · split
        · rfl
        · exact hpal k h (by omega)
      · show (if s.regs.variant.code = .v2x1 then _ else u.regs.cgadesc) = _
        split
        · rfl
        · exact hcga ‹_›

/-! ## Races -/

theorem memAccess_inside {s : State} {a : Nat} (ha : a < s.addrTop) (hd : s.isDevice a = false) (t : State) :
    memAccess s a t = .next t := by
  simp [memAccess, ha, hd]

theorem memAccess_device {s : State} {a : Nat} (ha : a < s.addrTop) (hd : s.isDevice a = true) (t : State) :
    memAccess s a t = .refused .deviceAccess := by
  simp [memAccess, ha, hd]

theorem memAccess_outside {s : State} {a : Nat} (ha : s.addrTop ≤ a) (t : State) :
    memAccess s a t = .fault .noSuchAddress :=
  if_neg (Nat.not_lt.2 ha)

/-- The address is a race with the input region of the pending command exactly when the command uses a region that holds
it; so for the output region. -/
theorem racesInput_pending {s : State} {w : Word} (h : s.pending = some w) (a : Nat) :
    racesInput s a = true ↔ usesInput (decodeCommand w) s = true ∧ s.input.holds a = true := by
  simp [racesInput, h]

theorem racesOutput_pending {s : State} {w : Word} (h : s.pending = some w) (a : Nat) :
    racesOutput s a = true ↔ usesOutput (decodeCommand w) = true ∧ s.output.holds a = true := by
  simp [racesOutput, h]

/-- An access that no region of a pending command holds is no race. -/
theorem racesInput_eq_false {s : State} {a : Nat}
    (h : ∀ w, s.pending = some w → ¬(usesInput (decodeCommand w) s = true ∧ s.input.holds a = true)) :
    racesInput s a = false := by
  cases hp : s.pending with
  | none => exact racesInput_idle hp a
  | some w => exact Bool.eq_false_iff.2 (mt (racesInput_pending hp a).1 (h w hp))

theorem racesOutput_eq_false {s : State} {a : Nat}
    (h : ∀ w, s.pending = some w → ¬(usesOutput (decodeCommand w) = true ∧ s.output.holds a = true)) :
    racesOutput s a = false := by
  cases hp : s.pending with
  | none => exact racesOutput_idle hp a
  | some w => exact Bool.eq_false_iff.2 (mt (racesOutput_pending hp a).1 (h w hp))

/-- A recorded input byte spoils every command. -/
theorem spoiled_of_inBytes {s : State} {a : Nat} (h : a ∈ s.race.inBytes) (i : Instr) : spoiled i s = true :=
  (spoiled_iff i s).2 (.inr (.inl ⟨a, h⟩))

/-- A spoiled command leaves RESULT and the existing bytes of its output region free (70_reset_and_hazards.md R131). -/
theorem exec_spoiled_outputs {i : Instr} {s t : State} (hi : i.isCommand = true) (hs : spoiled i s = true)
    (he : exec i s = .next t) : t.regs.result = Config.free 32 .result s.draws 0
      ∧ ∀ a, usesOutput i = true → s.output.holds a = true → a < s.addrTop →
        t.mem.read a = Config.free 8 .memByte s.draws a := by
  obtain ⟨u, v, oc, hu, rfl, -, -, -, -, -, hread⟩ := exec_spoiled hi hs
  cases he.symm.trans hu
  refine ⟨rfl, fun a ho hh ha => ?_⟩
  obtain ⟨h1, h2⟩ := (Region.holds_iff _ _).1 hh
  rw [hread a, if_pos ⟨ho, h1, h2, ha⟩]

/-- A raced byte of the output region holds a free value once the command completes (20_memory.md R48). -/
theorem exec_raced_output {i : Instr} {s t : State} {a : Nat} (hi : i.isCommand = true) (ho : usesOutput i = true)
    (hh : s.output.holds a = true) (ha : a < s.addrTop) (hr : a ∈ s.race.outBytes) (he : exec i s = .next t) :
    t.mem.read a = Config.free 8 .memByte s.draws a := by
  cases hs : spoiled i s with
  | true => exact (exec_spoiled_outputs hi hs he).2 a ho hh ha
  | false =>
    rw [exec_command s hi] at he
    cases he
    cases perform i s with
    | ok u =>
      rw [complete_ok, completeOk, hs]
      exact (Memory.read_havocEach _ _ _ _).trans (if_pos hr)
    | error e =>
      obtain ⟨h1, h2⟩ := (Region.holds_iff _ _).1 hh
      rw [complete_error, completeErr, hs]
      exact (loseOutputs_read (s := s) (t := { s with regs := failedRegs i s }) a (fun _ _ => rfl) (fun _ => rfl)).trans
        (if_pos ⟨ho, h1, h2, ha⟩)

/-- Settles O27: what an access reads and records, and what a completion makes of the record. -/
theorem racesLeaveValuesUnspecified : Obligations.RacesLeaveValuesUnspecified := by
  refine ⟨fun s a v => ⟨fun ha hd => ⟨⟨_, memAccess_inside ha hd _⟩, _, memAccess_inside ha hd _⟩,
      fun ha hd => ⟨memAccess_device ha hd _, memAccess_device ha hd _⟩,
      fun ha => ⟨memAccess_outside ha _, memAccess_outside ha _⟩⟩,
    fun s a v t h => ?_, fun s a t h => ?_, fun s i t a hi ho hh ha hr he => exec_raced_output hi ho hh ha hr he,
    fun s i hi hs => ?_⟩
  · obtain ⟨ha, ht⟩ := memAccess_next h
    have recordsInput : racesInput s a = true → a ∈ t.race.inBytes := fun hr => by
      rw [ht]
      exact (if_pos hr).symm ▸ mem_addAddress.2 (.inl rfl)
    have recordsOutput : racesOutput s a = true → a ∈ t.race.outBytes := fun hr => by
      rw [ht]
      exact (if_pos hr).symm ▸ mem_addAddress.2 (.inl rfl)
    subst ht
    refine ⟨Memory.read_write_same _ _ _, fun b hb => Memory.read_write_other _ _ hb, rfl, rfl, rfl, rfl, fun none => ?_,
      fun w hw => ⟨fun hi hh => ?_, fun ho hh => recordsOutput ((racesOutput_pending hw a).2 ⟨ho, hh⟩)⟩⟩
    · simp [racesInput_eq_false fun w hw => (none w hw).1, racesOutput_eq_false fun w hw => (none w hw).2]
    · have spoils := spoiled_of_inBytes (recordsInput ((racesInput_pending hw a).2 ⟨hi, hh⟩)) (decodeCommand w)
      refine ⟨spoils, fun u hu => ?_⟩
      obtain ⟨hres, hout⟩ := exec_spoiled_outputs (decodeCommand_isCommand w) spoils hu
      exact ⟨hres, fun b ho hb => hout b ho hb⟩
  · obtain ⟨ha, rfl⟩ := memAccess_next h
    cases hr : racesOutput s a with
    | false =>
      exact ⟨rfl, rfl, rfl, rfl, rfl, fun _ => ⟨rfl, rfl⟩, fun w hw ho hh => by
        simp [(racesOutput_pending hw a).2 ⟨ho, hh⟩] at hr⟩
    | true =>
      exact ⟨rfl, rfl, rfl, rfl, rfl, fun none => by simp [racesOutput_eq_false none] at hr, fun _ _ _ _ =>
        ⟨mem_addAddress.2 (.inl rfl), rfl⟩⟩
  · obtain ⟨t, u, ht, hu, hregs, hpal, hpend, hmem⟩ := exec_withRaced [] hi hs
    exact ⟨t, u, ht, hu, hregs, hpal, hpend, fun a ha => hmem a ha List.not_mem_nil⟩

end Sys2Proof.Machine
end

section
/-! PROOFS. The palette multiplexer: PALRES on V2x1, PALSER, and the two in a row. -/

namespace Sys2Proof.Machine

/-! ## PALRES on V2x1 -/

/-- The probe finds two equal triples among the first four (42_palette_mux.md R78). -/
theorem probeDup_iff (r : Regs) :
    probeDup r = true ↔ ∃ i j, i < j ∧ j ≤ 3 ∧ hpalTriple r i = hpalTriple r j := by
  simp only [probeDup, List.any_eq_true, List.mem_range, Bool.and_eq_true, decide_eq_true_eq, beq_iff_eq]
  constructor
  · rintro ⟨i, -, j, hj, hij, h⟩
    exact ⟨i, j, hij, by omega, h⟩
  · rintro ⟨i, j, hij, hj, h⟩
    exact ⟨i, by omega, j, by omega, hij, h⟩

/-- The four entries of the CGA composite path: derived where the header's triples collide, else the triples. -/
def cgaPalette (s : State) (i : Nat) : Rgb :=
  if probeDup s.regs then cgaDerivedEntry s.cfg (cgaOfHeader s.regs) i else hpalTriple s.regs i

theorem cgaPalette_derived {s : State} (h : probeDup s.regs = true) (i : Nat) :
    cgaPalette s i = cgaDerivedEntry s.cfg (cgaOfHeader s.regs) i :=
  if_pos h

theorem cgaPalette_explicit {s : State} (h : probeDup s.regs = false) (i : Nat) : cgaPalette s i = hpalTriple s.regs i :=
  if_neg (Bool.eq_false_iff.1 h)

/-- The path taken on V2x1. -/
def cgaPath (r : Regs) : PalPath := if probeDup r then .cgaDerived else .cgaExplicit

theorem cgaPath_eq_derived {r : Regs} (h : cgaPath r = .cgaDerived) : probeDup r = true := by
  by_contra hn
  rw [cgaPath, if_neg hn] at h
  cases h

/-- On V2x1 PALRES sets the palette of the branch that the probe selects, and the descriptor on both (42_palette_mux.md R81). -/
theorem exec_palres_cga {s : State} (hu : Undisturbed .palres s) (hv : s.regs.variant.valid = true)
    (hc : s.regs.variant.code = .v2x1) : ∃ t, exec .palres s = .next t
      ∧ PaletteSet s t 4 (cgaPalette s) (cgaPath s.regs) (probeDup s.regs) (cgaOfHeader s.regs) := by
  refine exec_palres_setPalette _ hu ?_
  simp only [performPalres, (checkValid_eq_none s).2 hv, hc, palresCga, cgaPath]
  unfold cgaPalette
  cases probeDup s.regs <;> rfl

/-- An entry of CGA_TABLES, its row selected by PALNUM and INTENS (42_palette_mux.md R81). -/
theorem cgaEntry_eq (c : Config) {p i : Bool} {sel j : Nat} (hs : sel < 4) (hj : j < 3)
    (h : sel = 2 * p.toNat + i.toNat) : cgaEntry c p i j = c.cga[sel][j] := by
  simp [cgaEntry, ← h, hs, hj]

/-- Settles O40: the two branches of the CGA composite path. -/
theorem palresCgaComposite : Obligations.PalresCgaComposite := by
  intro s e hu hv hc hE
  obtain ⟨t, he, ht⟩ := exec_palres_cga hu hv hc
  have triple (i : Nat) : hpalTriple s.regs i = e i := (hE i).symm
  refine ⟨t, he, ht.completed, ht.inputs, ht.geometry, ht.memory, ?_, ht.cgadesc, by rw [ht.palctl], ht.result,
    fun hd => ?_, fun hd => ?_, ht.kept⟩
  · rw [ht.palctl, probeDup_iff]
    simp only [triple]
  all_goals
    rw [ht.palctl] at hd
    dsimp only at hd
    rw [ht.palctl]
  · refine ⟨by simp [cgaPath, hd], fun k h hk => ?_⟩
    rw [ht.written k h hk, cgaPalette_explicit hd, triple]
  · have entry (k : Nat) (h : k < 4) : t.palram[k] = .written (cgaDerivedEntry s.cfg (cgaOfHeader s.regs) k) := by
      rw [ht.written k (by omega) h, cgaPalette_derived hd]
    rw [ht.cgadesc]
    refine ⟨by simp [cgaPath, hd], fun bg h hbg => ?_, fun sel j h hj hsel => ?_⟩
    · rw [entry 0 (by decide), cgaDerivedEntry, if_pos rfl, ← hbg, egaEntry_of_lt _ h]
    · rw [entry (1 + j) (by omega), cgaDerivedEntry, if_neg (by omega), Nat.add_sub_cancel_left, cgaEntry_eq _ h hj hsel]

/-! ## PALSER -/

/-- A configured PALSER with room writes its image from the start of the output region (42_palette_mux.md R87). -/
theorem exec_palser {s : State} (hu : Undisturbed .palser s) (hv : s.regs.variant.valid = true)
    (hn : palserSize s ≤ s.regs.dstCap.toNat) (ho : s.regs.dstAddr.toNat + s.regs.dstCap.toNat ≤ s.addrTop) :
    ∃ t, exec .palser s = .next t ∧ CompletedOk .palser s t ∧ KeepsAllButOutput s t (palserSize s)
      ∧ t.regs.result = BitVec.ofNat 32 (palserSize s)
      ∧ ∀ k, k < palserSize s → outputByte t k = palserByte s k := by
  have hp : perform .palser s = .ok { s with
      mem := s.mem.fill s.regs.dstAddr.toNat (palserSize s) (palserByte s)
      regs := { s.regs with result := wordOf .result s.draws (palserSize s) } } := by
    simp only [perform, performPalser, (checkValid_eq_none s).2 hv, (checkOutput_eq_none s).2 ho, Option.or_none,
      if_neg (Nat.not_lt.2 hn)]
  obtain ⟨t, he, hc, hk, hres, hread⟩ := exec_fill rfl hu hn hp
  exact ⟨t, he, hc, hk, hres, fun k h => by rw [outputByte, hk.inputs.dstAddr, hread k h]⟩

theorem palserSize_ge (s : State) : 48 ≤ palserSize s := by
  unfold palserSize
  split <;> decide

theorem palserByte_image {s : State} {k : Nat} (h : k < 48) : palserByte s k = paletteImage s k := if_pos h

/-- The bits of the CGA flag byte (42_palette_mux.md R87). -/
theorem cgaFlagByte_fields (d : CgaDesc) : (cgaFlagByte d).getLsbD 7 = !d.burst ∧ (cgaFlagByte d).getLsbD 6 = d.palNum
    ∧ (cgaFlagByte d).getLsbD 5 = d.intens ∧ (cgaFlagByte d).extractLsb' 0 5 = 0#5 := by
  have flags : ∀ p i b, (cgaFlagByte ⟨0#4, p, i, b⟩).getLsbD 7 = !b ∧ (cgaFlagByte ⟨0#4, p, i, b⟩).getLsbD 6 = p
      ∧ (cgaFlagByte ⟨0#4, p, i, b⟩).getLsbD 5 = i ∧ (cgaFlagByte ⟨0#4, p, i, b⟩).extractLsb' 0 5 = 0#5 := by
    decide
  exact flags d.palNum d.intens d.burst

/-- The derived image (42_palette_mux.md R87). -/
theorem paletteImage_derived {s : State} (h : s.regs.palctl.path = .cgaDerived) (k : Nat) : paletteImage s k =
    if k = 0 then s.regs.cgadesc.bg.setWidth 8 <<< 4 else if k = 3 then cgaFlagByte s.regs.cgadesc else 0#8 :=
  if_pos h

/-- The literal image (42_palette_mux.md R87). -/
theorem paletteImage_literal {s : State} (h : s.regs.palctl.path ≠ .cgaDerived) (hl : s.regs.palctl.palLen.toNat ≤ 16)
    (k : Nat) : paletteImage s k =
      if k / 3 < s.regs.palctl.palLen.toNat then channel (palRead s k (k / 3)) (k % 3) else 0#8 :=
  (if_neg h).trans (if_pos hl)

theorem paletteImage_long {s : State} (h : s.regs.palctl.path ≠ .cgaDerived) (hl : 16 < s.regs.palctl.palLen.toNat)
    (k : Nat) : paletteImage s k = 0#8 :=
  (if_neg h).trans (if_neg (Nat.not_le.2 hl))

/-- Channel `j` of an active written entry `i`, in the literal image. -/
theorem paletteImage_entry {s : State} (h : s.regs.palctl.path ≠ .cgaDerived) (hl : s.regs.palctl.palLen.toNat ≤ 16)
    {i j : Nat} {c : Rgb} (hi : i < s.regs.palctl.palLen.toNat) (hc : HoldsColour s i c) (hj : j < 3) :
    paletteImage s (3 * i + j) = channel c j := by
  have hdiv : (3 * i + j) / 3 = i := by omega
  have hmod : (3 * i + j) % 3 = j := by omega
  rw [paletteImage_literal h hl, hdiv, hmod, if_pos hi, palRead_holdsColour hc]

/-- Channel `j` of a written entry `i`, in the trailer (42_palette_mux.md R87). -/
theorem palserByte_entry {s : State} {i j : Nat} {c : Rgb} (hc : HoldsColour s i c) (hj : j < 3) :
    palserByte s (49 + 3 * i + j) = channel c j := by
  have hdiv : (49 + 3 * i + j - 49) / 3 = i := by omega
  have hmod : (49 + 3 * i + j - 49) % 3 = j := by omega
  have h1 : ¬ 49 + 3 * i + j < Config.hpalLen := by unfold Config.hpalLen; omega
  have h2 : ¬ 49 + 3 * i + j = Config.hpalLen := by unfold Config.hpalLen; omega
  rw [palserByte, if_neg h1, if_neg h2, hdiv, hmod, palRead_holdsColour hc]

/-- Settles O44, by the three forms of the image and the trailer. -/
theorem palserWritesTheImage : Obligations.PalserWritesTheImage := by
  intro s n hu hv hn hcap ho
  obtain rfl : n = palserSize s := hn
  obtain ⟨t, he, hc, hk, hres, bytes⟩ := exec_palser hu hv hcap ho
  have image {k : Nat} (h : k < 48) : outputByte t k = paletteImage s k := by
    have := palserSize_ge s
    rw [bytes k (by omega), palserByte_image h]
  refine ⟨t, he, hc, hk, hres, fun hd => ?_, fun hd hl => ⟨fun i c hi hcol => ?_, fun k h1 h2 => ?_⟩, fun hd hl k h => ?_,
    fun h8 => ⟨?_, fun i c hcol => ?_⟩⟩
  · rw [image (k := 0) (by decide), image (k := 3) (by decide), paletteImage_derived hd, paletteImage_derived hd]
    obtain ⟨burst, palNum, intens, low⟩ := cgaFlagByte_fields s.regs.cgadesc
    refine ⟨rfl, burst, palNum, intens, low, fun k h h0 h3 => ?_⟩
    rw [image h, paletteImage_derived hd, if_neg h0, if_neg h3]
  · have chan {j : Nat} (hj : j < 3) : outputByte t (3 * i + j) = channel c j := by
      rw [image (by omega), paletteImage_entry hd hl hi hcol hj]
    exact ⟨chan (j := 0) (by decide), chan (j := 1) (by decide), chan (j := 2) (by decide)⟩
  · rw [image h2, paletteImage_literal hd hl, if_neg (by omega)]
  · rw [image h, paletteImage_long hd hl]
  all_goals
    have size : palserSize s = 817 := if_pos h8
  · rw [bytes 48 (by omega)]
    rfl
  · obtain ⟨hi, -⟩ := id hcol
    have chan {j : Nat} (hj : j < 3) : outputByte t (49 + 3 * i + j) = channel c j := by
      rw [bytes _ (by omega), palserByte_entry hcol hj]
    exact ⟨chan (j := 0) (by decide), chan (j := 1) (by decide), chan (j := 2) (by decide)⟩

/-! ## A CGA palette through its serialised image -/

/-- A header that holds the derived image of a descriptor gives that descriptor again (42_palette_mux.md R88; the field's place:
log 30). -/
theorem cgaOfHeader_image {r : Regs} {d : CgaDesc} (h0 : hpalByte r 0 = d.bg.setWidth 8 <<< 4)
    (h3 : hpalByte r 3 = cgaFlagByte d) : cgaOfHeader r = d := by
  obtain ⟨burst, palNum, intens, -⟩ := cgaFlagByte_fields d
  have bg : (d.bg.setWidth 8 <<< 4).extractLsb' 4 4 = d.bg := by
    apply BitVec.eq_of_getLsbD_eq
    intro j hj
    have : 4 + j < 8 := by omega
    simp [hj, this]
  rw [cgaOfHeader, h0, h3, bg, burst, palNum, intens, Bool.not_not]

/-- Such a header's triples 2 and 3 are both black, so the probe finds a duplicate. -/
theorem probeDup_image {r : Regs} (h : ∀ k, 6 ≤ k → k < 12 → hpalByte r k = 0#8) : probeDup r = true := by
  refine (probeDup_iff r).2 ⟨2, 3, by decide, by decide, ?_⟩
  simp [hpalTriple, h]

/-- The flag byte of a header's descriptor has the three flag bits of the header. -/
theorem cgaFlagByte_ofHeader (r : Regs) :
    (cgaFlagByte (cgaOfHeader r)).extractLsb' 5 3 = (hpalByte r 3).extractLsb' 5 3 := by
  obtain ⟨burst, palNum, intens, -⟩ := cgaFlagByte_fields (cgaOfHeader r)
  apply BitVec.eq_of_getLsbD_eq
  intro j hj
  rw [BitVec.getLsbD_extractLsb', BitVec.getLsbD_extractLsb']
  congr 1
  obtain rfl | rfl | rfl : j = 0 ∨ j = 1 ∨ j = 2 := by omega
  · exact intens
  · exact palNum
  · exact burst.trans (Bool.not_not _)

/-- Settles O45: the image carries the descriptor, and its zero triples collide, so the second PALRES takes the same path. -/
theorem cgaPaletteSurvivesSerialisation : Obligations.CgaPaletteSurvivesSerialisation := by
  intro s a b u v hu hv hc ha hpath hcap ho hua hb hcfg huu huv huc hhdr hv'
  obtain ⟨a', ha', first⟩ := exec_palres_cga hu hv hc
  cases ha.symm.trans ha'
  have dup : probeDup s.regs = true := cgaPath_eq_derived (by rw [← hpath, first.palctl])
  have size : palserSize a = 48 := if_neg (by rw [first.geometry.variant, hc]; decide)
  obtain ⟨b', hb', -, -, -, bytes⟩ := exec_palser hua (by rw [first.geometry.variant, hv])
    (by rw [size, first.inputs.dstCap]; exact hcap)
    (by rw [first.inputs.dstAddr, first.inputs.dstCap, State.addrTop, first.completed.cfg]; exact ho)
  cases hb.symm.trans hb'
  have image {k : Nat} (h : k < 48) : outputByte b k = if k = 0 then (cgaOfHeader s.regs).bg.setWidth 8 <<< 4
      else if k = 3 then cgaFlagByte (cgaOfHeader s.regs) else 0#8 := by
    rw [bytes k (by omega), palserByte_image h, paletteImage_derived hpath, first.cgadesc]
  have same : cgaOfHeader u.regs = cgaOfHeader s.regs := cgaOfHeader_image
    ((hhdr 0 (by decide)).trans (image (by decide))) ((hhdr 3 (by decide)).trans (image (by decide)))
  have dup' : probeDup u.regs = true := probeDup_image fun k h1 h2 => by
    rw [hhdr k (by omega), image (by omega), if_neg (by omega), if_neg (by omega)]
  obtain ⟨v', hv'', second⟩ := exec_palres_cga huu huv huc
  cases hv'.symm.trans hv''
  refine ⟨?_, ?_, ?_, ?_, fun k h hk => ?_⟩
  · rw [← hhdr 0 (by decide)]
    exact congrArg CgaDesc.bg same
  · rw [image (by decide)]
    exact cgaFlagByte_ofHeader s.regs
  · rw [second.palctl, first.palctl, cgaPath, cgaPath, dup, dup']
  · rw [second.cgadesc, first.cgadesc, same]
  · rw [second.written k h hk, first.written k h hk, cgaPalette_derived dup, cgaPalette_derived dup', same, hcfg]

end Sys2Proof.Machine
end

section
/-! PROOFS. The RLE encoder: the greedy splitting of a line, and what RLEE and RLEEB write. -/

namespace Sys2Proof.Machine

/-! ## The greedy splitting -/

/-- The bytes that a list of runs stands for. -/
def bytesOfRuns (runs : List (Byte × Nat)) : List Byte := runs.flatMap fun r => List.replicate r.2 r.1

/-- The tokens of a list of runs (30_encoding.md R60). -/
def tokensOfRuns (runs : List (Byte × Nat)) : List Byte := runs.flatMap fun r => emitRun r.1 r.2

/-- A run that one token encodes. -/
def RunFits (r : Byte × Nat) : Prop := 1 ≤ r.2 ∧ r.2 ≤ 63

@[simp] theorem bytesOfRuns_nil : bytesOfRuns [] = [] := rfl

@[simp] theorem bytesOfRuns_cons (v : Byte) (n : Nat) (rs : List (Byte × Nat)) :
    bytesOfRuns ((v, n) :: rs) = List.replicate n v ++ bytesOfRuns rs := rfl

@[simp] theorem tokensOfRuns_nil : tokensOfRuns [] = [] := rfl

@[simp] theorem tokensOfRuns_cons (v : Byte) (n : Nat) (rs : List (Byte × Nat)) :
    tokensOfRuns ((v, n) :: rs) = emitRun v n ++ tokensOfRuns rs := rfl

/-- The runs that `encodeRuns` emits from a run of `n` copies of `v` on (41_rle_codec.md R69). -/
def splitRuns (v : Byte) (n : Nat) : List Byte → List (Byte × Nat)
  | [] => [(v, n)]
  | b :: rest => if n < Config.maxRun ∧ b = v then splitRuns v (n + 1) rest else (v, n) :: splitRuns b 1 rest

/-- The runs of a line. -/
def splitLine : List Byte → List (Byte × Nat)
  | [] => []
  | v :: rest => splitRuns v 1 rest

theorem tokensOfRuns_splitRuns (v : Byte) (n : Nat) (l : List Byte) :
    tokensOfRuns (splitRuns v n l) = encodeRuns v n l := by
  induction l generalizing v n with
  | nil => simp [splitRuns, encodeRuns]
  | cons b rest ih =>
    rw [splitRuns, encodeRuns]
    split
    · exact ih v (n + 1)
    · rw [tokensOfRuns_cons, ih b 1]

theorem bytesOfRuns_splitRuns (v : Byte) (n : Nat) (l : List Byte) :
    bytesOfRuns (splitRuns v n l) = List.replicate n v ++ l := by
  induction l generalizing v n with
  | nil => simp [splitRuns]
  | cons b rest ih =>
    rw [splitRuns]
    split
    next h => rw [ih v (n + 1), h.2, List.replicate_succ', List.append_assoc, List.singleton_append]
    next => rw [bytesOfRuns_cons, ih b 1, List.replicate_one, List.singleton_append]

theorem splitRuns_fit {v : Byte} {n : Nat} (h1 : 1 ≤ n) (h2 : n ≤ 63) (l : List Byte) : ∀ r ∈ splitRuns v n l, RunFits r := by
  induction l generalizing v n with
  | nil => simp [splitRuns, RunFits, h1, h2]
  | cons b rest ih =>
    rw [splitRuns]
    split
    next h =>
      unfold Config.maxRun at h
      exact ih (by omega) (by omega)
    next => exact List.forall_mem_cons.2 ⟨⟨h1, h2⟩, ih (by omega) (by omega)⟩

theorem splitRuns_head (v : Byte) (n : Nat) (l : List Byte) : ∃ m, (splitRuns v n l).head? = some (v, m) := by
  induction l generalizing n with
  | nil => exact ⟨n, rfl⟩
  | cons b rest ih =>
    rw [splitRuns]
    split
    · exact ih (n + 1)
    · exact ⟨n, rfl⟩

/-- Two neighbouring runs have the same byte only if the first is full. -/
theorem splitRuns_chain (v : Byte) {n : Nat} (h : n ≤ 63) (l : List Byte) :
    (splitRuns v n l).IsChain fun r q => r.1 = q.1 → r.2 = 63 := by
  induction l generalizing v n with
  | nil => exact List.isChain_singleton _
  | cons b rest ih =>
    rw [splitRuns]
    split
    next hn =>
      unfold Config.maxRun at hn
      exact ih v (by omega)
    next hn =>
      refine List.isChain_cons.2 ⟨fun q hq hv => ?_, ih b (by omega)⟩
      obtain ⟨m, hm⟩ := splitRuns_head b 1 rest
      obtain rfl : (b, m) = q := Option.some.inj (hm.symm.trans hq)
      have full : ¬ n < 63 := fun hlt => hn ⟨hlt, hv.symm⟩
      show n = 63
      omega

theorem tokensOfRuns_splitLine (line : List Byte) : tokensOfRuns (splitLine line) = encodeLine line := by
  cases line with
  | nil => rfl
  | cons v rest => exact tokensOfRuns_splitRuns v 1 rest

theorem bytesOfRuns_splitLine (line : List Byte) : bytesOfRuns (splitLine line) = line := by
  cases line with
  | nil => rfl
  | cons v rest => exact bytesOfRuns_splitRuns v 1 rest

theorem splitLine_fit (line : List Byte) : ∀ r ∈ splitLine line, RunFits r := by
  cases line with
  | nil => simp [splitLine]
  | cons v rest => exact splitRuns_fit (by decide) (by decide) rest

theorem splitLine_chain (line : List Byte) : (splitLine line).IsChain fun r q => r.1 = q.1 → r.2 = 63 := by
  cases line with
  | nil => exact List.isChain_nil
  | cons v rest => exact splitRuns_chain v (by decide) rest

theorem emitRun_eq (v : Byte) (n : Nat) : emitRun v n =
    if 2 ≤ n then [0xC0#8 ||| BitVec.ofNat 8 n, v] else if v &&& 0xC0#8 = 0xC0#8 then [0xC1#8, v] else [v] := by
  simp only [emitRun, isRunMarker_iff]

/-- A token is no longer than two bytes a copy, and never empty. -/
theorem emitRun_length (v : Byte) {n : Nat} (h : 1 ≤ n) :
    1 ≤ (emitRun v n).length ∧ (emitRun v n).length ≤ 2 * n := by
  unfold emitRun
  split
  · simp only [List.length_cons, List.length_nil]
    omega
  · split <;> simp only [List.length_cons, List.length_nil] <;> omega

/-- The tokens of runs are at most twice as long as the bytes, and at least one byte a run. -/
theorem tokensOfRuns_length {runs : List (Byte × Nat)} (h : ∀ r ∈ runs, RunFits r) :
    runs.length ≤ (tokensOfRuns runs).length ∧ (tokensOfRuns runs).length ≤ 2 * (bytesOfRuns runs).length := by
  induction runs with
  | nil => simp
  | cons r rs ih =>
    obtain ⟨v, n⟩ := r
    obtain ⟨hr, hrs⟩ := List.forall_mem_cons.1 h
    obtain ⟨h1, h2⟩ := emitRun_length v (n := n) hr.1
    obtain ⟨h3, h4⟩ := ih hrs
    simp only [tokensOfRuns_cons, bytesOfRuns_cons, List.length_append, List.length_cons, List.length_replicate]
    omega

/-- Settles O46: the runs are those of `splitLine`. -/
theorem encodeLineIsTheGreedySplitting : Obligations.EncodeLineIsTheGreedySplitting := by
  refine fun line => ⟨splitLine line, (bytesOfRuns_splitLine line).symm, ?_, splitLine_fit line, splitLine_chain line, ?_⟩
  · simp only [← emitRun_eq]
    exact (tokensOfRuns_splitLine line).symm
  · have bound := (tokensOfRuns_length (splitLine_fit line)).2
    rwa [tokensOfRuns_splitLine, bytesOfRuns_splitLine] at bound

/-! ## RLEE and RLEEB -/

/-- The bytes of the input region that an undisturbed command reads are those memory holds. -/
theorem srcBytes_undisturbed {i : Instr} {s : State} (hu : Undisturbed i s) (hi : usesInput i s = true) {base n : Nat}
    (h : base + n ≤ s.regs.srcLen.toNat) : srcBytes s base n = (List.range n).map fun j => inputByte s (base + j) := by
  refine List.map_congr_left fun j hj => srcByte_undisturbed hu hi ?_
  have := List.mem_range.1 hj
  omega

/-- A command whose rule ends in writing tokens: the tokens where they fit, else DestOverflow(DST_CAP) (41_rle_codec.md R69). -/
theorem exec_writeTokens {i : Instr} {s : State} {tokens : List Byte} (hi : i.isCommand = true) (hu : Undisturbed i s)
    (hp : perform i s = writeTokens s tokens) :
    (tokens.length ≤ s.regs.dstCap.toNat →
      ∃ t, exec i s = .next t ∧ CompletedOk i s t ∧ KeepsAllButOutput s t tokens.length
        ∧ t.regs.result = BitVec.ofNat 32 tokens.length
        ∧ ∀ k (h : k < tokens.length), outputByte t k = tokens[k])
    ∧ (s.regs.dstCap.toNat < tokens.length → EndsWithError i s ⟨.destOverflow, s.regs.dstCap.toNat⟩) := by
  refine ⟨fun h => ?_, fun h => exec_error_undisturbed hi hu (hp.trans (if_pos h))⟩
  obtain ⟨t, he, hc, hk, hres, hread⟩ := exec_fill hi hu h (hp.trans (if_neg (Nat.not_lt.2 h)))
  refine ⟨t, he, hc, hk, hres, fun k hlt => ?_⟩
  rw [outputByte, hk.inputs.dstAddr, hread k hlt, ← List.getElem_eq_getD]

theorem perform_rlee {s : State} (hr : Ready s) (hl : s.regs.bpl.toNat ≤ s.regs.srcLen.toNat) :
    perform .rlee s = writeTokens s (encodeLine (srcBytes s 0 s.regs.bpl.toNat)) := by
  simp only [perform, performRlee, (checkBoth_eq_none s).2 hr]
  exact if_neg (Nat.not_lt.2 hl)

theorem perform_rleeb {s : State} (hr : Ready s) (hl : bitmapSize s.regs ≤ s.regs.srcLen.toNat) :
    perform .rleeb s = writeTokens s (encodeBitmap s) := by
  simp only [perform, performRleeb, (checkBoth_eq_none s).2 hr]
  exact if_neg (Nat.not_lt.2 hl)

/-- Plane-line `l` of the DecodedBitmap in the input region. -/
def inputLine (s : State) (l : Nat) : List Byte :=
  (List.range s.regs.bpl.toNat).map fun j => inputByte s (l * s.regs.bpl.toNat + j)

/-- An undisturbed RLEEB encodes the plane-lines that memory holds, each by itself (41_rle_codec.md R74). -/
theorem encodeBitmap_undisturbed {s : State} (hu : Undisturbed .rleeb s) (hl : bitmapSize s.regs ≤ s.regs.srcLen.toNat) :
    encodeBitmap s = (List.range (storedLines s.regs)).flatMap fun l => encodeLine (inputLine s l) := by
  refine List.flatMap_congr fun l hline => ?_
  rw [srcBytes_undisturbed hu rfl, inputLine]
  calc l * s.regs.bpl.toNat + s.regs.bpl.toNat = (l + 1) * s.regs.bpl.toNat := (Nat.succ_mul _ _).symm
    _ ≤ storedLines s.regs * s.regs.bpl.toNat := Nat.mul_le_mul_right _ (List.mem_range.1 hline)
    _ ≤ s.regs.srcLen.toNat := hl

/-- Settles O47: RLEE's rule ends in writing the tokens of its line. -/
theorem rleeEncodesOneLine : Obligations.RleeEncodesOneLine := by
  rintro s tokens hr hu hl rfl
  have line : srcBytes s 0 s.regs.bpl.toNat = (List.range s.regs.bpl.toNat).map (inputByte s) := by
    rw [srcBytes_undisturbed hu rfl (by omega)]
    simp only [Nat.zero_add]
  exact exec_writeTokens rfl hu (line ▸ perform_rlee hr hl)

/-- Settles O48: RLEEB's rule ends in writing the tokens of every plane-line. -/
theorem rleebEncodesEveryLine : Obligations.RleebEncodesEveryLine := by
  rintro s tokens hr hu hl rfl
  exact exec_writeTokens rfl hu (encodeBitmap_undisturbed hu hl ▸ perform_rleeb hr hl)

end Sys2Proof.Machine
end

section
/-! PROOFS. The RLE decoder: what each body token does to a decode under way. -/

namespace Sys2Proof.Machine

/-! ## What a token writes -/

/-- Copies that stay in their line, or that DROP_REST stops at its end: the bytes written and the cursors (41_rle_codec.md R70). -/
theorem emitCopies_line {g : LineGeometry} (v : Byte) {n lc ln : Nat} (hl : ln < g.lines) (hc : lc < g.width)
    (h : g.policy = .dropRest ∨ lc + n ≤ g.width) : emitCopies g v n lc ln =
      (List.replicate (min n (g.width - lc) - if g.padded = true ∧ g.width ≤ lc + n then 1 else 0) v,
        if g.width ≤ lc + n then (0, ln + 1) else (lc + n, ln)) := by
  by_cases hend : g.width ≤ lc + n
  · have pad : (if g.padded = true ∧ g.width ≤ lc + n then 1 else 0) = g.padded.toNat := by
      cases g.padded <;> simp [hend]
    rw [if_pos hend, pad, Nat.min_eq_right (by omega)]
    rcases h with hp | hle
    · exact emitCopies_dropRest hp v hl hc hend
    · rw [emitCopies_exact v hl (by omega) (by omega), show g.width - lc = n by omega]
  · rw [if_neg hend, if_neg fun k => hend k.2, Nat.min_eq_left (by omega), emitCopies_within v hl (by omega)]
    rfl

theorem tokenEffect_line {g : LineGeometry} (len : Nat) (v : Byte) {n : Nat} {c : Cursor} (hl : c.ln < g.lines)
    (hc : c.lc < g.width) (h : g.policy = .dropRest ∨ c.lc + n ≤ g.width) {m : Nat}
    (hm : m = min n (g.width - c.lc) - if g.padded = true ∧ g.width ≤ c.lc + n then 1 else 0) :
    tokenEffect g len n v c = (List.replicate m v,
      if g.width ≤ c.lc + n then ⟨c.ip + len, c.o + m, 0, c.ln + 1⟩ else ⟨c.ip + len, c.o + m, c.lc + n, c.ln⟩) := by
  rw [tokenEffect, emitCopies_line v hl hc h, ← hm, List.length_replicate]
  split <;> rfl

/-! ## The tokens as instructions -/

theorem runToken_decode {s : State} {c : Cursor} (hd : s.dec = some c) (len n : Nat) (v : Byte) :
    runToken s len n v = .next (tokenResult s c len n v) := by
  simp [runToken, hd, tokenResult]

theorem runToken_none {s : State} (hd : s.dec = none) (len n : Nat) (v : Byte) :
    runToken s len n v = .fault .tokenOutsideBody := by
  simp [runToken, hd]

/-- The three token rows, each with its length and its copies. -/
theorem exec_tokenRow {s : State} {c : Cursor} {i : Instr} {len n : Nat} {v : Byte} (hd : s.dec = some c)
    (hi : (i, len, n) ∈ [(Instr.rleRun (BitVec.ofNat 6 n) v, 2, n), (.rleEscapedLiteral v, 2, 1), (.rleLiteral v, 1, 1)])
    (hn : n < 64) : exec i s = .next (tokenResult s c len n v) := by
  simp only [List.mem_cons, Prod.mk.injEq, List.not_mem_nil, or_false] at hi
  rcases hi with ⟨rfl, rfl, -⟩ | ⟨rfl, rfl, rfl⟩ | ⟨rfl, rfl, rfl⟩
  · have count : (BitVec.ofNat 6 n).toNat = n := Nat.mod_eq_of_lt hn
    show runToken s 2 (BitVec.ofNat 6 n).toNat v = _
    rw [count, runToken_decode hd]
  · exact runToken_decode hd 2 1 v
  · exact runToken_decode hd 1 1 v

/-- The memory a token leaves, when its bytes fit the output region. -/
theorem tokenResult_read {s : State} {c : Cursor} {len n : Nat} {v : Byte} {bytes : List Byte} {c' : Cursor}
    (he : tokenEffect (lineGeometry s) len n v c = (bytes, c')) (hcap : c.o + bytes.length ≤ s.regs.dstCap.toNat)
    (ho : s.regs.dstAddr.toNat + s.regs.dstCap.toNat ≤ s.addrTop) (a : Nat) :
    (tokenResult s c len n v).mem.read a =
      if s.regs.dstAddr.toNat + c.o ≤ a ∧ a < s.regs.dstAddr.toNat + c.o + bytes.length
      then bytes.getD (a - (s.regs.dstAddr.toNat + c.o)) 0#8 else s.mem.read a := by
  have room : min bytes.length (s.outRoom - c.o) = bytes.length := by
    rw [outRoom_ready ho]
    omega
  rw [tokenResult, he, Memory.read_fill, room]

/-- Settles O49: the first clause is the second with the bytes and cursors of `tokenEffect_line`. -/
theorem tokensActOnADecodeUnderWay : Obligations.TokensActOnADecodeUnderWay := by
  refine ⟨fun s c i len n v hd hi hn hl hc hcap ho hpol => ?_, fun s c i len n v hd hi hn bytes c' he hcap ho => ?_,
    fun g len n v c hl hc hn => ⟨_, rfl, ?_⟩, fun g len n v c hl => ?_, fun g len n k v c hp hc hk hn => ?_,
    fun s hd => ⟨fun n v => runToken_none hd _ _ _, fun v => runToken_none hd _ _ _, fun v => runToken_none hd _ _ _⟩⟩
  · obtain ⟨m, hm⟩ : ∃ m, m = min n (s.regs.bplo.toNat - c.lc)
      - (if s.regs.variant.notEven = true ∧ s.regs.bplo.toNat ≤ c.lc + n then 1 else 0) := ⟨_, rfl⟩
    have he := tokenEffect_line (g := lineGeometry s) len v hl hc hpol hm
    refine ⟨_, m, exec_tokenRow hd hi hn, hm, by rw [tokenResult, he]; rfl, fun a => ?_, rfl, rfl, rfl, rfl, rfl, rfl, rfl⟩
    rw [tokenResult_read he (by rw [List.length_replicate]; omega) ho, List.length_replicate]
    refine if_ctx_congr Iff.rfl (fun ha => ?_) fun _ => rfl
    exact List.getD_replicate _ (by omega)
  · refine ⟨_, exec_tokenRow hd hi hn, by rw [tokenResult, he], fun k h => ?_, fun a ha => ?_, rfl, rfl, rfl, rfl, rfl, rfl,
      rfl⟩
    · rw [tokenResult_read he hcap ho, if_pos ⟨by omega, by omega⟩, Nat.add_sub_cancel_left, ← List.getElem_eq_getD]
    · rw [tokenResult_read he hcap ho, if_neg (by omega)]
  · have ends : g.width ≤ c.lc + n ↔ c.lc + n = g.width := by omega
    simp only [← ends]
    exact tokenEffect_line len v hl hc (.inr hn) (by rw [Nat.min_eq_left (by omega)])
  · simp [tokenEffect, emitCopies_done hl]
  · simp only [tokenEffect, emitCopies_dropOne hp v hc (show c.lc + k = g.width by omega) hn, List.length_append,
      Nat.add_assoc, Nat.add_zero]

end Sys2Proof.Machine
end

section
/-! PROOFS. RLED on a body that is a sequence of tokens: what it writes, and that it undoes RLEEB. -/

namespace Sys2Proof.Machine

/-! ## Lists made of pieces of one length -/

theorem length_flatMap_range {α : Type} {f : Nat → List α} {n w : Nat} (h : ∀ l < n, (f l).length = w) :
    ((List.range n).flatMap f).length = n * w := by
  induction n with
  | zero => simp
  | succ n ih =>
    rw [List.range_succ, List.flatMap_append, List.length_append, ih fun l hl => h l (by omega), List.flatMap_singleton,
      h n (by omega), Nat.succ_mul]

/-- Place `j` of piece `l`. -/
theorem getD_flatMap_range {α : Type} {f : Nat → List α} {n w l j : Nat} (h : ∀ l < n, (f l).length = w) (hl : l < n)
    (hj : j < w) (d : α) : ((List.range n).flatMap f).getD (l * w + j) d = (f l).getD j d := by
  induction n with
  | zero => omega
  | succ n ih =>
    have hlen : ((List.range n).flatMap f).length = n * w := length_flatMap_range fun k hk => h k (by omega)
    rw [List.range_succ, List.flatMap_append, List.flatMap_singleton]
    by_cases hn : l = n
    · subst hn
      rw [List.getD_append_right _ _ _ _ (by omega), hlen, Nat.add_sub_cancel_left]
    · have : l * w + j < n * w := rowMajor_lt hj (by omega)
      rw [List.getD_append _ _ _ _ (by omega), ih (fun k hk => h k (by omega)) (by omega)]

/-- A sequence of `n * w` places, `w` at a time. -/
theorem map_range_mul {α : Type} (f : Nat → α) (n w : Nat) :
    (List.range (n * w)).map f = (List.range n).flatMap fun l => (List.range w).map fun j => f (l * w + j) := by
  induction n with
  | zero => simp
  | succ n ih =>
    rw [Nat.succ_mul, List.range_add, List.map_append, ih, List.range_succ, List.flatMap_append, List.flatMap_singleton,
      List.map_map]
    rfl

/-! ## Bytes of the input region as a list -/

/-- The input region holds the bytes of `l` from offset `ip` on. -/
structure InputHolds (s : State) (ip : Nat) (l : List Byte) : Prop where
  inside : ip + l.length ≤ s.regs.srcLen.toNat
  bytes : srcBytes s ip l.length = l

theorem srcBytes_add (s : State) (ip m n : Nat) : srcBytes s ip (m + n) = srcBytes s ip m ++ srcBytes s (ip + m) n := by
  simp only [srcBytes, List.range_add, List.map_append, List.map_map, Nat.add_assoc]
  rfl

theorem srcBytes_length (s : State) (ip n : Nat) : (srcBytes s ip n).length = n := by simp [srcBytes]

theorem InputHolds.split {s : State} {ip : Nat} {l r : List Byte} (h : InputHolds s ip (l ++ r)) :
    InputHolds s ip l ∧ InputHolds s (ip + l.length) r := by
  have hin := h.inside
  have hb := h.bytes
  rw [List.length_append] at hin hb
  rw [srcBytes_add] at hb
  obtain ⟨h1, h2⟩ := List.append_inj hb (srcBytes_length s ip _)
  exact ⟨⟨by omega, h1⟩, ⟨by omega, h2⟩⟩

/-- An undisturbed RLED reads the bytes that memory holds. -/
theorem inputHolds_of_inputByte {s : State} {ip : Nat} {l : List Byte} (hu : Undisturbed .rled s)
    (hin : ip + l.length ≤ s.regs.srcLen.toNat) (h : ∀ k (hk : k < l.length), inputByte s (ip + k) = l[k]) :
    InputHolds s ip l := by
  refine ⟨hin, ?_⟩
  rw [srcBytes_undisturbed hu rfl hin]
  apply List.ext_getElem (by simp)
  intro k hk hk'
  simpa using h k hk'

/-! ## The token of a run -/

/-- The marker of a run (30_encoding.md R60). -/
theorem runMarker_ofNat {n : Nat} (h : n ≤ 63) : 0xC0#8 ||| BitVec.ofNat 8 n = runMarker (BitVec.ofNat 6 n) := by
  have : (BitVec.ofNat 6 n).setWidth 8 = BitVec.ofNat 8 n := BitVec.eq_of_toNat_eq (by simp; omega)
  rw [runMarker, this]

/-- The token that encodes a run decodes to the run's copies (30_encoding.md R58, R60). -/
theorem decodeToken_emitRun {v : Byte} {n : Nat} (h : RunFits (v, n)) (rest : List Byte) :
    ∃ i, decodeToken (emitRun v n ++ rest) = .ok (i, rest)
      ∧ ∀ g c, decodedEffect g i c = tokenEffect g (emitRun v n).length n v c := by
  obtain ⟨h1, h2⟩ := h
  dsimp only at h1 h2
  unfold emitRun
  split
  next =>
    rw [runMarker_ofNat h2]
    obtain ⟨i, hi, effect⟩ := decodeToken_run (isRunMarker_runMarker (BitVec.ofNat 6 n)) v rest
    refine ⟨i, hi, fun g c => ?_⟩
    have count : (BitVec.ofNat 6 n).toNat = n := Nat.mod_eq_of_lt (by omega)
    rw [effect, runCount_runMarker, count]
    rfl
  next hn =>
    obtain rfl : n = 1 := by omega
    split
    next =>
      obtain ⟨i, hi, effect⟩ := decodeToken_run (b := 0xC1#8) (by decide) v rest
      exact ⟨i, hi, fun g c => effect g c⟩
    next hv => exact ⟨.rleLiteral v, decodeToken_literal hv rest, fun _ _ => rfl⟩

theorem fetchToken_emitRun {s : State} {ip : Nat} {v : Byte} {n : Nat} (h : RunFits (v, n))
    (hin : InputHolds s ip (emitRun v n)) : ∃ i, fetchToken s ip = .ok i
      ∧ ∀ g c, decodedEffect g i c = tokenEffect g (emitRun v n).length n v c := by
  have hle := hin.inside
  have bytes : srcBytes s ip (s.regs.srcLen.toNat - ip) = emitRun v n
      ++ srcBytes s (ip + (emitRun v n).length) (s.regs.srcLen.toNat - ip - (emitRun v n).length) := by
    rw [← Nat.add_sub_cancel' (show (emitRun v n).length ≤ s.regs.srcLen.toNat - ip by omega), srcBytes_add, hin.bytes,
      Nat.add_sub_cancel_left]
  obtain ⟨i, hi, effect⟩ := decodeToken_emitRun h
    (srcBytes s (ip + (emitRun v n).length) (s.regs.srcLen.toNat - ip - (emitRun v n).length))
  exact ⟨i, fetchToken_eq (bytes ▸ hi), effect⟩

/-! ## Decoding a line -/

theorem decodeLoop_done {g : LineGeometry} {c : Cursor} (h : g.lines ≤ c.ln) (s : State) (fuel : Nat) :
    decodeLoop s g fuel c = .ok [] := by
  cases fuel <;> exact if_neg (Nat.not_lt.2 h)

/-- One round of the loop on the token of a run. -/
theorem decodeLoop_run {s : State} {g : LineGeometry} {fuel : Nat} {c c' : Cursor} {v : Byte} {n : Nat}
    {bytes rest : List Byte} (hl : c.ln < g.lines) (hf : RunFits (v, n)) (hin : InputHolds s c.ip (emitRun v n))
    (he : tokenEffect g (emitRun v n).length n v c = (bytes, c')) (hr : decodeLoop s g fuel c' = .ok rest) :
    decodeLoop s g (fuel + 1) c = .ok (bytes ++ rest) := by
  obtain ⟨i, hi, effect⟩ := fetchToken_emitRun hf hin
  simp only [decodeLoop, if_pos hl, hi, effect, he, hr]

/-- The tokens of runs that end with their line write the line's bytes less the padding byte (41_rle_codec.md R70, R71). -/
theorem decodeLoop_line {s : State} {g : LineGeometry} {fuel ip o lc ln : Nat} {runs : List (Byte × Nat)}
    {rest : List Byte} (hl : ln < g.lines) (hf : ∀ r ∈ runs, RunFits r) (hc : lc < g.width)
    (hw : lc + (bytesOfRuns runs).length = g.width) (hin : InputHolds s ip (tokensOfRuns runs))
    (hr : decodeLoop s g fuel ⟨ip + (tokensOfRuns runs).length, o + (g.kept - lc), 0, ln + 1⟩ = .ok rest) :
    decodeLoop s g (fuel + runs.length) ⟨ip, o, lc, ln⟩ = .ok ((bytesOfRuns runs).take (g.kept - lc) ++ rest) := by
  induction runs generalizing ip o lc with
  | nil =>
    simp at hw
    omega
  | cons r rs ih =>
    obtain ⟨v, n⟩ := r
    obtain ⟨hrun, hrs⟩ := List.forall_mem_cons.1 hf
    obtain ⟨h1, -⟩ := id hrun
    dsimp only at h1
    obtain ⟨hin1, hin2⟩ := InputHolds.split hin
    simp only [bytesOfRuns_cons, tokensOfRuns_cons, List.length_append, List.length_replicate] at hw hr ⊢
    have kept : g.kept = g.width - g.padded.toNat := rfl
    have pad : g.padded.toNat ≤ 1 := Bool.toNat_le _
    cases rs with
    | nil =>
      simp only [bytesOfRuns_nil, tokensOfRuns_nil, List.length_nil, Nat.add_zero, List.append_nil, List.length_cons]
        at hw hr ⊢
      have he : tokenEffect g (emitRun v n).length n v ⟨ip, o, lc, ln⟩ = (List.replicate (g.kept - lc) v,
          ⟨ip + (emitRun v n).length, o + (g.kept - lc), 0, ln + 1⟩) := by
        rw [tokenEffect, emitCopies_exact v hl (by omega) hw, show n - g.padded.toNat = g.kept - lc by omega,
          List.length_replicate]
      rw [decodeLoop_run hl hrun hin1 he hr, List.take_replicate, Nat.min_eq_left (by omega)]
    | cons q qs =>
      have hq : 1 ≤ (bytesOfRuns (q :: qs)).length := by
        have := (hrs q List.mem_cons_self).1
        simp only [bytesOfRuns, List.flatMap_cons, List.length_append, List.length_replicate]
        omega
      have he : tokenEffect g (emitRun v n).length n v ⟨ip, o, lc, ln⟩ = (List.replicate n v,
          ⟨ip + (emitRun v n).length, o + n, lc + n, ln⟩) := by
        rw [tokenEffect, emitCopies_within v hl (show lc + n < g.width by omega), List.length_replicate]
      have htail := ih (ip := ip + (emitRun v n).length) (o := o + n) (lc := lc + n) hrs (by omega) (by omega) hin2
        (by rw [show o + n + (g.kept - (lc + n)) = o + (g.kept - lc) by omega, Nat.add_assoc ip]; exact hr)
      rw [List.length_cons (a := (v, n)), ← Nat.add_assoc, decodeLoop_run hl hrun hin1 he htail,
        List.take_append, List.length_replicate,
        List.take_of_length_le (l := List.replicate n v) (by rw [List.length_replicate]; omega),
        show g.kept - lc - n = g.kept - (lc + n) by omega, List.append_assoc]

/-- A stored line given by runs. -/
structure LineFits (g : LineGeometry) (runs : List (Byte × Nat)) : Prop where
  fits : ∀ r ∈ runs, RunFits r
  length : (bytesOfRuns runs).length = g.width

theorem decodeLoop_lines {s : State} {g : LineGeometry} {fuel ip o ln : Nat} {lines : List (List (Byte × Nat))}
    (hw : 0 < g.width) (hn : ln + lines.length = g.lines) (hf : ∀ L ∈ lines, LineFits g L)
    (hin : InputHolds s ip (lines.flatMap tokensOfRuns)) :
    decodeLoop s g (fuel + (lines.map List.length).sum) ⟨ip, o, 0, ln⟩
      = .ok (lines.flatMap fun L => (bytesOfRuns L).take g.kept) := by
  induction lines generalizing ip o ln with
  | nil => exact decodeLoop_done (by simp only [List.length_nil] at hn; show g.lines ≤ ln; omega) s _
  | cons L Ls ih =>
    obtain ⟨hL, hLs⟩ := List.forall_mem_cons.1 hf
    rw [List.flatMap_cons] at hin
    obtain ⟨hin1, hin2⟩ := hin.split
    rw [List.length_cons] at hn
    have tail := ih (o := o + (g.kept - 0)) (ln := ln + 1) (by omega) hLs hin2
    rw [List.map_cons, List.sum_cons, Nat.add_comm L.length, ← Nat.add_assoc, List.flatMap_cons]
    exact decodeLoop_line (by omega) hL.fits hw (by rw [hL.length, Nat.zero_add]) hin1 tail

/-- The tokens of lines take at least a byte for each run. -/
theorem runs_le_tokens {g : LineGeometry} {lines : List (List (Byte × Nat))} (hf : ∀ L ∈ lines, LineFits g L) :
    (lines.map List.length).sum ≤ (lines.flatMap tokensOfRuns).length := by
  induction lines with
  | nil => simp
  | cons L Ls ih =>
    obtain ⟨hL, hLs⟩ := List.forall_mem_cons.1 hf
    have h1 := (tokensOfRuns_length hL.fits).1
    have h2 := ih hLs
    rw [List.map_cons, List.sum_cons, List.flatMap_cons, List.length_append]
    omega

/-! ## RLED -/

theorem FreshGeometry.width_pos {s : State} (h : FreshGeometry s) : 0 < (lineGeometry s).width := by
  have := h.bplo
  have := h.bpl_pos
  show 0 < s.regs.bplo.toNat
  omega

/-- A decode of RLED that ends without error has written the DecodedBitmap's bytes (41_rle_codec.md R71). -/
theorem decodeLoop_start_length {s : State} {out : List Byte} (hr : RledRuns s)
    (h : decodeLoop s (lineGeometry s) (s.regs.srcLen.toNat + 1) Cursor.start = .ok out) :
    out.length = bitmapSize s.regs := by
  have hlen := decodeLoop_length (c := Cursor.start) hr.geometry.width_pos (Nat.zero_le _) (fun _ => rfl) h
  have hz : (lineGeometry s).offset Cursor.start.lc Cursor.start.ln = 0 := by simp [LineGeometry.offset, Cursor.start]
  have ht : (lineGeometry s).offset 0 (lineGeometry s).lines = bitmapSize s.regs := by
    rw [LineGeometry.offset, hr.geometry.kept, Nat.zero_min, Nat.add_zero]
    rfl
  omega

/-- RLED whose decode ends without error writes what was decoded from the start of its output region. -/
theorem exec_rled_ok {s : State} {out : List Byte} (hr : RledRuns s)
    (h : decodeLoop s (lineGeometry s) (s.regs.srcLen.toNat + 1) Cursor.start = .ok out) :
    ∃ t, exec .rled s = .next t ∧ CompletedOk .rled s t ∧ KeepsAllButOutput s t (bitmapSize s.regs)
      ∧ t.regs.result = BitVec.ofNat 32 (bitmapSize s.regs)
      ∧ ∀ k, k < bitmapSize s.regs → outputByte t k = out.getD k 0#8 := by
  have hlen := decodeLoop_start_length hr h
  have hcap : bitmapSize s.regs ≤ s.regs.dstCap.toNat := hr.output
  have room : min out.length s.outRoom = bitmapSize s.regs := by
    rw [outRoom_ready hr.ready.outputInside, hlen, Nat.min_eq_left hcap]
  have hp := perform_rled hr
  rw [h] at hp
  dsimp only at hp
  rw [room, hlen] at hp
  obtain ⟨t, he, hc, hk, hres, hread⟩ := exec_fill rfl hr.undisturbed hcap hp
  exact ⟨t, he, hc, hk, hres, fun k hlt => by rw [outputByte, hk.inputs.dstAddr, hread k hlt]⟩

/-- RLED on a body that is the tokens of its stored lines writes each line less its padding byte. -/
theorem exec_rled_lines {s : State} {runs : Nat → List (Byte × Nat)} (hr : RledRuns s)
    (hf : ∀ l < storedLines s.regs, LineFits (lineGeometry s) (runs l))
    (hin : InputHolds s 128 ((List.range (storedLines s.regs)).flatMap fun l => tokensOfRuns (runs l))) :
    ∃ t, exec .rled s = .next t ∧ CompletedOk .rled s t ∧ KeepsAllButOutput s t (bitmapSize s.regs)
      ∧ t.regs.result = BitVec.ofNat 32 (bitmapSize s.regs)
      ∧ ∀ l j, l < storedLines s.regs → j < s.regs.bpl.toNat →
        outputByte t (l * s.regs.bpl.toNat + j) = (bytesOfRuns (runs l)).getD j 0#8 := by
  have fits : ∀ L ∈ (List.range (storedLines s.regs)).map runs, LineFits (lineGeometry s) L := by
    intro L hL
    obtain ⟨l, hl, rfl⟩ := List.mem_map.1 hL
    exact hf l (List.mem_range.1 hl)
  have body : InputHolds s 128 (((List.range (storedLines s.regs)).map runs).flatMap tokensOfRuns) := by
    rwa [List.flatMap_map]
  obtain ⟨fuel, hfuel⟩ : ∃ fuel, s.regs.srcLen.toNat + 1
      = fuel + (((List.range (storedLines s.regs)).map runs).map List.length).sum := by
    have h1 := runs_le_tokens fits
    have h2 := body.inside
    exact ⟨_, (Nat.sub_add_cancel (by omega)).symm⟩
  have decoded := decodeLoop_lines (fuel := fuel) (o := 0) (ln := 0) hr.geometry.width_pos
    (by rw [Nat.zero_add, List.length_map, List.length_range]; rfl) fits body
  rw [← hfuel, hr.geometry.kept, List.flatMap_map] at decoded
  obtain ⟨t, he, hc, hk, hres, hread⟩ := exec_rled_ok hr decoded
  refine ⟨t, he, hc, hk, hres, fun l j hl hj => ?_⟩
  have kept_le : s.regs.bpl.toNat ≤ s.regs.bplo.toNat := by
    have := hr.geometry.bplo
    omega
  have piece : ∀ l < storedLines s.regs, ((bytesOfRuns (runs l)).take s.regs.bpl.toNat).length = s.regs.bpl.toNat := by
    intro l hl
    rw [List.length_take, (hf l hl).length]
    exact Nat.min_eq_left kept_le
  rw [hread _ (rowMajor_lt hj hl), getD_flatMap_range piece hl hj]
  simp only [List.getD_eq_getElem?_getD, List.getElem?_take, if_pos hj]

/-- Runs of one literal each are their own tokens and their own bytes. -/
theorem literalRuns {n : Nat} {f : Nat → Byte} :
    bytesOfRuns ((List.range n).map fun j => (f j, 1)) = (List.range n).map f
      ∧ ((∀ j < n, isRunMarker (f j) = false) →
        tokensOfRuns ((List.range n).map fun j => (f j, 1)) = (List.range n).map f) := by
  refine ⟨?_, fun h => ?_⟩
  · simp only [bytesOfRuns, List.flatMap_map, List.replicate_one, ← List.map_eq_flatMap]
  · have tokens : ∀ j ∈ List.range n, emitRun (f j) 1 = [f j] := by
      intro j hj
      simp [emitRun, h j (List.mem_range.1 hj)]
    rw [tokensOfRuns, List.flatMap_map, List.flatMap_congr tokens, ← List.map_eq_flatMap]

/-- Settles O50: the body is one run of one literal for each of its bytes. -/
theorem rledCopiesLiteralsAndDropsPadding : Obligations.RledCopiesLiteralsAndDropsPadding := by
  intro s hr hlen hlit
  have literal {l j : Nat} (hl : l < storedLines s.regs) (hj : j < s.regs.bplo.toNat) :
      isRunMarker (inputByte s (128 + (l * s.regs.bplo.toNat + j))) = false :=
    Bool.eq_false_iff.2 (mt (isRunMarker_iff _).1 (hlit _ (rowMajor_lt hj hl)))
  have body : InputHolds s 128 ((List.range (storedLines s.regs)).flatMap fun l => tokensOfRuns
      ((List.range s.regs.bplo.toNat).map fun j => (inputByte s (128 + (l * s.regs.bplo.toNat + j)), 1))) := by
    rw [List.flatMap_congr fun l hl => literalRuns.2 fun j hj => literal (List.mem_range.1 hl) hj,
      ← map_range_mul fun k => inputByte s (128 + k)]
    refine inputHolds_of_inputByte hr.undisturbed ?_ fun k hk => ?_
    · rw [List.length_map, List.length_range]
      exact hlen
    · simp
  have fits (l : Nat) : LineFits (lineGeometry s)
      ((List.range s.regs.bplo.toNat).map fun j => (inputByte s (128 + (l * s.regs.bplo.toNat + j)), 1)) :=
    ⟨by simp [RunFits], by rw [literalRuns.1, List.length_map, List.length_range]; rfl⟩
  obtain ⟨t, he, hc, hk, hres, hread⟩ := exec_rled_lines hr (fun l _ => fits l) body
  refine ⟨t, he, hc, hk, hres, fun l j hl hj => ?_⟩
  have hjo : j < s.regs.bplo.toNat := by
    have := hr.geometry.bplo
    omega
  rw [hread l j hl hj, literalRuns.1]
  simp [hjo, Nat.add_assoc]

/-- A file that does not reach the body has no token (41_rle_codec.md R70 case g). -/
theorem decodeLoop_start_short {s : State} (hr : RledRuns s) (h : s.regs.srcLen.toNat ≤ 128) :
    decodeLoop s (lineGeometry s) (s.regs.srcLen.toNat + 1) Cursor.start = .error ⟨.inputExhausted, 128⟩ := by
  have hl : Cursor.start.ln < (lineGeometry s).lines :=
    Nat.mul_pos hr.geometry.height hr.geometry.nplanes_pos
  have hf : fetchToken s Cursor.start.ip = .error 128 := by
    rcases fetchToken_cases s Cursor.start with hf | ⟨i, -, hin⟩
    · rw [hf]
      exact congrArg Except.error (Nat.max_eq_left h)
    · have := hin (lineGeometry s)
      simp only [Cursor.start, Config.hdrLen] at this
      omega
  simp only [decodeLoop, if_pos hl, hf]

/-- Settles O51: the length of what is decoded, and where a decode fails. -/
theorem rledWritesExactlyTheBitmap : Obligations.RledWritesExactlyTheBitmap := by
  refine fun s hr => ⟨fun h => ?_, fun t ht => ?_⟩
  · exact exec_error_undisturbed rfl hr.undisturbed ((perform_rled hr).trans (by rw [decodeLoop_start_short hr h]))
  · cases hd : decodeLoop s (lineGeometry s) (s.regs.srcLen.toNat + 1) Cursor.start with
    | ok out =>
      obtain ⟨u, hu, hc, hk, hres, -⟩ := exec_rled_ok hr hd
      cases ht.symm.trans hu
      exact ⟨fun _ => ⟨hk.memory, hres⟩, fun h => by simp [hc.status] at h⟩
    | error e =>
      obtain rfl := decodeLoop_start_error hd
      obtain ⟨u, hu, hc, hl⟩ := exec_error_undisturbed (i := .rled) rfl hr.undisturbed
        ((perform_rled hr).trans (by rw [hd]))
      cases ht.symm.trans hu
      have fits : max 128 s.regs.srcLen.toNat < 2 ^ 32 := by
        have := s.regs.srcLen.isLt
        omega
      exact ⟨fun h => by simp [hc.status] at h, fun _ => ⟨by rw [hc.status]; rfl, hc.errInfo fits, hc, hl⟩⟩

/-! ## RLED undoes RLEEB -/

/-- A RLEEB that ends without error has written the tokens of its plane-lines, and their number to RESULT. -/
theorem rleeb_of_noError {s t : State} (hr : Ready s) (hu : Undisturbed .rleeb s)
    (hl : bitmapSize s.regs ≤ s.regs.srcLen.toNat) (he : exec .rleeb s = .next t) (herr : t.regs.status.err = false) :
    t.regs.result.toNat = (encodeBitmap s).length
      ∧ ∀ k (h : k < (encodeBitmap s).length), outputByte t k = (encodeBitmap s)[k] := by
  obtain ⟨room, overflow⟩ := exec_writeTokens (i := .rleeb) rfl hu (perform_rleeb hr hl)
  by_cases hcap : (encodeBitmap s).length ≤ s.regs.dstCap.toNat
  · obtain ⟨u, hu, -, -, hres, hread⟩ := room hcap
    cases he.symm.trans hu
    have := s.regs.dstCap.isLt
    exact ⟨by rw [hres]; exact Nat.mod_eq_of_lt (by omega), hread⟩
  · obtain ⟨u, hu, hc, -⟩ := overflow (Nat.not_le.1 hcap)
    cases he.symm.trans hu
    simp [hc.status] at herr

/-- Settles O52: the body is the tokens of the splittings of the plane-lines, whose bytes are the plane-lines. -/
theorem rledOfRleebIsTheBitmap : Obligations.RledOfRleebIsTheBitmap := by
  rintro s t u _ hr hu hg hl he herr rfl hur hheight hplanes hbpl hbplo hn hbody
  obtain ⟨hcount, htokens⟩ := rleeb_of_noError hr hu hl he herr
  have lines : storedLines u.regs = storedLines s.regs := by rw [storedLines, hheight, hplanes, storedLines]
  have line_length (l : Nat) : (inputLine s l).length = s.regs.bpl.toNat := by simp [inputLine]
  have body : InputHolds u 128
      ((List.range (storedLines u.regs)).flatMap fun l => tokensOfRuns (splitLine (inputLine s l))) := by
    have tokens : encodeBitmap s
        = (List.range (storedLines u.regs)).flatMap fun l => tokensOfRuns (splitLine (inputLine s l)) := by
      simp only [encodeBitmap_undisturbed hu hl, tokensOfRuns_splitLine, lines]
    rw [← tokens]
    refine inputHolds_of_inputByte hur.undisturbed (hcount ▸ hn) fun k hk => ?_
    rw [hbody k (hcount ▸ hk), htokens k hk]
  have fits (l : Nat) : LineFits (lineGeometry u) (splitLine (inputLine s l)) :=
    ⟨splitLine_fit _, by rw [bytesOfRuns_splitLine, line_length, ← hbpl, ← hbplo]; rfl⟩
  obtain ⟨v, hv, hc, -, hres, hread⟩ := exec_rled_lines hur (fun l _ => fits l) body
  refine ⟨v, hv, hc, ?_, fun k hk => ?_⟩
  · rw [hres, bitmapSize, hheight, hplanes, hbpl]
  · have hpos : 0 < s.regs.bpl.toNat := hg.bpl_pos
    have hline : k / s.regs.bpl.toNat < storedLines s.regs := Nat.div_lt_of_lt_mul (by rw [Nat.mul_comm]; exact hk)
    have hplace : k % s.regs.bpl.toNat < s.regs.bpl.toNat := Nat.mod_lt _ hpos
    have hk' : k / s.regs.bpl.toNat * s.regs.bpl.toNat + k % s.regs.bpl.toNat = k := Nat.div_add_mod' k _
    have byte := hread (k / s.regs.bpl.toNat) (k % s.regs.bpl.toNat) (lines ▸ hline) (hbpl ▸ hplace)
    rw [hbpl, hk', bytesOfRuns_splitLine] at byte
    rw [byte, inputLine]
    simp [hplace, hk']

end Sys2Proof.Machine
end

section
/-! PROOFS. The atomic RLED and its tokens run one by one end in the same registers and the same memory (log 8). -/

namespace Sys2Proof.Machine

/-! ## A state inside a decode -/

/-- `s` inside a decode, its cursors at `c` and memory `m` so far. -/
def State.decoding (s : State) (m : Memory) (c : Cursor) : State := { s with mem := m, dec := some c }

/-- Memory `m` differs from that of `s` in the output region at most. -/
def SameOutsideOutput (s : State) (m : Memory) : Prop :=
  ∀ a, (a < s.regs.dstAddr.toNat ∨ s.regs.dstAddr.toNat + s.regs.dstCap.toNat ≤ a) → m.read a = s.mem.read a

/-- The tokens already run do not change the ones still to fetch: the input region is apart from the output region. -/
theorem fetchToken_decoding {s : State} {m : Memory} (hr : Ready s) (hm : SameOutsideOutput s m) (c : Cursor) (ip : Nat) :
    fetchToken (s.decoding m c) ip = fetchToken s ip := by
  have byte {off : Nat} (h : off < s.regs.srcLen.toNat) : srcByte (s.decoding m c) off = srcByte s off := by
    have apart := hr.apart
    have read : m.read (s.regs.srcAddr.toNat + off) = s.mem.read (s.regs.srcAddr.toNat + off) := hm _ (by omega)
    show ite _ _ (m.read (s.regs.srcAddr.toNat + off)) = _
    rw [read]
    rfl
  have bytes : srcBytes (s.decoding m c) ip (min (s.regs.srcLen.toNat - ip) 2)
      = srcBytes s ip (min (s.regs.srcLen.toNat - ip) 2) := by
    refine List.map_congr_left fun j hj => byte ?_
    have := List.mem_range.1 hj
    omega
  have regs : (s.decoding m c).regs = s.regs := rfl
  unfold fetchToken
  dsimp only
  rw [regs, bytes]

/-- A body token as the decoder's effect on a decode under way. -/
theorem exec_decodedEffect {s : State} {c : Cursor} {i : Instr} (hi : i.isCommand = false) (hd : s.dec = some c) :
    exec i s = .next (s.decoding
      (s.mem.fill (s.regs.dstAddr.toNat + c.o) (min (decodedEffect (lineGeometry s) i c).1.length (s.outRoom - c.o))
        fun k => (decodedEffect (lineGeometry s) i c).1.getD k 0#8)
      (decodedEffect (lineGeometry s) i c).2) := by
  cases i with
  | rleRun n v => exact runToken_decode hd 2 n.toNat v
  | rleEscapedLiteral v => exact runToken_decode hd 2 1 v
  | rleLiteral v => exact runToken_decode hd 1 1 v
  | _ => cases hi

/-! ## Steps of the token machine -/

theorem decodeDone_iff {s : State} {m : Memory} {c : Cursor} :
    decodeDone (s.decoding m c) c = true ↔ (lineGeometry s).lines ≤ c.ln := by
  simp only [decodeDone, Bool.not_eq_true', decide_eq_false_iff_not, Nat.not_lt]
  rfl

section
variable {s : State} (hh : s.host = []) (hp : s.pending = some (commandWord .rled)) (hr : Ready s)
  {m : Memory} (hm : SameOutsideOutput s m) {c : Cursor}
include hh hp

theorem step_decoding : step (s.decoding m c) = tokenStep (s.decoding m c) c :=
  (step_noEvent (s := s.decoding m c) hh).trans (engineStep_decode (s := s.decoding m c) hp rfl)

theorem step_decoding_done (hl : (lineGeometry s).lines ≤ c.ln) :
    step (s.decoding m c) = .next (decodeFinish (s.decoding m c) c) := by
  have done : decodeDone (s.decoding m c) c = true := decodeDone_iff.2 hl
  rw [step_decoding hh hp, tokenStep, if_pos done]

include hr hm

theorem step_decoding_exhausted {off : Nat} (hl : c.ln < (lineGeometry s).lines) (hf : fetchToken s c.ip = .error off) :
    step (s.decoding m c) = .next (decodeExhausted (s.decoding m c) off) := by
  have more : ¬ decodeDone (s.decoding m c) c = true := mt decodeDone_iff.1 (Nat.not_le.2 hl)
  rw [step_decoding hh hp, tokenStep, if_neg more, fetchToken_decoding hr hm, hf]

theorem step_decoding_token {i : Instr} (hl : c.ln < (lineGeometry s).lines) (hf : fetchToken s c.ip = .ok i) :
    step (s.decoding m c) = .next (s.decoding
      (m.fill (s.regs.dstAddr.toNat + c.o) (min (decodedEffect (lineGeometry s) i c).1.length (s.outRoom - c.o))
        fun k => (decodedEffect (lineGeometry s) i c).1.getD k 0#8)
      (decodedEffect (lineGeometry s) i c).2) := by
  have more : ¬ decodeDone (s.decoding m c) c = true := mt decodeDone_iff.1 (Nat.not_le.2 hl)
  rw [step_decoding hh hp, tokenStep, if_neg more, fetchToken_decoding hr hm, hf]
  exact exec_decodedEffect (s := s.decoding m c) (fetchToken_isToken hf) rfl

end

/-! ## The whole decode -/

/-- Memory `m'` is `m` with the bytes of `out` from output offset `o` on. -/
def WritesOut (s : State) (m m' : Memory) (o : Nat) (out : List Byte) : Prop :=
  ∀ a, m'.read a = if s.regs.dstAddr.toNat + o ≤ a ∧ a < s.regs.dstAddr.toNat + o + out.length
    then out.getD (a - (s.regs.dstAddr.toNat + o)) 0#8 else m.read a

/-- How the token machine, its cursors at `c` and memory `m`, ends when the decoder's loop answers `r`. -/
def TokensEndAs (s : State) (m : Memory) (c : Cursor) (r : Except Raised (List Byte)) : Prop :=
  match r with
  | .ok out => ∃ n m' c', Host.Core.run Sys2Proof.core n (s.decoding m c) = .next (decodeFinish (s.decoding m' c') c')
      ∧ c'.o = c.o + out.length ∧ WritesOut s m m' c.o out
  | .error e => ∃ n m' c', Host.Core.run Sys2Proof.core n (s.decoding m c)
      = .next (complete .rled (s.decoding m' c') (.error e)) ∧ SameOutsideOutput s m'

/-- A run begins with its first step. -/
theorem run_succ {s t : State} (h : step s = .next t) (n : Nat) :
    Host.Core.run Sys2Proof.core (n + 1) s = Host.Core.run Sys2Proof.core n t := by
  have hstep : Sys2Proof.core.step s = .next t := h
  simp only [Host.Core.run, hstep]

theorem run_one {s t : State} (h : step s = .next t) : Host.Core.run Sys2Proof.core 1 s = .next t :=
  run_succ h 0

theorem tokensEndAs_done {s : State} (hh : s.host = []) (hp : s.pending = some (commandWord .rled)) {c : Cursor} {m : Memory}
    (hl : (lineGeometry s).lines ≤ c.ln) : TokensEndAs s m c (.ok []) :=
  ⟨1, m, c, run_one (step_decoding_done hh hp hl), rfl, fun a => (if_neg (by simp)).symm⟩

/-- Bytes written in two stretches, the second from where the first ends. -/
theorem WritesOut.append {s : State} {m m' m'' : Memory} {o : Nat} {l r : List Byte} (h1 : WritesOut s m m' o l)
    (h2 : WritesOut s m' m'' (o + l.length) r) : WritesOut s m m'' o (l ++ r) := by
  intro a
  rw [h2 a, h1 a, List.length_append]
  by_cases hr : s.regs.dstAddr.toNat + (o + l.length) ≤ a ∧ a < s.regs.dstAddr.toNat + (o + l.length) + r.length
  · rw [if_pos hr, if_pos ⟨by omega, by omega⟩, List.getD_append_right _ _ _ _ (by omega)]
    congr 1
    omega
  · rw [if_neg hr]
    by_cases hl : s.regs.dstAddr.toNat + o ≤ a ∧ a < s.regs.dstAddr.toNat + o + l.length
    · rw [if_pos hl, if_pos ⟨hl.1, by omega⟩, List.getD_append _ _ _ _ (by omega)]
    · rw [if_neg hl, if_neg (by omega)]

/-- Bytes inside the output region leave the rest of memory alone. -/
theorem WritesOut.sameOutside {s : State} {m m' : Memory} {o : Nat} {l : List Byte} (h : WritesOut s m m' o l)
    (hcap : o + l.length ≤ s.regs.dstCap.toNat) (hm : SameOutsideOutput s m) : SameOutsideOutput s m' := by
  intro a ha
  rw [h a, if_neg (by omega), hm a ha]

/-- The output offset of a position never passes the size of the bitmap (41_rle_codec.md R71). -/
theorem offset_le {g : LineGeometry} {lc ln : Nat} (hl : ln ≤ g.lines) (h0 : ln = g.lines → lc = 0) :
    g.offset lc ln ≤ g.lines * g.kept := by
  unfold LineGeometry.offset
  by_cases h : ln = g.lines
  · simp [h, h0 h]
  · have h1 : (ln + 1) * g.kept ≤ g.lines * g.kept := Nat.mul_le_mul_right _ (by omega)
    rw [Nat.succ_mul] at h1
    have h2 := Nat.min_le_right lc g.kept
    omega

/-- A token first, then the rest of the decode. -/
theorem TokensEndAs.step {s : State} {m m' : Memory} {c c' : Cursor} {bytes : List Byte} {r : Except Raised (List Byte)}
    (hstep : step (s.decoding m c) = .next (s.decoding m' c')) (hw : WritesOut s m m' c.o bytes)
    (ho : c'.o = c.o + bytes.length) (h : TokensEndAs s m' c' r) : TokensEndAs s m c (r.map (bytes ++ ·)) := by
  cases r with
  | error e =>
    obtain ⟨n, m'', c'', hrun, hm⟩ := h
    exact ⟨n + 1, m'', c'', (run_succ hstep n).trans hrun, hm⟩
  | ok rest =>
    obtain ⟨n, m'', c'', hrun, hoff, hw'⟩ := h
    refine ⟨n + 1, m'', c'', (run_succ hstep n).trans hrun, ?_, hw.append (ho ▸ hw')⟩
    rw [hoff, ho, List.length_append, Nat.add_assoc]

/-- A round of the loop of the atomic RLED: a token, then the rest of the body. -/
theorem decodeLoop_token {s : State} {g : LineGeometry} {fuel : Nat} {c : Cursor} {i : Instr} (hl : c.ln < g.lines)
    (hi : fetchToken s c.ip = .ok i) : decodeLoop s g (fuel + 1) c
      = (decodeLoop s g fuel (decodedEffect g i c).2).map ((decodedEffect g i c).1 ++ ·) := by
  simp only [decodeLoop, if_pos hl, hi]
  cases decodeLoop s g fuel (decodedEffect g i c).2 <;> rfl

/-- The cursors are in range, and the output offset is the place in the bitmap. -/
structure CursorInRange (g : LineGeometry) (c : Cursor) : Prop where
  column : c.lc < g.width
  line : c.ln ≤ g.lines
  last : c.ln = g.lines → c.lc = 0
  offset : c.o = g.offset c.lc c.ln

/-- A token leaves the cursors in range, the output offset advanced by the bytes it writes. -/
theorem CursorInRange.token {g : LineGeometry} {c : Cursor} {i : Instr} (h : CursorInRange g c) (hi : i.isCommand = false) :
    CursorInRange g (decodedEffect g i c).2 ∧ (decodedEffect g i c).2.o = c.o + (decodedEffect g i c).1.length := by
  obtain ⟨len, n, v, he⟩ := decodedEffect_token (g := g) hi c
  obtain ⟨hlen, hcol, hline, -⟩ := emitCopies_spec v n h.column h.line
  rw [he]
  refine ⟨⟨hcol, hline, emitCopies_last v n h.last, ?_⟩, rfl⟩
  show c.o + (emitCopies g v n c.lc c.ln).1.length = _
  rw [h.offset, Nat.add_comm]
  exact hlen

/-- The token machine ends as the loop of the atomic RLED does, from every position of the decode. -/
theorem tokensEndAs_decodeLoop {s : State} (hh : s.host = []) (hp : s.pending = some (commandWord .rled))
    (hr : RledRuns s) {fuel : Nat} {c : Cursor} {m : Memory} (hm : SameOutsideOutput s m)
    (hc : CursorInRange (lineGeometry s) c) (hf : s.regs.srcLen.toNat < fuel + c.ip) :
    TokensEndAs s m c (decodeLoop s (lineGeometry s) fuel c) := by
  induction fuel generalizing c m with
  | zero =>
    by_cases hlt : c.ln < (lineGeometry s).lines
    · have he : fetchToken s c.ip = .error c.ip := by
        rcases fetchToken_cases s c with he | ⟨i, -, hin⟩
        · rw [he, Nat.max_eq_left (by omega)]
        · have := hin (lineGeometry s)
          omega
      rw [decodeLoop, if_pos hlt]
      exact ⟨1, m, c, run_one (step_decoding_exhausted hh hp hr.ready hm hlt he), hm⟩
    · rw [decodeLoop_done (Nat.not_lt.1 hlt)]
      exact tokensEndAs_done hh hp (Nat.not_lt.1 hlt)
  | succ fuel ih =>
    by_cases hlt : c.ln < (lineGeometry s).lines
    · rcases fetchToken_cases s c with he | ⟨i, hi, hin⟩
      · simp only [decodeLoop, if_pos hlt, he]
        exact ⟨1, m, c, run_one (step_decoding_exhausted hh hp hr.ready hm hlt he), hm⟩
      · obtain ⟨hc', ho'⟩ := hc.token (fetchToken_isToken hi)
        have advance := (hin (lineGeometry s)).1
        have cap : c.o + (decodedEffect (lineGeometry s) i c).1.length ≤ s.regs.dstCap.toNat := by
          have hle := offset_le hc'.line hc'.last
          rw [← hc'.offset, ho', hr.geometry.kept] at hle
          exact hle.trans hr.output
        have room : min (decodedEffect (lineGeometry s) i c).1.length (s.outRoom - c.o)
            = (decodedEffect (lineGeometry s) i c).1.length := by
          rw [outRoom_ready hr.ready.outputInside]
          omega
        have hstep := step_decoding_token hh hp hr.ready hm hlt hi
        rw [room] at hstep
        have hw : WritesOut s m (m.fill (s.regs.dstAddr.toNat + c.o) (decodedEffect (lineGeometry s) i c).1.length
            fun k => (decodedEffect (lineGeometry s) i c).1.getD k 0#8) c.o (decodedEffect (lineGeometry s) i c).1 :=
          Memory.read_fill _ _ _ _
        rw [decodeLoop_token hlt hi]
        exact .step hstep hw ho' (ih (hw.sameOutside cap hm) hc' (by omega))
    · rw [decodeLoop_done (Nat.not_lt.1 hlt)]
      exact tokensEndAs_done hh hp (Nat.not_lt.1 hlt)

/-- The token machine begun at the start of the body ends as the decoder does. -/
theorem tokensEndAs_start {s : State} (hh : s.host = []) (hp : s.pending = some (commandWord .rled)) (hr : RledRuns s) :
    TokensEndAs s s.mem Cursor.start (decodeLoop s (lineGeometry s) (s.regs.srcLen.toNat + 1) Cursor.start) :=
  tokensEndAs_decodeLoop hh hp hr (fun _ _ => rfl)
    ⟨hr.geometry.width_pos, Nat.zero_le _, fun _ => rfl, by simp [LineGeometry.offset, Cursor.start]⟩ (by omega)

/-- Settles O53: with or without an error, the atomic command and the run of tokens end with the same bytes in the output region
and the same registers. -/
theorem rledEqualsItsTokensOneByOne : Obligations.RledEqualsItsTokensOneByOne := by
  intro s t hr hh hp hd ht
  have hu := hr.undisturbed
  have hud (m : Memory) (c : Cursor) : Undisturbed .rled (s.decoding m c) := ⟨hu.1, hu.2⟩
  have atomic : step s = .next (complete .rled s (perform .rled s)) :=
    ((step_noEvent hh).trans (engineStep_command hp hd)).trans (exec_command s rfl)
  rw [atomic, perform_rled hr] at ht
  have tokens := tokensEndAs_start hh hp hr
  cases hdec : decodeLoop s (lineGeometry s) (s.regs.srcLen.toNat + 1) Cursor.start with
  | ok out =>
    rw [hdec] at ht tokens
    obtain ⟨n, m, c, hrun, hoff, hw⟩ := tokens
    cases ht
    have room : min out.length s.outRoom = out.length := by
      rw [outRoom_ready hr.ready.outputInside, decodeLoop_start_length hr hdec]
      exact Nat.min_eq_left hr.output
    have count : c.o = out.length := by rw [hoff]; exact Nat.zero_add _
    refine ⟨n, _, hrun, ?_⟩
    rw [decodeFinish, complete, complete, completeOk_undisturbed (hud m c), completeOk_undisturbed hu, room, count]
    refine ⟨rfl, rfl, rfl, rfl, rfl, fun a => ?_⟩
    exact (hw a).trans
      (Memory.read_fill s.mem (s.regs.dstAddr.toNat + Cursor.start.o) out.length (fun k => out.getD k 0#8) a).symm
  | error e =>
    rw [hdec] at ht tokens
    obtain ⟨n, m, c, hrun, hm⟩ := tokens
    cases ht
    refine ⟨n, _, hrun, ?_⟩
    rw [complete, complete, completeErr_undisturbed (hud m c), completeErr_undisturbed hu]
    refine ⟨rfl, rfl, rfl, rfl, rfl, fun a => ?_⟩
    have lost (u : State) := loseOutputs_read (i := .rled) (s := u) (t := { u with regs := failedRegs .rled u }) a
      (fun _ _ => rfl) fun h => by cases h
    refine (lost (s.decoding m c)).trans (.trans ?_ (lost s).symm)
    refine if_ctx_congr Iff.rfl (fun _ => rfl) fun ha => hm a ?_
    have inside : s.regs.dstAddr.toNat + s.regs.dstCap.toNat ≤ s.addrTop := hr.ready.outputInside
    by_contra hin
    exact ha ⟨rfl, show s.regs.dstAddr.toNat ≤ a by omega, show a < s.regs.dstAddr.toNat + s.regs.dstCap.toNat by omega,
      show a < s.addrTop by omega⟩

end Sys2Proof.Machine
end

section
/-! PROOFS. PXENC: the index of each pixel, the samples it packs, and the pixel it refuses. -/

namespace Sys2Proof.Machine

/-! ## The colour dictionary -/

/-- An active entry matches a colour where it holds it, whatever the number of the lookup. -/
theorem mem_dictMatches {s : State} (hw : ActiveWritten s) (hl : s.regs.palctl.palLen.toNat ≤ 256) (site : Nat) (c : Rgb)
    (k : Nat) : k ∈ dictMatches s site c ↔ k < s.regs.palctl.palLen.toNat ∧ HoldsColour s k c := by
  rw [dictMatches, List.mem_filter, List.mem_range, beq_iff_eq]
  refine and_congr_right fun hk => ⟨fun h => ?_, fun h => palRead_holdsColour h _⟩
  obtain ⟨d, hd⟩ := hw k (by omega) hk
  have holds : HoldsColour s k d := ⟨by omega, hd⟩
  rw [palRead_holdsColour holds] at h
  exact h ▸ holds

/-- The dictionary of 42_palette_mux.md R77. -/
theorem dictLookup_eq_some_iff {s : State} (hw : ActiveWritten s) (hl : s.regs.palctl.palLen.toNat ≤ 256) (site : Nat)
    (c : Rgb) (k : Nat) : dictLookup s site c = some k ↔ DictionaryIndex s c k := by
  unfold dictLookup DictionaryIndex
  cases s.cfg.dupWinner <;>
    simp only [List.min?_eq_some_iff, List.max?_eq_some_iff, mem_dictMatches hw hl, and_assoc, and_imp]

/-- A colour that some active entry holds has an index. -/
theorem exists_dictionaryIndex {s : State} (hw : ActiveWritten s) (hl : s.regs.palctl.palLen.toNat ≤ 256) {c : Rgb} {k : Nat}
    (hk : k < s.regs.palctl.palLen.toNat) (hc : HoldsColour s k c) : ∃ i, DictionaryIndex s c i := by
  have hmem : k ∈ dictMatches s 0 c := (mem_dictMatches hw hl 0 c k).2 ⟨hk, hc⟩
  have found : (dictLookup s 0 c).isSome = true := by
    unfold dictLookup
    cases s.cfg.dupWinner
    · exact List.isSome_min?_of_mem hmem
    · exact List.isSome_max?_of_mem hmem
  obtain ⟨i, hi⟩ := Option.isSome_iff_exists.1 found
  exact ⟨i, (dictLookup_eq_some_iff hw hl 0 c i).1 hi⟩

/-! ## The index of a pixel -/

theorem srcPixel_image {s : State} (hr : PxencRuns s) {x y : Nat} (hin : InImage s x y) : srcPixel s x y = inputPixel s x y := by
  have first : srcByte s (pbaddr s.regs x y) = inputByte s (pbaddr s.regs x y) := srcByte_pixelBuffer hr hin (j := 0) (by decide)
  simp only [srcPixel, inputPixel, first, srcByte_pixelBuffer hr hin (j := 1) (by decide),
    srcByte_pixelBuffer hr hin (j := 2) (by decide)]

/-- V1x1: black is 0, white is 1, no other colour has an index (44_plane_transposer.md R104). -/
theorem pixelIndex_mono {s : State} (hr : PxencRuns s) (hc : s.regs.variant.code = .v1x1) {x y : Nat} (hin : InImage s x y) :
    pixelIndex s x y = if inputPixel s x y = 0x000000#24 then some 0 else if inputPixel s x y = 0xFFFFFF#24 then some 1
      else none := by
  simp only [pixelIndex, encIndex, hc, srcPixel_image hr hin]

/-- The palette variants look the colour up, and refuse an index that does not fit (44_plane_transposer.md R105). -/
theorem encIndex_palette {s : State} (h1 : s.regs.variant.code ≠ .v1x1) (h2 : s.regs.variant.code ≠ .v8x3) (site : Nat)
    (c : Rgb) : encIndex s site c = (dictLookup s site c).bind (fitIndex s site) := by
  unfold encIndex
  split
  case h_1 => contradiction
  case h_8 => contradiction
  all_goals rfl

theorem pixelIndex_palette {s : State} (hr : PxencRuns s) (h1 : s.regs.variant.code ≠ .v1x1)
    (h2 : s.regs.variant.code ≠ .v8x3) (hw : ActiveWritten s) (hl : s.regs.palctl.palLen.toNat ≤ 256) {x y : Nat}
    (hin : InImage s x y) (i : Nat) : pixelIndex s x y = some i
      ↔ DictionaryIndex s (inputPixel s x y) i ∧ i < 2 ^ (s.regs.bpp.toNat * s.regs.nplanes.toNat) := by
  simp only [pixelIndex, srcPixel_image hr hin, encIndex_palette h1 h2, Option.bind_eq_some_iff,
    dictLookup_eq_some_iff hw hl, fitIndex_agrees hr.geometry.layoutAgrees, Option.ite_none_right_eq_some,
    Option.some.injEq]
  constructor
  · rintro ⟨_, hd, hfit, rfl⟩
    exact ⟨hd, hfit⟩
  · rintro ⟨hd, hfit⟩
    exact ⟨i, hd, hfit, rfl⟩

/-! ## The first pixel with no index -/

theorem firstUnknownPixel_none {s : State} (h : ∀ x y, InImage s x y → ∃ i, pixelIndex s x y = some i) :
    firstUnknownPixel s = none := by
  rw [firstUnknownPixel, List.find?_eq_none]
  intro k hk
  have hk' := List.mem_range.1 hk
  have hpos : 0 < s.regs.width.toNat := Nat.pos_of_mul_pos_right (Nat.lt_of_le_of_lt (Nat.zero_le k) hk')
  obtain ⟨i, hi⟩ := h _ _ ⟨Nat.mod_lt k hpos, Nat.div_lt_of_lt_mul hk'⟩
  simp [hi]

theorem firstUnknownPixel_some {s : State} {x y : Nat} (hin : InImage s x y) (hnone : pixelIndex s x y = none)
    (before : ∀ a b, InImage s a b → b * s.regs.width.toNat + a < y * s.regs.width.toNat + x →
      ∃ i, pixelIndex s a b = some i) : firstUnknownPixel s = some (y * s.regs.width.toNat + x) := by
  have inside := rowMajor_lt hin.1 hin.2
  rw [Nat.mul_comm s.regs.height.toNat] at inside
  rw [firstUnknownPixel, List.find?_range_eq_some]
  refine ⟨?_, List.mem_range.2 inside, fun k hk => ?_⟩
  · rw [Nat.mul_add_mod_of_lt hin.1, rowMajor_div hin.1, hnone]
    rfl
  · have hpos : 0 < s.regs.width.toNat := Nat.lt_of_le_of_lt (Nat.zero_le x) hin.1
    have place : k / s.regs.width.toNat * s.regs.width.toNat + k % s.regs.width.toNat = k := Nat.div_add_mod' k _
    obtain ⟨i, hi⟩ := before (k % s.regs.width.toNat) (k / s.regs.width.toNat)
      ⟨Nat.mod_lt k hpos, Nat.div_lt_of_lt_mul (by omega)⟩ (by omega)
    simp [hi]

/-- A PXENC that meets a pixel with no index ends with its number (44_plane_transposer.md R103). -/
theorem perform_pxenc_unknown {s : State} (hr : PxencRuns s) {k : Nat} (hk : firstUnknownPixel s = some k) :
    perform .pxenc s = .error ⟨.colorNotInPalette, k⟩ := by
  show performPxenc s = _
  rw [performPxenc, (checkBoth_eq_none s).2 hr.ready, hk]
  exact (if_neg (Nat.not_lt.2 hr.input)).trans (if_neg (Nat.not_lt.2 hr.output))

/-- Settles O59: the pixel is the first with no index. -/
theorem pxencRefusesUnknownColours : Obligations.PxencRefusesUnknownColours := by
  intro s x y hr h8 hpal hin before unknown
  refine exec_error_undisturbed rfl hr.undisturbed (perform_pxenc_unknown hr ?_)
  by_cases h1 : s.regs.variant.code = .v1x1
  · simp only [if_pos h1] at before unknown
    refine firstUnknownPixel_some hin ?_ fun a b hab hlt => ?_
    · rw [pixelIndex_mono hr h1 hin, if_neg unknown.1, if_neg unknown.2]
    · rw [pixelIndex_mono hr h1 hab]
      by_cases black : inputPixel s a b = 0x000000#24
      · exact ⟨0, if_pos black⟩
      · exact ⟨1, (if_neg black).trans (if_pos ((before a b hab hlt).resolve_left black))⟩
  · simp only [if_neg h1] at before unknown
    obtain ⟨hw, hl⟩ := hpal h1
    have index {a b : Nat} (hab : InImage s a b) := pixelIndex_palette hr h1 h8 hw hl hab
    refine firstUnknownPixel_some hin (Option.eq_none_iff_forall_ne_some.2 fun i hi => ?_) fun a b hab hlt => ?_
    · obtain ⟨hd, hfit⟩ := (index hin i).1 hi
      exact absurd (unknown i hd) (Nat.not_le.2 hfit)
    · obtain ⟨i, hi⟩ := before a b hab hlt
      exact ⟨i, (index hab i).2 hi⟩

/-! ## Packing samples into a byte -/

theorem testBit_foldl_or (g : Nat → Nat) (l : List Nat) (a k : Nat) :
    (l.foldl (fun v t => v ||| g t) a).testBit k = (a.testBit k || l.any fun t => (g t).testBit k) := by
  induction l generalizing a with
  | nil => simp
  | cons t l ih => rw [List.foldl_cons, ih, Nat.testBit_or, List.any_cons, Bool.or_assoc]

/-- A bit lies in one field of `b` bits only. -/
theorem field_unique {b m n i r : Nat} (hi : i < b) (hr : r < b) (h : b * m + i = b * n + r) : m = n := by
  have hb : 0 < b := by omega
  calc m = (b * m + i) / b := by rw [Nat.mul_add_div hb, Nat.div_eq_of_lt hi, Nat.add_zero]
    _ = (b * n + r) / b := by rw [h]
    _ = n := by rw [Nat.mul_add_div hb, Nat.div_eq_of_lt hr, Nat.add_zero]

/-- The byte of pixel `x`, `n` samples of `b` bits to a byte, the leftmost in the most significant bits (30_encoding.md R63): its
field has the pixel's sample, or 0 past the end of the row. -/
theorem packed_testBit {b n w x i : Nat} {f : Nat → Nat} (hn : 0 < n) (hf : ∀ x < w, f x < 2 ^ b) (hi : i < b) :
    ((List.range (min ((x / n + 1) * n) w - x / n * n)).foldl
      (fun v t => v ||| f (x / n * n + t) <<< (b * (n - 1 - (x / n * n + t) % n))) 0).testBit (b * (n - 1 - x % n) + i)
      = (decide (x < w) && (f x).testBit i) := by
  have hx : x / n * n + x % n = x := Nat.div_add_mod' x n
  have hm : x % n < n := Nat.mod_lt x hn
  rw [testBit_foldl_or, Nat.zero_testBit, Bool.false_or, Bool.eq_iff_iff, List.any_eq_true, Bool.and_eq_true,
    decide_eq_true_eq, Nat.succ_mul]
  constructor
  · rintro ⟨t, ht, hbit⟩
    have ht' := List.mem_range.1 ht
    rw [Nat.mul_add_mod_of_lt (by omega), Nat.testBit_shiftLeft, Bool.and_eq_true, decide_eq_true_eq] at hbit
    obtain ⟨hle, hbit⟩ := hbit
    have hlt : b * (n - 1 - x % n) + i - b * (n - 1 - t) < b := by
      by_contra hge
      have small : f (x / n * n + t) < 2 ^ (b * (n - 1 - x % n) + i - b * (n - 1 - t)) :=
        Nat.lt_of_lt_of_le (hf _ (by omega)) (Nat.pow_le_pow_right (by decide) (Nat.not_lt.1 hge))
      rw [Nat.testBit_lt_two_pow small] at hbit
      cases hbit
    have same := field_unique hi hlt (n := n - 1 - t) (m := n - 1 - x % n) (by omega)
    obtain rfl : t = x % n := by omega
    rw [hx] at hbit
    exact ⟨by omega, by simpa using hbit⟩
  · rintro ⟨hxw, hbit⟩
    refine ⟨x % n, List.mem_range.2 (by omega), ?_⟩
    rw [hx, Nat.testBit_shiftLeft]
    simpa using hbit

/-! ## The samples that PXENC writes -/

/-- A variant other than V8x3 has one plane, or is planar with one bit per pixel (43_geometry.md R89). -/
theorem FreshGeometry.planes {s : State} (h : FreshGeometry s) (hv : s.regs.variant.code ≠ .v8x3) :
    (s.regs.nplanes = 1#8 ∧ s.regs.variant.code ∉ [Variant.v1x2, .v1x3, .v1x4])
      ∨ (s.regs.nplanes ≠ 1#8 ∧ s.regs.variant.code ∈ [Variant.v1x2, .v1x3, .v1x4]) := by
  have rows : ∀ r ∈ variantTable, r.2.2 ≠ .v8x3 → (r.2.1 = 1 ∧ r.2.2 ∉ [Variant.v1x2, .v1x3, .v1x4])
      ∨ (r.2.1 ≠ 1 ∧ r.2.2 ∈ [Variant.v1x2, .v1x3, .v1x4]) := by decide
  have single : s.regs.nplanes = 1#8 ↔ s.regs.nplanes.toNat = 1 := BitVec.toNat_inj.symm
  rw [ne_eq, single]
  exact rows _ (h.row rfl) hv

/-- The sample of an index in plane `p` (44_plane_transposer.md R103, R105). -/
theorem planeSample_eq {s : State} (h : FreshGeometry s) (hv : s.regs.variant.code ≠ .v8x3) (p i : Nat) :
    planeSample s.regs.variant.code p i = if s.regs.nplanes = 1#8 then i else i / 2 ^ p % 2 := by
  rcases h.planes hv with ⟨hn, hc⟩ | ⟨hn, hc⟩
  · rw [if_pos hn]
    generalize s.regs.variant.code = v at *
    cases v <;> simp at hc <;> rfl
  · rw [if_neg hn, ← Nat.shiftRight_eq_div_pow, ← Nat.and_one_is_mod]
    generalize s.regs.variant.code = v at *
    cases v <;> simp at hc <;> rfl

/-- The sample of an index that fits the variant fits its field. -/
theorem planeSample_lt {s : State} (h : FreshGeometry s) (hv : s.regs.variant.code ≠ .v8x3) {i : Nat}
    (hi : i < 2 ^ (s.regs.bpp.toNat * s.regs.nplanes.toNat)) (p : Nat) :
    planeSample s.regs.variant.code p i < 2 ^ s.regs.bpp.toNat := by
  rw [planeSample_eq h hv]
  rcases h.planes hv with ⟨hn, -⟩ | ⟨hn, hc⟩
  · rw [if_pos hn]
    rw [hn] at hi
    exact Nat.mul_one s.regs.bpp.toNat ▸ hi
  · rw [if_neg hn, varsel_bits h.code, variantBits_planar hc]
    exact Nat.mod_lt _ (by decide)

/-- The bits of a byte are the fields of its pixels. -/
theorem FreshGeometry.shift_lt {s : State} (h : FreshGeometry s) {x i : Nat} (hi : i < s.regs.bpp.toNat) :
    pixelShift s.regs x + i < 8 := by
  have hb := varsel_bits h.code
  rw [pixelShift, pixelsPerByte, hb]
  rw [hb] at hi
  generalize s.regs.variant.code = v at *
  cases v <;> simp only [variantBits] at * <;> omega

/-- The field of column `x` in the byte that PXENC packs. -/
theorem sample_encByte {s : State} (h : FreshGeometry s) (hv : s.regs.variant.code ≠ .v8x3) {index : Nat → Nat → Nat} {y : Nat}
    (hindex : ∀ x < s.regs.width.toNat, pixelIndex s x y = some (index x y))
    (hfit : ∀ x < s.regs.width.toNat, index x y < 2 ^ (s.regs.bpp.toNat * s.regs.nplanes.toNat)) (p x : Nat) :
    (encByte s p y (x / pixelsPerByte s.regs)).toNat >>> pixelShift s.regs x % 2 ^ s.regs.bpp.toNat
      = if x < s.regs.width.toNat then planeSample s.regs.variant.code p (index x y) else 0 := by
  have value {x : Nat} (hx : x < s.regs.width.toNat) : (pixelIndex s x y).getD 0 = index x y := by rw [hindex x hx]; rfl
  have small : ∀ x < s.regs.width.toNat,
      planeSample s.regs.variant.code p ((pixelIndex s x y).getD 0) < 2 ^ s.regs.bpp.toNat := fun x hx =>
    value hx ▸ planeSample_lt h hv (hfit x hx) p
  have hn : 0 < pixelsPerByte s.regs := Nat.pos_of_ne_zero (pixelsPerByte_ne_zero h.layoutAgrees)
  rw [encByte_agrees h.layoutAgrees hv, BitVec.toNat_ofNat]
  apply Nat.eq_of_testBit_eq
  intro i
  rw [Nat.testBit_mod_two_pow, Nat.testBit_shiftRight, Nat.testBit_mod_two_pow]
  by_cases hi : i < s.regs.bpp.toNat
  · rw [decide_eq_true hi, decide_eq_true (h.shift_lt hi), Bool.true_and, Bool.true_and]
    refine (packed_testBit hn small hi).trans ?_
    by_cases hx : x < s.regs.width.toNat
    · rw [if_pos hx, value hx, decide_eq_true hx, Bool.true_and]
    · rw [if_neg hx, decide_eq_false hx, Bool.false_and, Nat.zero_testBit]
  · rw [decide_eq_false hi, Bool.false_and]
    by_cases hx : x < s.regs.width.toNat
    · rw [if_pos hx, Nat.testBit_lt_two_pow]
      exact Nat.lt_of_lt_of_le (value hx ▸ small x hx) (Nat.pow_le_pow_right (by decide) (Nat.not_lt.1 hi))
    · rw [if_neg hx, Nat.zero_testBit]

/-- PXENC writes the samples of the pixels' indices. -/
theorem pxencWrites_of_pixelIndex {s : State} {index : Nat → Nat → Nat} (hr : PxencRuns s) (hv : s.regs.variant.code ≠ .v8x3)
    (hindex : ∀ x y, InImage s x y → pixelIndex s x y = some (index x y))
    (hfit : ∀ x y, InImage s x y → index x y < 2 ^ (s.regs.bpp.toNat * s.regs.nplanes.toNat)) : PxencWrites s index := by
  obtain ⟨t, he, hc, hk, hres, hread⟩ := exec_fill rfl hr.undisturbed hr.output
    (perform_pxenc hr (firstUnknownPixel_none fun x y hin => ⟨_, hindex x y hin⟩))
  have sample {p x y : Nat} (hp : p < s.regs.nplanes.toNat) (hy : y < s.regs.height.toNat)
      (hx : x / pixelsPerByte s.regs < s.regs.bpl.toNat) : outputSample s t p y x
        = if x < s.regs.width.toNat then planeSample s.regs.variant.code p (index x y) else 0 := by
    rw [outputSample, hread _ (dbaddr_lt hp hy hx), bitmapByte_dbaddr hp hx]
    exact sample_encByte hr.geometry hv (fun x hx => hindex x y ⟨hx, hy⟩) (fun x hx => hfit x y ⟨hx, hy⟩) p x
  refine ⟨t, he, hc, hk, hres, fun p y hp hy => ⟨fun x hx => ?_, fun x hx hlt => ?_⟩⟩
  · rw [sample hp hy (hr.geometry.sampleByte_lt hx), if_pos hx, planeSample_eq hr.geometry hv]
  · rw [sample hp hy (Nat.div_lt_of_lt_mul (by rwa [Nat.mul_comm])), if_neg (Nat.not_lt.2 hx)]

/-- Settles O57: the index that each variant's pixels have. -/
theorem pxencWritesTheIndices : Obligations.PxencWritesTheIndices := by
  refine fun s index hr => ⟨fun h1 hpix => ?_, fun h1 h8 hw hl hpix => ?_⟩
  · obtain ⟨hb, hn⟩ : s.regs.bpp.toNat = 1 ∧ s.regs.nplanes.toNat = 1 := by
      simpa [variantTable] using hr.geometry.row h1
    refine pxencWrites_of_pixelIndex hr (by simp [h1]) (fun x y hin => ?_) fun x y hin => ?_
    · rw [pixelIndex_mono hr h1 hin]
      rcases hpix x y hin with ⟨hp, hi⟩ | ⟨hp, hi⟩ <;> rw [hp, hi] <;> rfl
    · rw [hb, hn]
      rcases hpix x y hin with ⟨-, hi⟩ | ⟨-, hi⟩ <;> rw [hi] <;> decide
  · exact pxencWrites_of_pixelIndex hr h8
      (fun x y hin => (pixelIndex_palette hr h1 h8 hw hl hin _).2 (hpix x y hin)) fun x y hin => (hpix x y hin).2

end Sys2Proof.Machine
end

section
/-! PROOFS. PXDEC undoes PXENC. -/

namespace Sys2Proof.Machine

/-! ## The channels of a pixel -/

/-- The bits of a triple (00_scope.md R9). -/
theorem rgbOf_getLsbD (r g b : Byte) (i : Nat) : (rgbOf r g b).getLsbD i
    = if i < 8 then b.getLsbD i else if i - 8 < 8 then g.getLsbD (i - 8) else r.getLsbD (i - 8 - 8) :=
  (BitVec.getLsbD_append (x := r ++ g) (y := b) (i := i)).trans
    (if_ctx_congr Iff.rfl (fun _ => rfl) fun _ => BitVec.getLsbD_append)

theorem channel_rgbOf (r g b : Byte) :
    channel (rgbOf r g b) 0 = r ∧ channel (rgbOf r g b) 1 = g ∧ channel (rgbOf r g b) 2 = b := by
  refine ⟨?_, ?_, ?_⟩ <;> apply BitVec.eq_of_getLsbD_eq <;> intro i hi <;>
    rw [channel, BitVec.getLsbD_extractLsb', decide_eq_true hi, Bool.true_and, rgbOf_getLsbD]
  · rw [if_neg (by omega), if_neg (by omega), show 16 + i - 8 - 8 = i by omega]
  · rw [if_neg (by omega), if_pos (by omega), Nat.add_sub_cancel_left]
  · rw [if_pos (by omega), Nat.zero_add]
  all_goals decide

/-- Bytes 0 to 2 of a pixel of the input are the channels of its colour. -/
theorem channel_inputPixel (s : State) (x y : Nat) {j : Nat} (hj : j < 3) :
    channel (inputPixel s x y) j = inputByte s (pbaddr s.regs x y + j) := by
  obtain ⟨h0, h1, h2⟩ := channel_rgbOf (inputByte s (pbaddr s.regs x y)) (inputByte s (pbaddr s.regs x y + 1))
    (inputByte s (pbaddr s.regs x y + 2))
  obtain rfl | rfl | rfl : j = 0 ∨ j = 1 ∨ j = 2 := by omega
  · exact h0
  · exact h1
  · exact h2

/-! ## Decoding what PXENC wrote -/

/-- `u` has the geometry of `s`, and its input region holds the bitmap that is in the output region of `t`. -/
structure DecodesOutput (s t u : State) : Prop where
  width : u.regs.width = s.regs.width
  height : u.regs.height = s.regs.height
  bpp : u.regs.bpp = s.regs.bpp
  nplanes : u.regs.nplanes = s.regs.nplanes
  bpl : u.regs.bpl = s.regs.bpl
  code : u.regs.variant.code = s.regs.variant.code
  bytes : ∀ k < bitmapSize s.regs, inputByte u k = outputByte t k

/-- Two fresh geometries of the same inputs have the same derived registers. -/
theorem FreshGeometry.derived_eq {s u : State} (hs : FreshGeometry s) (hu : FreshGeometry u) (hw : u.regs.width = s.regs.width)
    (hb : u.regs.bpp = s.regs.bpp) (hn : u.regs.nplanes = s.regs.nplanes) :
    u.regs.bpl = s.regs.bpl ∧ u.regs.variant.code = s.regs.variant.code := by
  constructor
  · exact BitVec.eq_of_toNat_eq (by rw [hu.bpl, hs.bpl, hw, hb])
  · have := hu.code
    rw [hb, hn, hs.code] at this
    exact (Option.some.inj this).symm

section
variable {s t u : State} (h : DecodesOutput s t u) {x y : Nat} (hin : InImage s x y) (hu : PxdecRuns u)
include h hin

theorem DecodesOutput.inImage : InImage u x y := ⟨h.width ▸ hin.1, h.height ▸ hin.2⟩

include hu

/-- The sample PXDEC reads is the one PXENC wrote. -/
theorem field_decodesOutput (ht : t.regs.dstAddr = s.regs.dstAddr) {p : Nat} (hp : p < s.regs.nplanes.toNat) :
    field u p y x = outputSample s t p y x := by
  have hinu := h.inImage hin
  have hpu : p < u.regs.nplanes.toNat := h.nplanes ▸ hp
  have place := dbaddr_lt hpu hinu.2 (hu.geometry.sampleByte_lt hinu.1)
  simp only [dbaddr, bitmapSize, pixelsPerByte, h.nplanes, h.bpl, h.bpp, h.height] at place
  rw [field_eq_extract hu hpu hinu, BitVec.extractLsb'_toNat, outputSample]
  simp only [dbaddr, pixelShift, pixelsPerByte, h.nplanes, h.bpl, h.bpp]
  rw [h.bytes _ place, outputByte, ht]

end

/-- On a single-plane palette variant a pixel is the entry of PALRAM that its sample indexes. -/
theorem decPixel_single {u : State} (hu : FreshGeometry u) (h1 : u.regs.variant.code ≠ .v1x1)
    (h8 : u.regs.variant.code ≠ .v8x3) (hc : u.regs.variant.code ∉ [Variant.v1x2, .v1x3, .v1x4]) (x y : Nat) :
    decPixel u x y = palRead u (y * u.regs.width.toNat + x) (field u 0 y x) := by
  have byte (hv : u.regs.variant.code = .v8x1) : (srcByte u (dbaddr u.regs 0 y x)).toNat = field u 0 y x := by
    have hb : u.regs.bpp.toNat = 8 := by rw [varsel_bits hu.code, hv]; rfl
    rw [field_agrees hu.layoutAgrees, Nat.and_two_pow_sub_one_eq_mod, pixelShift, pixelsPerByte, hb, Nat.div_self (by decide),
      Nat.sub_self, Nat.zero_sub, Nat.mul_zero, Nat.shiftRight_zero, Nat.div_one, Nat.mod_eq_of_lt (BitVec.isLt _)]
  cases hv : u.regs.variant.code <;> simp only [hv, ne_eq, not_true_eq_false, reduceCtorEq, List.mem_cons, true_or, or_true,
    not_false_eq_true] at h1 h8 hc
  case v2x1 => simp only [decPixel, hv]
  case v4x1 => simp only [decPixel, hv]
  case v8x1 => simp only [decPixel, hv, byte hv]

/-- A pixel whose samples are those of an index is the entry of PALRAM at that index. -/
theorem decPixel_of_samples {u : State} (hu : FreshGeometry u) (h1 : u.regs.variant.code ≠ .v1x1)
    (h8 : u.regs.variant.code ≠ .v8x3) {x y i : Nat} {c : Rgb} (hc : HoldsColour u i c)
    (hi : i < 2 ^ (u.regs.bpp.toNat * u.regs.nplanes.toNat))
    (samples : ∀ p < u.regs.nplanes.toNat, field u p y x = if u.regs.nplanes = 1#8 then i else i / 2 ^ p % 2) :
    decPixel u x y = c := by
  rcases hu.planes h8 with ⟨hn, hv⟩ | ⟨hn, hv⟩
  · rw [decPixel_single hu h1 h8 hv, samples 0 hu.nplanes_pos, if_pos hn, palRead_holdsColour hc]
  · have index : planarIndex u x y = i := by
      refine planarIndex_eq ?_ fun p hp => ?_
      · rwa [varsel_bits hu.code, variantBits_planar hv, Nat.one_mul] at hi
      · rw [samples p hp, if_neg hn, Nat.toNat_testBit]
    rw [decPixel_planar hv, index, palRead_holdsColour hc]

/-- PXDEC writes the PixelBuffer of `s` when it decodes its colours and the alphas of `s` are 255. -/
theorem pxdec_writesInput {s u : State} (hu : PxdecRuns u) (hw : u.regs.width = s.regs.width)
    (hh : u.regs.height = s.regs.height) (alpha : ∀ x y, InImage s x y → inputByte s (pbaddr s.regs x y + 3) = 0xFF#8)
    (colours : ∀ x y, InImage s x y → decPixel u x y = inputPixel s x y) :
    ∃ v, exec .pxdec u = .next v ∧ CompletedOk .pxdec u v
      ∧ ∀ k, k < s.regs.width.toNat * s.regs.height.toNat * 4 → outputByte v k = inputByte s k := by
  obtain ⟨v, he, hc, hk, -, hread⟩ := exec_fill rfl hu.undisturbed hu.output (perform_pxdec hu)
  refine ⟨v, he, hc, fun k hlt => ?_⟩
  have read : outputByte v k = pixelBufferByte u k := by
    rw [outputByte, hk.inputs.dstAddr, hread k (by rwa [hw, hh])]
  have hq : k / 4 < s.regs.width.toNat * s.regs.height.toNat := Nat.div_lt_of_lt_mul (by omega)
  have hpos : 0 < s.regs.width.toNat := Nat.pos_of_mul_pos_right (Nat.lt_of_le_of_lt (Nat.zero_le _) hq)
  have hin : InImage s (k / 4 % s.regs.width.toNat) (k / 4 / s.regs.width.toNat) :=
    ⟨Nat.mod_lt _ hpos, Nat.div_lt_of_lt_mul hq⟩
  have place : pbaddr s.regs (k / 4 % s.regs.width.toNat) (k / 4 / s.regs.width.toNat) + k % 4 = k := by
    rw [pbaddr, Nat.div_add_mod', Nat.div_add_mod]
  rw [read, pixelBufferByte, hw, colours _ _ hin]
  by_cases h3 : k % 4 = 3
  · have := alpha _ _ hin
    rw [← h3, place] at this
    rw [if_pos h3, this]
  · rw [if_neg h3, channel_inputPixel s _ _ (by omega), place]

/-! ## The index of a colour, and back -/

/-- The indices of a palette variant have eight bits at most (43_geometry.md R89). -/
theorem FreshGeometry.indexBits_le {s : State} (h : FreshGeometry s) (hv : s.regs.variant.code ≠ .v8x3) :
    s.regs.bpp.toNat * s.regs.nplanes.toNat ≤ 8 := by
  have rows : ∀ r ∈ variantTable, r.2.2 ≠ .v8x3 → r.1 * r.2.1 ≤ 8 := by decide
  exact rows _ (h.row rfl) hv

/-- Index `i` stands for colour `c`: on V1x1 black or white, on a palette variant the colour of entry `i`. -/
def IndexOf (s : State) (c : Rgb) (i : Nat) : Prop :=
  if s.regs.variant.code = .v1x1 then i = (if c = 0x000000#24 then 0 else 1) ∧ (c = 0x000000#24 ∨ c = 0xFFFFFF#24)
  else HoldsColour s i c

theorem indexOf_mono {s : State} (h1 : s.regs.variant.code = .v1x1) {c : Rgb} {i : Nat} :
    IndexOf s c i ↔ i = (if c = 0x000000#24 then 0 else 1) ∧ (c = 0x000000#24 ∨ c = 0xFFFFFF#24) :=
  iff_of_eq (if_pos h1)

theorem indexOf_palette {s : State} (h1 : s.regs.variant.code ≠ .v1x1) {c : Rgb} {i : Nat} :
    IndexOf s c i ↔ HoldsColour s i c :=
  iff_of_eq (if_neg h1)

/-- On V1x1 black and white have an index. -/
theorem exists_pixelIndex_mono {s : State} (hr : PxencRuns s) (h1 : s.regs.variant.code = .v1x1) {x y : Nat}
    (hin : InImage s x y) (hc : inputPixel s x y = 0x000000#24 ∨ inputPixel s x y = 0xFFFFFF#24) :
    ∃ i, pixelIndex s x y = some i ∧ i < 2 ^ (s.regs.bpp.toNat * s.regs.nplanes.toNat)
      ∧ IndexOf s (inputPixel s x y) i := by
  obtain ⟨hb, hn⟩ : s.regs.bpp.toNat = 1 ∧ s.regs.nplanes.toNat = 1 := by
    simpa [variantTable] using hr.geometry.row h1
  simp only [pixelIndex_mono hr h1 hin, hb, hn, indexOf_mono h1]
  rcases hc with hc | hc <;> rw [hc]
  · exact ⟨0, rfl, by decide, rfl, .inl rfl⟩
  · exact ⟨1, rfl, by decide, rfl, .inr rfl⟩

/-- On a palette variant the colours of the active entries have an index. -/
theorem exists_pixelIndex_palette {s : State} (hr : PxencRuns s) (h1 : s.regs.variant.code ≠ .v1x1)
    (h8 : s.regs.variant.code ≠ .v8x3) (hw : ActiveWritten s)
    (hl : s.regs.palctl.palLen.toNat ≤ 2 ^ (s.regs.bpp.toNat * s.regs.nplanes.toNat)) {x y : Nat} (hin : InImage s x y)
    {k : Nat} (hk : k < s.regs.palctl.palLen.toNat) (hc : HoldsColour s k (inputPixel s x y)) :
    ∃ i, pixelIndex s x y = some i ∧ i < 2 ^ (s.regs.bpp.toNat * s.regs.nplanes.toNat)
      ∧ IndexOf s (inputPixel s x y) i := by
  have hbits := hr.geometry.indexBits_le h8
  have h256 : s.regs.palctl.palLen.toNat ≤ 256 := hl.trans (Nat.pow_le_pow_right (by decide) hbits)
  obtain ⟨i, hi⟩ := exists_dictionaryIndex hw h256 hk hc
  obtain ⟨hlen, hholds, -⟩ := id hi
  have hfit : i < 2 ^ (s.regs.bpp.toNat * s.regs.nplanes.toNat) := Nat.lt_of_lt_of_le hlen hl
  exact ⟨i, (pixelIndex_palette hr h1 h8 hw h256 hin i).2 ⟨hi, hfit⟩, hfit, (indexOf_palette h1).2 hholds⟩

/-- Samples of an index decode to the colour it stands for. -/
theorem decPixel_of_indexOf {s u : State} (hu : FreshGeometry u) (hv : u.regs.variant.code = s.regs.variant.code)
    (hp : u.palram = s.palram) (h8 : s.regs.variant.code ≠ .v8x3) {x y i : Nat} {c : Rgb} (hi : IndexOf s c i)
    (hfit : i < 2 ^ (u.regs.bpp.toNat * u.regs.nplanes.toNat))
    (samples : ∀ p < u.regs.nplanes.toNat, field u p y x = if u.regs.nplanes = 1#8 then i else i / 2 ^ p % 2) :
    decPixel u x y = c := by
  by_cases h1 : s.regs.variant.code = .v1x1
  · obtain ⟨rfl, hc⟩ := (indexOf_mono h1).1 hi
    obtain ⟨-, hplanes⟩ : u.regs.bpp.toNat = 1 ∧ u.regs.nplanes.toNat = 1 := by
      simpa [variantTable] using hu.row (hv.trans h1)
    have hn : u.regs.nplanes = 1#8 := BitVec.eq_of_toNat_eq hplanes
    simp only [decPixel, hv, h1, samples 0 hu.nplanes_pos, if_pos hn]
    rcases hc with rfl | rfl <;> rfl
  · have holds : HoldsColour u i c := by
      rw [HoldsColour, hp]
      exact (indexOf_palette h1).1 hi
    exact decPixel_of_samples hu (hv ▸ h1) (hv ▸ h8) holds hfit samples

/-- A pixel of V8x3 is the bytes of its three planes (44_plane_transposer.md R102). -/
theorem decPixel_trueColour {u : State} (hu : PxdecRuns u) (h8 : u.regs.variant.code = .v8x3) {x y : Nat}
    (hin : InImage u x y) : decPixel u x y = rgbOf (inputByte u ((y * 3 + 0) * u.regs.bpl.toNat + x))
      (inputByte u ((y * 3 + 1) * u.regs.bpl.toNat + x)) (inputByte u ((y * 3 + 2) * u.regs.bpl.toNat + x)) := by
  obtain ⟨hb, hn⟩ : u.regs.bpp.toNat = 8 ∧ u.regs.nplanes.toNat = 3 := by
    simpa [variantTable] using hu.geometry.row h8
  have byte {p : Nat} (hp : p < 3) : srcByte u (dbaddr u.regs p y x) = inputByte u ((y * 3 + p) * u.regs.bpl.toNat + x) := by
    rw [srcByte_bitmap hu (hn ▸ hp) hin.2 (hu.geometry.pixelByte_lt hb hin.1), dbaddr, hn]
  simp only [decPixel, h8, byte (p := 0) (by decide), byte (p := 1) (by decide), byte (p := 2) (by decide)]

section
variable {s t u : State} (hr : PxencRuns s) (he : exec .pxenc s = .next t) (hu : PxdecRuns u) (output : DecodesOutput s t u)
include hr he hu output

/-- The round trip on V8x3, byte by byte. -/
theorem decPixel_pxenc_trueColour (h8 : s.regs.variant.code = .v8x3) :
    t.regs.status.err = false ∧ ∀ x y, InImage s x y → decPixel u x y = inputPixel s x y := by
  obtain ⟨hb, hn⟩ : s.regs.bpp.toNat = 8 ∧ s.regs.nplanes.toNat = 3 := by
    simpa [variantTable] using hr.geometry.row h8
  obtain ⟨t', he', hc, -, -, hread⟩ := pxencTrueColour s hr h8
  cases he.symm.trans he'
  refine ⟨by rw [hc.status], fun x y hin => ?_⟩
  have plane {p : Nat} (hp : p < 3) :
      inputByte u ((y * 3 + p) * u.regs.bpl.toNat + x) = inputByte s (pbaddr s.regs x y + p) := by
    have place := dbaddr_lt (hn ▸ hp) hin.2 (hr.geometry.pixelByte_lt hb hin.1)
    rw [dbaddr, hn] at place
    rw [output.bpl, output.bytes _ place, hread x y p hin hp, pbaddr]
  rw [decPixel_trueColour hu (output.code.trans h8) (output.inImage hin), plane (by decide), plane (by decide),
    plane (by decide)]
  rfl

/-- The round trip on the other variants: each pixel's index is read back. -/
theorem decPixel_pxenc_indexed (h8 : s.regs.variant.code ≠ .v8x3) (hp : u.palram = t.palram)
    (index : ∀ x y, InImage s x y → ∃ i, pixelIndex s x y = some i
      ∧ i < 2 ^ (s.regs.bpp.toNat * s.regs.nplanes.toNat) ∧ IndexOf s (inputPixel s x y) i) :
    t.regs.status.err = false ∧ ∀ x y, InImage s x y → decPixel u x y = inputPixel s x y := by
  have value {x y : Nat} (hin : InImage s x y) : pixelIndex s x y = some ((pixelIndex s x y).getD 0)
      ∧ (pixelIndex s x y).getD 0 < 2 ^ (s.regs.bpp.toNat * s.regs.nplanes.toNat)
      ∧ IndexOf s (inputPixel s x y) ((pixelIndex s x y).getD 0) := by
    obtain ⟨i, hi, hfit, hof⟩ := index x y hin
    rw [hi]
    exact ⟨rfl, hfit, hof⟩
  obtain ⟨t', he', hc, hk, -, hread⟩ := pxencWrites_of_pixelIndex (index := fun x y => (pixelIndex s x y).getD 0) hr h8
    (fun x y hin => (value hin).1) fun x y hin => (value hin).2.1
  cases he.symm.trans he'
  refine ⟨by rw [hc.status], fun x y hin => ?_⟩
  obtain ⟨-, hfit, hof⟩ := value hin
  refine decPixel_of_indexOf hu.geometry output.code (hp.trans hk.palette.palram) h8 hof
    (by rwa [output.bpp, output.nplanes]) fun p hlt => ?_
  rw [output.nplanes] at hlt ⊢
  rw [field_decodesOutput output hin hu hk.inputs.dstAddr hlt, (hread p y hlt hin.2).1 x hin.1]

end

/-- Settles O60: on V8x3 byte by byte, on the other variants index by index. -/
theorem pxdecOfPxencIsThePixelBuffer : Obligations.PxdecOfPxencIsThePixelBuffer := by
  intro s t u hr hpal hpix he hu hw hh hb hn hp hbytes
  obtain ⟨hbpl, hcode⟩ := hr.geometry.derived_eq hu.geometry hw hb hn
  have output : DecodesOutput s t u := ⟨hw, hh, hb, hn, hbpl, hcode, hbytes⟩
  suffices h : t.regs.status.err = false ∧ ∀ x y, InImage s x y → decPixel u x y = inputPixel s x y by
    obtain ⟨v, hv, hc, hout⟩ := pxdec_writesInput hu hw hh (fun x y hin => (hpix x y hin).1) h.2
    exact ⟨v, hv, hc, h.1, hout⟩
  by_cases h8 : s.regs.variant.code = .v8x3
  · exact decPixel_pxenc_trueColour hr he hu output h8
  · refine decPixel_pxenc_indexed hr he hu output h8 hp fun x y hin => ?_
    have held := (hpix x y hin).2
    split at held
    next h1 => exact exists_pixelIndex_mono hr h1 hin held
    next h => exact absurd h h8
    next h1 _ =>
      obtain ⟨hwritten, hlen⟩ := hpal h1 h8
      obtain ⟨k, hk, hc⟩ := held
      exact exists_pixelIndex_palette hr h1 h8 hwritten hlen hin hk hc

end Sys2Proof.Machine
end
